-- ==== Sys2Proof/Word.lean ====
section
/-! DEFINITION. The bit-vector types of the machine: octets, instruction symbols, and words of a
machine whose word has `n` octets (00_scope.md R5, R12; 20_memory.md R71). -/

namespace Sys2Proof

/-- One addressable unit of memory, an octet (00_scope.md R5: `UNIT` = 8). -/
abbrev Byte := BitVec 8

/-- One instruction symbol, 16 bits (30_encoding.md R100). -/
abbrev Symbol := BitVec 16

/-- A word of `n` octets, `W = 8 * n` bits: what a register holds, and an address
(00_scope.md R5, R12). -/
abbrev Word (n : Nat) := BitVec (8 * n)

/-- The number of octets in one instruction symbol, the spec's `IST` (00_scope.md R5). -/
abbrev ist : Nat := 2

/-- The size of a word. `W` is a multiple of 8 and at least 16 (00_scope.md R5, decision D2), so
a word has at least two octets; the size carries that fact. -/
structure WordSize where
  /-- The number of octets in a word, the spec's `WB`. -/
  octets : Nat
  /-- `W` is at least 16. -/
  two_le : 2 ≤ octets
deriving DecidableEq, Repr

end Sys2Proof
end

