-- ==== Sys2Proof/Config.lean ====
section
/-! DEFINITION. What an implementation of the hardware fixes (00_scope.md R5, 10_state.md R52), and
the free values: those the spec leaves unconstrained. -/

namespace Sys2Proof

/-- `BYTE_ORDER`: the order of the octets of a multi-octet value in memory, for data and for
instruction fetch (20_memory.md R72). -/
inductive ByteOrder where
  | big
  | little
deriving DecidableEq, Repr

/-- `DEBUG_PORT`: whether a write to SR 10 emits a byte or is ignored (10_state.md R44). -/
inductive DebugPort where
  | emit
  | ignore
deriving DecidableEq, Repr

/-- What a region of the address space holds (20_memory.md R80). An address in no region holds
nothing. -/
inductive RegionKind where
  | ram
  | rom
  | device
deriving DecidableEq, Repr

/-- One region of `MEM_MAP`: the octets `base` to `base + size - 1` (20_memory.md R80). -/
structure Region where
  base : Nat
  size : Nat
  kind : RegionKind
deriving DecidableEq, Repr

/-- The parameters of the spec (00_scope.md R5). Every one the spec leaves OPEN is a field, so a
statement for every state holds for every implementation (log 1). -/
structure Config where
  /-- `W` and `WB`. -/
  word : WordSize
  /-- `HAS_MUL`, SR 7 bit 0 (10_state.md R41). -/
  hasMul : Bool
  /-- `CORE_FREQ_KIHZ`, the value of SR 6 (10_state.md R40). -/
  coreFreqKiHz : Nat
  /-- `BYTE_ORDER`. -/
  byteOrder : ByteOrder
  /-- `MULDIV_SIGNED` (45_misc_two_register.md R192). -/
  mulDivSigned : Bool
  /-- `DEBUG_PORT`. -/
  debugPort : DebugPort
  /-- `MEM_MAP`; where two regions overlap, the earlier one counts. -/
  memMap : List Region
  /-- `RESET_PC` (70_reset_and_hazards.md R311). -/
  resetPc : Nat
  /-- `RESET_IE` (10_state.md R53). -/
  resetIe : Bool
  /-- `RESET_SR11` bit 0 (10_state.md R53). -/
  resetExtEn : Bool
  /-- `RESET_SR11` bit 1 (10_state.md R53). -/
  resetRegExc : Bool
deriving DecidableEq, Repr

/-- `WB`, the number of octets in a word (00_scope.md R5). -/
abbrev Config.wb (c : Config) : Nat := c.word.octets

/-- `MODEL_ID`, the value of SR 0 (10_state.md R34). -/
abbrev Config.modelId : Nat := 0

/-- `CMP_TRUE`, the value a true comparison writes (43_comparison.md R170, decision D11). -/
abbrev Config.cmpTrue : Nat := 1

/-- The configuration of `State.reset`: that of the spec's test vectors (95_test_vectors.md,
conventions of Parts 2 and 3). DESIGN CHOICE, log 2 and log 3; unsafe for a claim that rests on
one of these values. -/
def Config.base : Config where
  word := ⟨2, by decide⟩
  hasMul := true
  coreFreqKiHz := 976
  byteOrder := .big
  mulDivSigned := false
  debugPort := .emit
  memMap := [⟨0, 65536, .ram⟩]
  resetPc := 0x0100
  resetIe := false
  resetExtEn := false
  resetRegExc := false

/-- FREE VALUE: what the `draw`-th free value is when SR 5 is read on a machine of `n`-octet words
(10_state.md R39: "an unconstrained `W`-bit value (a draw)"; log 9). -/
opaque Config.freeCycles (n draw : Nat) : Word n

/-- FREE VALUE: octet `k` of what an access to a device address returns at the `draw`-th draw
(20_memory.md R79: "an unconstrained input"; log 12). -/
opaque Config.freeOctet (draw k : Nat) : Byte

/-- FREE VALUE: which of several asserted exception pins is reported at the `draw`-th draw, taken
modulo their number (60_exceptions.md R282: "an unconstrained choice"; log 8). -/
opaque Config.freePick (draw : Nat) : Nat

end Sys2Proof
end

