-- ==== Sys2Proof/Machine/Octets.lean ====
section
/-! DEFINITION. The octets of a value in memory, in either byte order (20_memory.md R72, R73). -/

namespace Sys2Proof

/-- The number whose octets, the most significant first, are `bs`. -/
def bigEndianValue : List Byte → Nat
  | [] => 0
  | b :: bs => b.toNat * 256 ^ bs.length + bigEndianValue bs

/-- The low `k` octets of `v`, the most significant first. -/
def bigEndianOctets : Nat → Nat → List Byte
  | 0, _ => []
  | k + 1, v => BitVec.ofNat 8 (v / 256 ^ k) :: bigEndianOctets k v

/-- The number held by the octets `bs`, given from the lowest address upwards
(20_memory.md R73). -/
def ByteOrder.value (o : ByteOrder) (bs : List Byte) : Nat :=
  match o with
  | .big => bigEndianValue bs
  | .little => bigEndianValue bs.reverse

/-- The low `k` octets of `v`, from the lowest address upwards (20_memory.md R73). -/
def ByteOrder.octets (o : ByteOrder) (k v : Nat) : List Byte :=
  match o with
  | .big => bigEndianOctets k v
  | .little => (bigEndianOctets k v).reverse

end Sys2Proof
end

