-- ==== Sys2Proof/Syntax.lean ====
section
/-! DEFINITION. The instructions: one constructor for each row of spec/opcode_table.json, with its
operands already taken out of their bit fields (30_encoding.md R104 to R116). -/

namespace Sys2Proof

/-- The number of a general-purpose register; register 0 is the PC (10_state.md R20, R24). -/
abbrev Reg := Fin 16

/-- The right operand of an arithmetic instruction: a register, or with `Si` = 1 the literal value
of the field, 0 to 15 (42_arithmetic.md R150). -/
inductive Operand where
  | reg (r : Reg)
  | imm (v : Nat)
deriving DecidableEq, Repr

/-- The jump offset of a short-range branch: a register, or with `Sim` = 1 a signed count of
symbols, -8 to 7 (44_jumps_and_branches.md R181). -/
inductive BranchOffset where
  | reg (r : Reg)
  | imm (k : Int)
deriving DecidableEq, Repr

/-- The four modes of a Data Transfer operand (48_immediate_and_data_transfer.md R231). -/
inductive XfMode where
  /-- `0b00`: no change. -/
  | plain
  /-- `0b01`: autoincrement, after the operation. -/
  | autoIncrement
  /-- `0b10`: autodecrement, before the operation. -/
  | autoDecrement
  /-- `0b11`: autopostdecrement, after the operation. -/
  | autoPostDecrement
deriving DecidableEq, Repr

/-- One operand of Data Transfer (48_immediate_and_data_transfer.md R231, R232). -/
structure XfOperand where
  indirect : Bool
  mode : XfMode
  reg : Reg
deriving DecidableEq, Repr

/-- The four flags of a comparison (43_comparison.md R170): `Iv`, `Sg`, `G`, `E`. -/
structure CmpFlags where
  invert : Bool
  signed : Bool
  greater : Bool
  equal : Bool
deriving DecidableEq, Repr

/-- The instruction set (30_encoding.md R103). -/
inductive Instr where
  /-- Distinguished Exception Generator (R130). -/
  | deg
  /-- Exception Return (R131). -/
  | eret
  /-- Bitwise, truth table `m` (R140). -/
  | bit (m : BitVec 4) (s d : Reg)
  /-- Add (R151). -/
  | add (s : Operand) (d : Reg)
  /-- Subtract (R152). -/
  | sub (s : Operand) (d : Reg)
  /-- Shift left (R153). -/
  | shl (s : Operand) (d : Reg)
  /-- Shift right, fill 0 (R154). -/
  | shr (s : Operand) (d : Reg)
  /-- Shift right, fill the sign (R155). -/
  | asr (s : Operand) (d : Reg)
  /-- Rotate left (R156). -/
  | rol (s : Operand) (d : Reg)
  /-- Rotate right (R157). -/
  | ror (s : Operand) (d : Reg)
  /-- Negate (R158). -/
  | neg (s : Operand) (d : Reg)
  /-- Compare (R170). -/
  | cmp (f : CmpFlags) (s d : Reg)
  /-- Data Transfer, from `src` to `dst` (R231). -/
  | xf (src dst : XfOperand)
  /-- Medium-range Jump Not Zero; the offset counts symbols, -128 to 127 (R180). -/
  | jc (c : Reg) (off : Int)
  /-- Subword: `count` bytes (1 to 8) from byte `index` (0 to 15) (R210). -/
  | subw (sx : Bool) (count index : Nat) (d : Reg)
  /-- Read System Register `n` into `r` (R220). -/
  | rsr (r : Reg) (n : Nat)
  /-- Write `r` to System Register `n` (R221). -/
  | wsr (r : Reg) (n : Nat)
  /-- Small Immediate, 0 to 255 (R230). -/
  | si (v : Nat) (d : Reg)
  /-- Swap (R190). -/
  | swap (b a : Reg)
  /-- Multiply, low word (R191). -/
  | mul (b a : Reg)
  /-- Divide, quotient (R192). -/
  | div (b a : Reg)
  /-- Divide, remainder (R193). -/
  | mod (b a : Reg)
  /-- Load register by number (R194). -/
  | loadReg (b a : Reg)
  /-- Store register by number (R195). -/
  | storeReg (b a : Reg)
  /-- Loop Indirect (R196). -/
  | loopI (b a : Reg)
  /-- Loop; the offset counts symbols, -8 to 7 (R198). -/
  | loop (off : Int) (a : Reg)
  /-- Branch if zero (R182). -/
  | bz (c : BranchOffset) (v : Reg)
  /-- Branch if not zero (R183). -/
  | bnz (c : BranchOffset) (v : Reg)
  /-- Branch if greater than zero (R184). -/
  | bgtz (c : BranchOffset) (v : Reg)
  /-- Branch if less than or equal to zero (R185). -/
  | blez (c : BranchOffset) (v : Reg)
  /-- Long Multiply, double-width product to `h`, `lo` (R250). -/
  | multiply (a b h lo : Reg)
  /-- Long Divmod, dividend in `h`, `lo` (R251). -/
  | divMod (a b h lo : Reg)
  /-- Load with offset in addressable units, -128 to 127 (R252). -/
  | loadOff (a b : Reg) (off : Int)
  /-- Store with offset in addressable units, -128 to 127 (R253). -/
  | storeOff (a b : Reg) (off : Int)
deriving DecidableEq, Repr

end Sys2Proof
end

