-- ==== Sys2Proof/WellFormed.lean ====
section
/-! DEFINITION. When an instruction's operands fit their bit fields (30_encoding.md R116). Register
numbers and flags fit by their types. -/

namespace Sys2Proof

/-- A literal right operand is 0 to 15 (42_arithmetic.md R150). -/
def Operand.wf : Operand → Bool
  | .reg _ => true
  | .imm v => v < 16

/-- A signed 4-bit count of symbols, -8 to 7 (30_encoding.md R116). -/
def fits4 (k : Int) : Bool := -8 ≤ k && k ≤ 7

/-- A signed 8-bit number, -128 to 127 (30_encoding.md R116). -/
def fits8 (k : Int) : Bool := -128 ≤ k && k ≤ 127

/-- An immediate branch offset is a signed 4-bit number (44_jumps_and_branches.md R181). -/
def BranchOffset.wf : BranchOffset → Bool
  | .reg _ => true
  | .imm k => fits4 k

/-- The instruction has an encoding: every number in it fits its field. -/
def Instr.wf : Instr → Bool
  | .deg => true
  | .eret => true
  | .bit _ _ _ => true
  | .add s _ => s.wf
  | .sub s _ => s.wf
  | .shl s _ => s.wf
  | .shr s _ => s.wf
  | .asr s _ => s.wf
  | .rol s _ => s.wf
  | .ror s _ => s.wf
  | .neg s _ => s.wf
  | .cmp _ _ _ => true
  | .xf _ _ => true
  | .jc _ off => fits8 off
  | .subw _ count index _ => 1 ≤ count && count ≤ 8 && index < 16
  | .rsr _ n => n < 256
  | .wsr _ n => n < 256
  | .si v _ => v < 256
  | .swap _ _ => true
  | .mul _ _ => true
  | .div _ _ => true
  | .mod _ _ => true
  | .loadReg _ _ => true
  | .storeReg _ _ => true
  | .loopI _ _ => true
  | .loop off _ => fits4 off
  | .bz c _ => c.wf
  | .bnz c _ => c.wf
  | .bgtz c _ => c.wf
  | .blez c _ => c.wf
  | .multiply _ _ _ _ => true
  | .divMod _ _ _ _ => true
  | .loadOff _ _ off => fits8 off
  | .storeOff _ _ off => fits8 off

end Sys2Proof
end

