-- ==== Sys2Proof/Decode.lean ====
section
/-! DEFINITION. The decoder and, after it, the encoder (30_encoding.md). The decoder is total: a
word that is no instruction of the table is rejected by name. -/

namespace Sys2Proof

/-- Bits `hi` down to `lo` of a symbol, both inclusive, as a number (00_scope.md R7, R10). -/
def bits (s : Symbol) (hi lo : Nat) : Nat := s.toNat / 2 ^ lo % 2 ^ (hi + 1 - lo)

/-- A 4-bit register field whose lowest bit is bit `lo` (00_scope.md R9). -/
def regField (s : Symbol) (lo : Nat) : Reg := Fin.ofNat 16 (bits s (lo + 3) lo)

/-- One bit of a symbol as a flag. -/
def flagBit (s : Symbol) (k : Nat) : Bool := bits s k k == 1

/-- The two's-complement reading of a `k`-bit number (00_scope.md R10). -/
def signedField (k v : Nat) : Int := if v < 2 ^ (k - 1) then (v : Int) else (v : Int) - 2 ^ k

/-- Why a list of symbols is no instruction of the table. -/
inductive DecodeError where
  /-- Fewer symbols than the instruction's length (30_encoding.md R101). -/
  | truncated
  /-- A first symbol that the source assigns to nothing (30_encoding.md R117). -/
  | unassigned (first : Symbol)
  /-- A long instruction with `L` other than 1, reserved for extenders (30_encoding.md R118). -/
  | longLength (l : Nat)
  /-- A 32-bit format with `E` other than 0, reserved for extenders (30_encoding.md R118). -/
  | longExtension (e : Nat)
  /-- A 32-bit format with `F` of 4 to 15, unassigned (30_encoding.md R117). -/
  | longOperation (f : Nat)
deriving DecidableEq, Repr

/-- How many symbols follow the first: `L` when the top nibble is 1111, else none
(30_encoding.md R101). -/
def symbolsToFollow (s : Symbol) : Nat := if bits s 15 12 = 15 then bits s 11 8 else 0

/-- Format A: the right operand (30_encoding.md R106). -/
def decodeOperand (s : Symbol) : Operand :=
  if flagBit s 11 then .imm (bits s 7 4) else .reg (regField s 4)

/-- Format A: the operation (42_arithmetic.md R150). -/
def decodeArithmetic (s : Symbol) : Instr :=
  match bits s 10 8 with
  | 0 => .add (decodeOperand s) (regField s 0)
  | 1 => .sub (decodeOperand s) (regField s 0)
  | 2 => .shl (decodeOperand s) (regField s 0)
  | 3 => .shr (decodeOperand s) (regField s 0)
  | 4 => .asr (decodeOperand s) (regField s 0)
  | 5 => .rol (decodeOperand s) (regField s 0)
  | 6 => .ror (decodeOperand s) (regField s 0)
  | _ => .neg (decodeOperand s) (regField s 0)

/-- The mode with number `m` (48_immediate_and_data_transfer.md R231). -/
def decodeMode (m : Nat) : XfMode :=
  match m with
  | 0 => .plain
  | 1 => .autoIncrement
  | 2 => .autoDecrement
  | _ => .autoPostDecrement

/-- Format M: the operation (30_encoding.md R113). -/
def decodeMisc (s : Symbol) : Instr :=
  match bits s 10 8 with
  | 0 => .swap (regField s 4) (regField s 0)
  | 1 => .mul (regField s 4) (regField s 0)
  | 2 => .div (regField s 4) (regField s 0)
  | 3 => .mod (regField s 4) (regField s 0)
  | 4 => .loadReg (regField s 4) (regField s 0)
  | 5 => .storeReg (regField s 4) (regField s 0)
  | 6 => .loopI (regField s 4) (regField s 0)
  | _ => .loop (signedField 4 (bits s 7 4)) (regField s 0)

/-- Format R: the offset (30_encoding.md R114). -/
def decodeBranchOffset (s : Symbol) : BranchOffset :=
  if flagBit s 8 then .imm (signedField 4 (bits s 7 4)) else .reg (regField s 4)

/-- Format R: the operation, from `G` and `Iv` (44_jumps_and_branches.md R181). -/
def decodeBranch (s : Symbol) : Instr :=
  match bits s 10 9 with
  | 0 => .bz (decodeBranchOffset s) (regField s 0)
  | 1 => .bnz (decodeBranchOffset s) (regField s 0)
  | 2 => .bgtz (decodeBranchOffset s) (regField s 0)
  | _ => .blez (decodeBranchOffset s) (regField s 0)

/-- Format W: `B` = 0 stands for 8 bytes (46_subword.md R210). -/
def decodeCount (b : Nat) : Nat := if b = 0 then 8 else b

/-- One-symbol instructions, by the top nibble (30_encoding.md R102, R103). -/
def decodeShort (s : Symbol) : Except DecodeError Instr :=
  match bits s 15 12 with
  | 0 =>
    if s.toNat = 0 then .ok .deg
    else if s.toNat = 1 then .ok .eret
    else .error (.unassigned s)
  | 1 => .ok (.bit (BitVec.ofNat 4 (bits s 11 8)) (regField s 4) (regField s 0))
  | 2 => .ok (decodeArithmetic s)
  | 3 => .ok (.cmp ⟨flagBit s 11, flagBit s 10, flagBit s 9, flagBit s 8⟩ (regField s 4) (regField s 0))
  | 8 => .ok (.jc (regField s 8) (signedField 8 (bits s 7 0)))
  | 9 => .ok (.subw (flagBit s 11) (decodeCount (bits s 10 8)) (bits s 7 4) (regField s 0))
  | 10 => .ok (.rsr (regField s 8) (bits s 7 0))
  | 11 => .ok (.wsr (regField s 8) (bits s 7 0))
  | 12 => .ok (.si (bits s 11 4) (regField s 0))
  | 13 => .error (.unassigned s)
  | 14 => if flagBit s 11 then .ok (decodeBranch s) else .ok (decodeMisc s)
  | 15 => .error (.longLength (bits s 11 8))
  | _ => .ok (.xf ⟨flagBit s 13, decodeMode (bits s 12 11), regField s 4⟩
                  ⟨flagBit s 10, decodeMode (bits s 9 8), regField s 0⟩)

/-- The 32-bit format, from its two symbols (30_encoding.md R115, 49_long_instructions.md R254). -/
def decodeLong (s0 s1 : Symbol) : Except DecodeError Instr :=
  if bits s1 15 12 ≠ 0 then .error (.longExtension (bits s1 15 12))
  else
    match bits s1 11 8 with
    | 0 => .ok (.multiply (regField s0 4) (regField s0 0) (regField s1 4) (regField s1 0))
    | 1 => .ok (.divMod (regField s0 4) (regField s0 0) (regField s1 4) (regField s1 0))
    | 2 => .ok (.loadOff (regField s0 4) (regField s0 0) (signedField 8 (bits s1 7 0)))
    | 3 => .ok (.storeOff (regField s0 4) (regField s0 0) (signedField 8 (bits s1 7 0)))
    | f => .error (.longOperation f)

/-- The instruction at the head of a list of symbols, and the symbols after it. -/
def decode : List Symbol → Except DecodeError (Instr × List Symbol)
  | [] => .error .truncated
  | s0 :: rest =>
    if bits s0 15 12 = 15 then
      if bits s0 11 8 = 1 then
        match rest with
        | [] => .error .truncated
        | s1 :: rest' => (decodeLong s0 s1).map (·, rest')
      else .error (.longLength (bits s0 11 8))
    else (decodeShort s0).map (·, rest)

/-- The symbols held by octets from the lowest address upwards (20_memory.md R74). -/
def symbolsOf (o : ByteOrder) : List Byte → List Symbol
  | b0 :: b1 :: rest => BitVec.ofNat 16 (o.value [b0, b1]) :: symbolsOf o rest
  | _ => []

/-- The octets of symbols, from the lowest address upwards (20_memory.md R74). -/
def octetsOf (o : ByteOrder) (ss : List Symbol) : List Byte :=
  ss.flatMap fun s => o.octets ist s.toNat

/-- The decoder on octets, total on any bytes. -/
def decodeOctets (o : ByteOrder) (bs : List Byte) : Except DecodeError (Instr × List Symbol) :=
  decode (symbolsOf o bs)

/-! ### The encoder -/

/-- The symbol with value `v`. -/
def symbol (v : Nat) : Symbol := BitVec.ofNat 16 v

/-- A flag's bit value. -/
def bitOf (b : Bool) : Nat := if b then 1 else 0

/-- The `k`-bit two's-complement field of `v` (00_scope.md R10). -/
def signedBits (k : Nat) (v : Int) : Nat := (v % 2 ^ k).toNat

/-- Format A: `0x2000 | Si<<11 | M<<8 | I[7:4]<<4 | d` (42_arithmetic.md R150). -/
def encodeArithmetic (m : Nat) (s : Operand) (d : Reg) : List Symbol :=
  match s with
  | .reg r => [symbol (0x2000 + m * 256 + r.val * 16 + d.val)]
  | .imm v => [symbol (0x2800 + m * 256 + v * 16 + d.val)]

/-- Format M: `0xE000 | M<<8 | b<<4 | a` (45_misc_two_register.md). -/
def encodeMisc (m b : Nat) (a : Reg) : List Symbol := [symbol (0xE000 + m * 256 + b * 16 + a.val)]

/-- Format R: `0xE800 | G<<10 | Iv<<9 | Sim<<8 | I[7:4]<<4 | v` (44_jumps_and_branches.md R181);
`m` is the pair `G`, `Iv`. -/
def encodeBranch (m : Nat) (c : BranchOffset) (v : Reg) : List Symbol :=
  match c with
  | .reg r => [symbol (0xE800 + m * 512 + r.val * 16 + v.val)]
  | .imm k => [symbol (0xE900 + m * 512 + signedBits 4 k * 16 + v.val)]

/-- The number of a mode (48_immediate_and_data_transfer.md R231). -/
def modeBits : XfMode → Nat
  | .plain => 0
  | .autoIncrement => 1
  | .autoDecrement => 2
  | .autoPostDecrement => 3

/-- Format L: `0xF100 | a<<4 | b`, then `F<<8 | low` (49_long_instructions.md). -/
def encodeLong (f : Nat) (a b : Reg) (low : Nat) : List Symbol :=
  [symbol (0xF100 + a.val * 16 + b.val), symbol (f * 256 + low)]

/-- The symbols of an instruction, the first at the lowest address (30_encoding.md R104 to R115). -/
def encode : Instr → List Symbol
  | .deg => [symbol 0x0000]
  | .eret => [symbol 0x0001]
  | .bit m s d => [symbol (0x1000 + m.toNat * 256 + s.val * 16 + d.val)]
  | .add s d => encodeArithmetic 0 s d
  | .sub s d => encodeArithmetic 1 s d
  | .shl s d => encodeArithmetic 2 s d
  | .shr s d => encodeArithmetic 3 s d
  | .asr s d => encodeArithmetic 4 s d
  | .rol s d => encodeArithmetic 5 s d
  | .ror s d => encodeArithmetic 6 s d
  | .neg s d => encodeArithmetic 7 s d
  | .cmp f s d =>
    [symbol (0x3000 + bitOf f.invert * 2048 + bitOf f.signed * 1024 + bitOf f.greater * 512
      + bitOf f.equal * 256 + s.val * 16 + d.val)]
  | .xf src dst =>
    [symbol (0x4000 + bitOf src.indirect * 8192 + modeBits src.mode * 2048
      + bitOf dst.indirect * 1024 + modeBits dst.mode * 256 + src.reg.val * 16 + dst.reg.val)]
  | .jc c off => [symbol (0x8000 + c.val * 256 + signedBits 8 off)]
  | .subw sx count index d =>
    [symbol (0x9000 + bitOf sx * 2048 + count % 8 * 256 + index * 16 + d.val)]
  | .rsr r n => [symbol (0xA000 + r.val * 256 + n)]
  | .wsr r n => [symbol (0xB000 + r.val * 256 + n)]
  | .si v d => [symbol (0xC000 + v * 16 + d.val)]
  | .swap b a => encodeMisc 0 b.val a
  | .mul b a => encodeMisc 1 b.val a
  | .div b a => encodeMisc 2 b.val a
  | .mod b a => encodeMisc 3 b.val a
  | .loadReg b a => encodeMisc 4 b.val a
  | .storeReg b a => encodeMisc 5 b.val a
  | .loopI b a => encodeMisc 6 b.val a
  | .loop off a => encodeMisc 7 (signedBits 4 off) a
  | .bz c v => encodeBranch 0 c v
  | .bnz c v => encodeBranch 1 c v
  | .bgtz c v => encodeBranch 2 c v
  | .blez c v => encodeBranch 3 c v
  | .multiply a b h lo => encodeLong 0 a b (h.val * 16 + lo.val)
  | .divMod a b h lo => encodeLong 1 a b (h.val * 16 + lo.val)
  | .loadOff a b off => encodeLong 2 a b (signedBits 8 off)
  | .storeOff a b off => encodeLong 3 a b (signedBits 8 off)

/-! ### The table's numbering -/

/-- The number of symbols of the longest instruction, a long one with `L` = 15
(30_encoding.md R100). -/
abbrev longestSymbols : Nat := 16

/-- The first `k` symbols of the number `w`, the FIRST symbol in its most significant 16 bits, as
spec/opcode_table.json numbers a 32-bit row (30_encoding.md R121; log 17). -/
def tableSymbols : Nat → Nat → List Symbol
  | 0, _ => []
  | k + 1, w => symbol (w / 65536 ^ k) :: tableSymbols k w

/-- The symbols of a table word of `nbits` bits, followed by zero symbols up to the longest
instruction. -/
def paddedSymbols (nbits w : Nat) : List Symbol :=
  tableSymbols (nbits / 16) w ++ List.replicate (longestSymbols - nbits / 16) 0

/-- The instruction the decoder reads from the table word `w` of `nbits` bits, laid out in memory
octet by octet in the default byte order (30_encoding.md R121; log 17). -/
def decodeTableWord (nbits w : Nat) : Option Instr :=
  match decodeOctets .big (octetsOf .big (paddedSymbols nbits w)) with
  | .ok (i, _) => some i
  | .error _ => none

end Sys2Proof
end

