-- ==== Sys2Proof/Machine/Alu.lean ====
section
/-! DEFINITION. The values the register instructions compute (41_bitwise.md, 42_arithmetic.md,
45_misc_two_register.md, 46_subword.md, 49_long_instructions.md). -/

namespace Sys2Proof.Machine

/-- The truth-table function `m` on two words: bit `i` of the result is bit `2 * d[i] + s[i]` of
`m` (41_bitwise.md R140). -/
def tableFunction {w : Nat} (m : BitVec 4) (d s : BitVec w) : BitVec w :=
  (if m.getLsbD 3 then d &&& s else 0) ||| (if m.getLsbD 2 then d &&& ~~~s else 0)
    ||| (if m.getLsbD 1 then ~~~d &&& s else 0) ||| (if m.getLsbD 0 then ~~~d &&& ~~~s else 0)

/-- Shift left by the whole unsigned amount; `W` or more gives 0 (42_arithmetic.md R153). -/
def shiftLeft {w : Nat} (a b : BitVec w) : BitVec w :=
  if w ≤ b.toNat then 0 else a <<< b.toNat

/-- Shift right, zeros entering; `W` or more gives 0 (42_arithmetic.md R154). -/
def shiftRight {w : Nat} (a b : BitVec w) : BitVec w :=
  if w ≤ b.toNat then 0 else a >>> b.toNat

/-- Shift right, copies of the sign entering; `W` or more is as `W - 1` (42_arithmetic.md R155). -/
def shiftRightSigned {w : Nat} (a b : BitVec w) : BitVec w :=
  a.sshiftRight (min b.toNat (w - 1))

/-- Rotate left by the amount modulo `W` (42_arithmetic.md R156). -/
def rotateLeft {w : Nat} (a b : BitVec w) : BitVec w :=
  if b.toNat % w = 0 then a else a <<< (b.toNat % w) ||| a >>> (w - b.toNat % w)

/-- Rotate right by the amount modulo `W` (42_arithmetic.md R157). -/
def rotateRight {w : Nat} (a b : BitVec w) : BitVec w :=
  if b.toNat % w = 0 then a else a >>> (b.toNat % w) ||| a <<< (w - b.toNat % w)

/-- The selected subword: `count` bytes from byte `index`, positions beyond the register being 0
(46_subword.md R210). -/
def selectBytes {w : Nat} (v : BitVec w) (count index : Nat) : BitVec (8 * count) :=
  (v >>> (8 * index)).setWidth (8 * count)

/-- Subword: the selected bytes, zero- or sign-extended from their highest bit
(46_subword.md R210). -/
def subword {w : Nat} (sx : Bool) (count index : Nat) (v : BitVec w) : BitVec w :=
  if sx then (selectBytes v count index).signExtend w else (selectBytes v count index).setWidth w

/-- An operand as an integer, as `MULDIV_SIGNED` says (45_misc_two_register.md R192). -/
def operandInt {w : Nat} (signed : Bool) (v : BitVec w) : Int := if signed then v.toInt else v.toNat

/-- The integer quotient, rounded toward zero (45_misc_two_register.md R192). -/
def quotient (n m : Int) : Int := n.tdiv m

/-- The remainder that goes with `quotient`; it has the dividend's sign
(45_misc_two_register.md R193). -/
def remainder (n m : Int) : Int := n - quotient n m * m

/-- Signed most negative by -1 (45_misc_two_register.md R192). -/
def divideOverflows {w : Nat} (signed : Bool) (n m : BitVec w) : Bool :=
  signed && n.toInt == -2 ^ (w - 1) && m.toInt == -1

/-- Whether an integer is a word's value, signed or unsigned (49_long_instructions.md R251). -/
def fitsWord (w : Nat) (signed : Bool) (q : Int) : Bool :=
  if signed then -2 ^ (w - 1) ≤ q && q ≤ 2 ^ (w - 1) - 1 else q < 2 ^ w

/-- The double-width product (49_long_instructions.md R250). -/
def product {w : Nat} (signed : Bool) (a b : BitVec w) : BitVec (w + w) :=
  BitVec.ofInt _ (operandInt signed a * operandInt signed b)

end Sys2Proof.Machine
end

