-- ==== Sys2Proof/Machine/State.lean ====
section
/-! DEFINITION. The state of the machine, why a step can stop, and the state after reset
(10_state.md, 60_exceptions.md, 70_reset_and_hazards.md). -/

namespace Sys2Proof.Machine

/-- The registered causes and their names (60_exceptions.md R270; 10_state.md R43). -/
inductive Cause where
  /-- Code 0: a divisor register holds 0 (R271). -/
  | divideByZero
  /-- Code 1: DEG, or an encoding the hardware does not implement (R272). -/
  | illegalInstruction
  /-- Code 2: named by the source, raised by nothing (R273). -/
  | supervisorRequest
deriving DecidableEq, Repr

/-- The machine stops with a fault: reading what is not there. Every one is safe: the model stops
where some hardware may go on. -/
inductive Fault where
  /-- An access to an octet of memory that nothing has written (93_implementation_defined.md U22):
  raised by an instruction fetch, XF and LOADOFF. Safe. -/
  | unwrittenMemory (address : Nat)
  /-- An access to an address where `MEM_MAP` has nothing (20_memory.md R80; U27): raised by an
  instruction fetch, XF, LOADOFF and STOREOFF. Safe. -/
  | unmappedAddress (address : Nat)
deriving DecidableEq, Repr

/-- The spec gives the situation no meaning (00_scope.md R10 `refuse`), or the instruction is not
modelled. Every one is safe: no claim about what happens next can be proved. -/
inductive Refusal where
  /-- Raised by `exec` alone, for an instruction without a meaning in this model. Safe. -/
  | notModelled (mnemonic : String)
  /-- A data access at an address that is no multiple of the word's octets (20_memory.md R75):
  raised by XF, LOADOFF and STOREOFF. Safe. -/
  | misalignedAccess (address : Nat)
  /-- A symbol fetch at an odd address (20_memory.md R76): raised by the instruction fetch. Safe. -/
  | misalignedFetch (address : Nat)
  /-- A store to an address that holds ROM, an effect the spec does not describe
  (20_memory.md R80; log 13): raised by XF and STOREOFF. Safe. -/
  | storeToRom (address : Nat)
  /-- A register index above 15 (45_misc_two_register.md R194, R195; U7): raised by LOADREG and
  STOREREG. Safe. -/
  | registerIndex (index : Nat)
  /-- The most negative value by -1, signed (45_misc_two_register.md R192, R193; U6): raised by
  DIV and MOD. Safe. -/
  | divideOverflow
  /-- A quotient that does not fit the word (49_long_instructions.md R251; U8): raised by DIVMOD.
  Safe. -/
  | quotientOverflow
  /-- Two results to one register (49_long_instructions.md R256; U9): raised by MULTIPLY and DIVMOD.
  Safe. -/
  | twoResultsOneRegister (r : Reg)
  /-- A read of a write-only System Register (10_state.md R32; U12): raised by RSR. Safe. -/
  | readOfWriteOnly (n : Nat)
  /-- A write of a read-only System Register (10_state.md R32; U12): raised by WSR. Safe. -/
  | writeOfReadOnly (n : Nat)
  /-- A System Register that is not defined or is reserved for extenders (10_state.md R32, R33;
  U13): raised by RSR and WSR. Safe. -/
  | undefinedSystemRegister (n : Nat)
  /-- A write to SR 3 with a reserved bit set (10_state.md R37; U14): raised by WSR. Safe. -/
  | powerStateReserved
deriving DecidableEq, Repr

/-- Memory: the octets something has written, as pairs of address and octet, addresses strictly
rising (20_memory.md R70). An address that is not listed has no value (log 5). -/
abbrev Memory := List Host.Cell

/-- The canonical form: addresses strictly rising. No entry can equal what an unlisted address
reads as, since that is no value. -/
abbrev Memory.wf (m : Memory) : Prop := m.Pairwise fun p q => p.1 < q.1

/-- An output event: one word stored at an address that a device answers (20_memory.md R79). -/
structure DeviceStore (n : Nat) where
  address : Word n
  value : Word n
deriving DecidableEq, Repr

/-- The architectural state of a machine whose word has `n` octets. -/
structure Arch (n : Nat) where
  /-- R0 to R15; `gpr[0]` is the PC, and holds the next-instruction address while an instruction
  executes (10_state.md R20, R24, R25). -/
  gpr : Vector (Word n) 16
  /-- SR 2, Exception Handling Routine (10_state.md R36). -/
  handler : Word n
  /-- SR 4, Instructions Retired (10_state.md R38). -/
  retired : Word n
  /-- SR 5, Cycles Elapsed, as last set; what a read returns is free (10_state.md R39; log 9). -/
  cycles : Word n
  /-- SR 8, Exception Continuation (10_state.md R42). -/
  continuation : Word n
  /-- SR 9, Exception Cause (10_state.md R43). -/
  cause : Word n
  /-- SR 11 bit 0, External exceptions enabled (10_state.md R45). -/
  extEn : Bool
  /-- SR 11 bit 1, Registered exception (10_state.md R45). -/
  regExc : Bool
  /-- `IE`, SR 63 bit 0, Exceptions Enabled (10_state.md R46). -/
  ie : Bool
  /-- Set by a write of 1 to SR 3; final until reset (10_state.md R37, R47). -/
  halted : Bool
  /-- The debug output stream, oldest byte first (10_state.md R49). -/
  debugOut : List Byte
  /-- The stores to device addresses so far, oldest first (20_memory.md R79). -/
  deviceOut : List (DeviceStore n)
  /-- INPUT: for each coming boundary, the device addresses whose exception pin is asserted; none
  once the list is used up (10_state.md R48; log 7). -/
  pins : List (List (Word n))
  /-- The MODEL's own: how many free values have been drawn (log 10). -/
  draws : Nat
  /-- Memory (10_state.md R50). -/
  mem : Memory
deriving DecidableEq, Repr

/-- A machine: its parameters, which no step changes, and its architectural state (log 1). -/
structure State where
  cfg : Config
  arch : Arch cfg.wb
deriving DecidableEq, Repr

/-- The architectural state right after reset, for a given implementation (10_state.md R53;
70_reset_and_hazards.md R310, R311). The general registers, SR 2, SR 8 and SR 9 have no reset value
in the spec: 0, DESIGN CHOICE, log 4. -/
def Arch.resetOf (c : Config) : Arch c.wb where
  gpr := (Vector.replicate 16 0).set 0 (BitVec.ofNat _ c.resetPc)
  handler := 0
  retired := 0
  cycles := 0
  continuation := 0
  cause := 0
  extEn := c.resetExtEn
  regExc := c.resetRegExc
  ie := c.resetIe
  halted := false
  debugOut := []
  deviceOut := []
  pins := []
  draws := 0
  mem := []

/-- The machine right after reset, for a given implementation. -/
def State.resetOf (c : Config) : State := ⟨c, Arch.resetOf c⟩

/-- The machine right after reset, in the configuration of the spec's test vectors (log 2). -/
def State.reset : State := State.resetOf Config.base

end Sys2Proof.Machine
end

