-- ==== Sys2Proof/Machine/Ops.lean ====
section
/-! DEFINITION. The named operations over registers, memory and the exception machinery that every
instruction is written in. -/

namespace Sys2Proof.Machine

/-- Why an operation gives no result: one of the model's stops. -/
inductive Stop where
  | fault (f : Fault)
  | refuse (r : Refusal)
deriving DecidableEq, Repr

/-- What the execute phase of an instruction comes to (60_exceptions.md R274; 10_state.md R27). -/
inductive Effect (n : Nat) where
  /-- It completes with this state, and retires. -/
  | done (a : Arch n)
  /-- It raises a registered exception, and changes nothing itself (60_exceptions.md R277). -/
  | raises (c : Cause)
  /-- The spec gives the situation no meaning. -/
  | stops (e : Stop)
deriving DecidableEq, Repr

/-- An operation that either stops or completes the instruction. -/
def Effect.ofExcept {n : Nat} : Except Stop (Arch n) → Effect n
  | .ok a => .done a
  | .error e => .stops e

/-! ### Registers -/

/-- Read of general-purpose register `r` (00_scope.md R10 `x[i]`). No register is hardwired
(10_state.md R21). -/
def Arch.readReg {n : Nat} (a : Arch n) (r : Reg) : Word n := a.gpr[r.val]

/-- Write of general-purpose register `r`; a write to register 0 is a jump (10_state.md R26). -/
def Arch.writeReg {n : Nat} (a : Arch n) (r : Reg) (v : Word n) : Arch n :=
  { a with gpr := a.gpr.set r.val v }

/-- The program counter, register 0 (10_state.md R24). -/
def Arch.pc {n : Nat} (a : Arch n) : Word n := a.readReg 0

/-- A jump: the next instruction is fetched from `t` (10_state.md R26). -/
def Arch.jump {n : Nat} (a : Arch n) (t : Word n) : Arch n := a.writeReg 0 t

/-! ### Retirement and exceptions -/

/-- Retirement: SR 4 counts the instruction, last of all its effects (10_state.md R27). -/
def Arch.retire {n : Nat} (a : Arch n) : Arch n := { a with retired := a.retired + 1 }

/-- The code of a registered cause (10_state.md R43). -/
def Cause.code : Cause → Nat
  | .divideByZero => 0
  | .illegalInstruction => 1
  | .supervisorRequest => 2

/-- The entry sequence, one indivisible step: SR 8 gets the next PC, SR 9 the cause, SR 11 bit 1
whether the cause is registered; `IE` is cleared and the PC goes to SR 2
(60_exceptions.md R275, R276). -/
def Arch.enter {n : Nat} (a : Arch n) (registered : Bool) (cause : Word n) : Arch n :=
  { a.jump a.handler with
    continuation := a.pc
    cause := cause
    regExc := registered
    ie := false }

/-- `raise E(c)`: entry when exceptions are enabled; else the instruction is abandoned without
effect and retires (60_exceptions.md R274). -/
def Arch.raise {n : Nat} (a : Arch n) (c : Cause) : Arch n :=
  if a.ie then a.enter true (BitVec.ofNat _ c.code) else a.retire

/-- Exception Return's two actions (60_exceptions.md R284; 40_exception_instructions.md R131). -/
def Arch.exceptionReturn {n : Nat} (a : Arch n) : Arch n :=
  { a.jump a.continuation with ie := true }

/-- The outcome of a step whose execute phase, begun in `s`, comes to `e` (10_state.md R27,
60_exceptions.md R274). -/
def State.conclude (s : State) (e : Effect s.cfg.wb) : Host.Outcome State Fault Refusal :=
  match e with
  | .done a => .next { s with arch := a.retire }
  | .raises c => .next { s with arch := s.arch.raise c }
  | .stops (.fault f) => .fault f
  | .stops (.refuse r) => .refused r

/-- The outcome of an instruction that always completes. -/
def State.complete (s : State) (a : Arch s.cfg.wb) : Host.Outcome State Fault Refusal :=
  s.conclude (.done a)

/-! ### Memory -/

/-- The octet at an address, if something has written it. -/
def Memory.read (m : Memory) (x : Nat) : Option Byte :=
  match m with
  | [] => none
  | (k, v) :: rest => if x = k then some v else Memory.read rest x

/-- Write of one octet; the canonical form is kept. -/
def Memory.write (m : Memory) (x : Nat) (b : Byte) : Memory :=
  match m with
  | [] => [(x, b)]
  | (k, v) :: rest =>
    if x < k then (x, b) :: (k, v) :: rest
    else if x = k then (x, b) :: rest
    else (k, v) :: Memory.write rest x b

/-- What an address holds, by `MEM_MAP`; `none` when it holds nothing (20_memory.md R80). -/
def regionKind (map : List Region) (x : Nat) : Option RegionKind :=
  match map with
  | [] => none
  | r :: rest => if r.base ≤ x ∧ x < r.base + r.size then some r.kind else regionKind rest x

/-- The address of octet `k` of an access at `a`, modulo 2^`W` (20_memory.md R73). -/
def octetAddress {n : Nat} (a : Word n) (k : Nat) : Nat := (a + BitVec.ofNat _ k).toNat

/-- One octet of a read: from memory, or a free value where a device answers
(20_memory.md R79, R80; log 5, log 12). -/
def Arch.readOctet {n : Nat} (a : Arch n) (c : Config) (addr : Word n) (k : Nat) : Except Stop Byte :=
  match regionKind c.memMap (octetAddress addr k) with
  | none => .error (.fault (.unmappedAddress (octetAddress addr k)))
  | some .device => .ok (Config.freeOctet a.draws k)
  | some _ =>
    match a.mem.read (octetAddress addr k) with
    | none => .error (.fault (.unwrittenMemory (octetAddress addr k)))
    | some b => .ok b

/-- The octets `k`, `k + 1`, … of a read at `addr`, `count` of them, from the lowest address. -/
def Arch.readOctets {n : Nat} (a : Arch n) (c : Config) (addr : Word n) (k : Nat) :
    Nat → Except Stop (List Byte)
  | 0 => .ok []
  | count + 1 =>
    match a.readOctet c addr k with
    | .error e => .error e
    | .ok b =>
      match a.readOctets c addr (k + 1) count with
      | .error e => .error e
      | .ok bs => .ok (b :: bs)

/-- Whether some octet of an access of `count` octets at `addr` is a device's. -/
def touchesDevice {n : Nat} (c : Config) (addr : Word n) (count : Nat) : Bool :=
  (List.range count).any fun k => regionKind c.memMap (octetAddress addr k) == some .device

/-- Counts the draw of an access that a device answers, so that the next one is free again. -/
def Arch.drawIf {n : Nat} (a : Arch n) (drawn : Bool) : Arch n :=
  if drawn then { a with draws := a.draws + 1 } else a

/-- `MemRead(addr, count)` as a number, and the state after it (20_memory.md R73). -/
def Arch.memRead {n : Nat} (a : Arch n) (c : Config) (addr : Word n) (count : Nat) :
    Except Stop (Nat × Arch n) :=
  match a.readOctets c addr 0 count with
  | .error e => .error e
  | .ok bs => .ok (c.byteOrder.value bs, a.drawIf (touchesDevice c addr count))

/-- Stores octets at `addr + k`, `addr + k + 1`, …: in memory, or nowhere where a device answers
(20_memory.md R79, R80; log 12, log 13). -/
def storeOctets {n : Nat} (c : Config) (addr : Word n) (k : Nat) (bs : List Byte) (m : Memory) :
    Except Stop Memory :=
  match bs with
  | [] => .ok m
  | b :: rest =>
    match regionKind c.memMap (octetAddress addr k) with
    | none => .error (.fault (.unmappedAddress (octetAddress addr k)))
    | some .rom => .error (.refuse (.storeToRom (octetAddress addr k)))
    | some .device => storeOctets c addr (k + 1) rest m
    | some .ram => storeOctets c addr (k + 1) rest (m.write (octetAddress addr k) b)

/-- A word access must be at a multiple of the word's octets (20_memory.md R75). -/
def wordAligned {n : Nat} (addr : Word n) : Bool := addr.toNat % n == 0

/-- A load of one word (20_memory.md R71, R73, R75). -/
def Arch.loadWord {n : Nat} (a : Arch n) (c : Config) (addr : Word n) : Except Stop (Word n × Arch n) :=
  if wordAligned addr then
    match a.memRead c addr n with
    | .error e => .error e
    | .ok (v, a') => .ok (BitVec.ofNat _ v, a')
  else .error (.refuse (.misalignedAccess addr.toNat))

/-- Records a store that a device answers as an output event (20_memory.md R79). -/
def Arch.emitIf {n : Nat} (a : Arch n) (answered : Bool) (addr v : Word n) : Arch n :=
  if answered then { a with deviceOut := a.deviceOut ++ [⟨addr, v⟩] } else a

/-- A store of one word (20_memory.md R71, R73, R75). -/
def Arch.storeWord {n : Nat} (a : Arch n) (c : Config) (addr v : Word n) : Except Stop (Arch n) :=
  if wordAligned addr then
    match storeOctets c addr 0 (c.byteOrder.octets n v.toNat) a.mem with
    | .error e => .error e
    | .ok m => .ok ({ a with mem := m }.emitIf (touchesDevice c addr n) addr v)
  else .error (.refuse (.misalignedAccess addr.toNat))

end Sys2Proof.Machine
end

