-- ==== Sys2Proof/Machine/Operands.lean ====
section
/-! DEFINITION. Every operand form: the right operand of the arithmetic instructions, the branch
offsets, the address offsets and the Data Transfer operands (30_encoding.md R116). -/

namespace Sys2Proof.Machine

/-- The right operand "S" of an arithmetic instruction: a register's value or the zero-extended
literal (42_arithmetic.md R150). -/
def Arch.rightOperand {n : Nat} (a : Arch n) (s : Operand) : Word n :=
  match s with
  | .reg r => a.readReg r
  | .imm v => BitVec.ofNat _ v

/-- A signed count of symbols in addressable units (30_encoding.md R116). -/
def symbolOffset (n : Nat) (k : Int) : Word n := BitVec.ofInt _ (k * ist)

/-- The amount a short-range branch adds to the PC: a register's value, in addressable units, or a
signed count of symbols (44_jumps_and_branches.md R181). -/
def Arch.branchAmount {n : Nat} (a : Arch n) (c : BranchOffset) : Word n :=
  match c with
  | .reg r => a.readReg r
  | .imm k => symbolOffset n k

/-- `PC += off`, from the next-instruction address (44_jumps_and_branches.md R180, R181). -/
def Arch.jumpBy {n : Nat} (a : Arch n) (off : Word n) : Arch n := a.jump (a.pc + off)

/-- The effective address of LOADOFF and STOREOFF: the base register and an offset in addressable
units, modulo 2^`W` (49_long_instructions.md R252, R253). -/
def Arch.offsetAddress {n : Nat} (a : Arch n) (b : Reg) (off : Int) : Word n :=
  a.readReg b + BitVec.ofInt _ off

/-- The change of a Data Transfer register before its own access
(48_immediate_and_data_transfer.md R231). -/
def Arch.stepBefore {n : Nat} (a : Arch n) (o : XfOperand) : Arch n :=
  match o.mode with
  | .autoDecrement => a.writeReg o.reg (a.readReg o.reg - BitVec.ofNat _ n)
  | .plain => a
  | .autoIncrement => a
  | .autoPostDecrement => a

/-- The change of a Data Transfer register after its own access
(48_immediate_and_data_transfer.md R231). -/
def Arch.stepAfter {n : Nat} (a : Arch n) (o : XfOperand) : Arch n :=
  match o.mode with
  | .autoIncrement => a.writeReg o.reg (a.readReg o.reg + BitVec.ofNat _ n)
  | .autoPostDecrement => a.writeReg o.reg (a.readReg o.reg - BitVec.ofNat _ n)
  | .plain => a
  | .autoDecrement => a

/-- The source side of Data Transfer: "a load from `S`", direct or indirect, with its mode
(48_immediate_and_data_transfer.md R231). -/
def Arch.xfSource {n : Nat} (a : Arch n) (c : Config) (o : XfOperand) : Except Stop (Word n × Arch n) :=
  if o.indirect then
    match (a.stepBefore o).loadWord c ((a.stepBefore o).readReg o.reg) with
    | .error e => .error e
    | .ok (v, a') => .ok (v, a'.stepAfter o)
  else .ok ((a.stepBefore o).readReg o.reg, (a.stepBefore o).stepAfter o)

/-- The destination side of Data Transfer: "a store to `D`", direct or indirect, with its mode
(48_immediate_and_data_transfer.md R231). -/
def Arch.xfDestination {n : Nat} (a : Arch n) (c : Config) (o : XfOperand) (v : Word n) :
    Except Stop (Arch n) :=
  if o.indirect then
    match (a.stepBefore o).storeWord c ((a.stepBefore o).readReg o.reg) v with
    | .error e => .error e
    | .ok a' => .ok (a'.stepAfter o)
  else .ok (((a.stepBefore o).writeReg o.reg v).stepAfter o)

end Sys2Proof.Machine
end

