-- ==== Sys2Proof/Machine/Arithmetic.lean ====
section
/-! DEFINITION. The eight arithmetic instructions (42_arithmetic.md R150 to R159). -/

namespace Sys2Proof.Machine

/-- The common part: `D` gets a function of the old `D` and the right operand (R150). -/
def arithmetic (f : {w : Nat} → BitVec w → BitVec w → BitVec w) (src : Operand) (d : Reg) (s : State) :
    Host.Outcome State Fault Refusal :=
  s.complete (s.arch.writeReg d (f (s.arch.readReg d) (s.arch.rightOperand src)))

/-- ADD: modulo 2^`W` (R151). -/
def execAdd (src : Operand) (d : Reg) (s : State) : Host.Outcome State Fault Refusal :=
  arithmetic (fun a b => a + b) src d s

/-- SUB: modulo 2^`W` (R152). -/
def execSub (src : Operand) (d : Reg) (s : State) : Host.Outcome State Fault Refusal :=
  arithmetic (fun a b => a - b) src d s

/-- SHL (R153). -/
def execShl (src : Operand) (d : Reg) (s : State) : Host.Outcome State Fault Refusal :=
  arithmetic shiftLeft src d s

/-- SHR (R154). -/
def execShr (src : Operand) (d : Reg) (s : State) : Host.Outcome State Fault Refusal :=
  arithmetic shiftRight src d s

/-- ASR (R155). -/
def execAsr (src : Operand) (d : Reg) (s : State) : Host.Outcome State Fault Refusal :=
  arithmetic shiftRightSigned src d s

/-- ROL (R156). -/
def execRol (src : Operand) (d : Reg) (s : State) : Host.Outcome State Fault Refusal :=
  arithmetic rotateLeft src d s

/-- ROR (R157). -/
def execRor (src : Operand) (d : Reg) (s : State) : Host.Outcome State Fault Refusal :=
  arithmetic rotateRight src d s

/-- NEG: the two's-complement negation of the right operand; the old `D` is not used (R158). -/
def execNeg (src : Operand) (d : Reg) (s : State) : Host.Outcome State Fault Refusal :=
  arithmetic (fun _ b => -b) src d s

end Sys2Proof.Machine
end

