-- ==== Sys2Proof/Machine/Bitwise.lean ====
section
/-! DEFINITION. BIT (41_bitwise.md). -/

namespace Sys2Proof.Machine

/-- BIT: the truth-table function `m` of the destination and the source (R140, R141). -/
def execBit (m : BitVec 4) (sr d : Reg) (s : State) : Host.Outcome State Fault Refusal :=
  s.complete (s.arch.writeReg d (tableFunction m (s.arch.readReg d) (s.arch.readReg sr)))

end Sys2Proof.Machine
end

