-- ==== Sys2Proof/Machine/Flags.lean ====
section
/-! DEFINITION. The tests an instruction's outcome depends on. The hardware has no flag register
(10_state.md R29): a comparison leaves its truth value in a register, and a branch tests a register
against zero. -/

namespace Sys2Proof.Machine

/-- "D > S", sign-respecting when `Sg` is set (43_comparison.md R170). -/
def greaterTest {w : Nat} (signed : Bool) (d s : BitVec w) : Bool :=
  if signed then decide (s.toInt < d.toInt) else decide (s.toNat < d.toNat)

/-- The final test of a comparison (43_comparison.md R170). -/
def cmpTest {w : Nat} (f : CmpFlags) (d s : BitVec w) : Bool :=
  ((f.equal && d == s) || (f.greater && greaterTest f.signed d s)) != f.invert

/-- The truth value a comparison writes: `CMP_TRUE` or 0 (43_comparison.md R170). -/
def truthValue (w : Nat) (t : Bool) : BitVec w := if t then BitVec.ofNat w Config.cmpTrue else 0

/-- The outcome of a short-range branch before inversion: `G` chooses between "greater than zero,
signed" and "equal to zero" (44_jumps_and_branches.md R181). -/
def zeroTest {w : Nat} (greater : Bool) (v : BitVec w) : Bool :=
  if greater then decide (0 < v.toInt) else v == 0

end Sys2Proof.Machine
end

