-- ==== Sys2Proof/Machine/Comparison.lean ====
section
/-! DEFINITION. CMP (43_comparison.md). -/

namespace Sys2Proof.Machine

/-- CMP: the truth value of the final test goes to the destination (R170, R171). -/
def execCmp (f : CmpFlags) (sr d : Reg) (s : State) : Host.Outcome State Fault Refusal :=
  s.complete (s.arch.writeReg d (truthValue _ (cmpTest f (s.arch.readReg d) (s.arch.readReg sr))))

end Sys2Proof.Machine
end

