-- ==== Sys2Proof/Machine/ExceptionInstructions.lean ====
section
/-! DEFINITION. DEG and ERET (40_exception_instructions.md). -/

namespace Sys2Proof.Machine

/-- DEG: Illegal instruction when `IE` = 1, else nothing (R130). -/
def execDeg (s : State) : Host.Outcome State Fault Refusal :=
  s.conclude (.raises .illegalInstruction)

/-- ERET: the PC gets SR 8 and `IE` is set, in one instruction (R131). -/
def execEret (s : State) : Host.Outcome State Fault Refusal :=
  s.complete s.arch.exceptionReturn

end Sys2Proof.Machine
end

