-- ==== Sys2Proof/Machine/Jumps.lean ====
section
/-! DEFINITION. JC and the short-range branches (44_jumps_and_branches.md). -/

namespace Sys2Proof.Machine

/-- JC: when the register is nonzero the PC moves by a signed count of symbols (R180). -/
def execJc (c : Reg) (off : Int) (s : State) : Host.Outcome State Fault Refusal :=
  s.complete (if s.arch.readReg c == 0 then s.arch else s.arch.jumpBy (symbolOffset _ off))

/-- The common part of the short-range branches: test `v` against zero, invert, and add the offset
to the PC (R181). -/
def branch (greater invert : Bool) (c : BranchOffset) (v : Reg) (s : State) :
    Host.Outcome State Fault Refusal :=
  s.complete
    (if zeroTest greater (s.arch.readReg v) != invert then s.arch.jumpBy (s.arch.branchAmount c)
     else s.arch)

/-- BZ (R182). -/
def execBz (c : BranchOffset) (v : Reg) (s : State) : Host.Outcome State Fault Refusal :=
  branch false false c v s

/-- BNZ (R183). -/
def execBnz (c : BranchOffset) (v : Reg) (s : State) : Host.Outcome State Fault Refusal :=
  branch false true c v s

/-- BGTZ (R184). -/
def execBgtz (c : BranchOffset) (v : Reg) (s : State) : Host.Outcome State Fault Refusal :=
  branch true false c v s

/-- BLEZ (R185). -/
def execBlez (c : BranchOffset) (v : Reg) (s : State) : Host.Outcome State Fault Refusal :=
  branch true true c v s

end Sys2Proof.Machine
end

