-- ==== Sys2Proof/Machine/LongInstructions.lean ====
section
/-! DEFINITION. The 32-bit format: MULTIPLY, DIVMOD, LOADOFF, STOREOFF
(49_long_instructions.md). -/

namespace Sys2Proof.Machine

/-- Two results written after every operand was read (R250, R251, R256). -/
def Arch.writeTwo {n : Nat} (a : Arch n) (r1 : Reg) (v1 : Word n) (r2 : Reg) (v2 : Word n) : Arch n :=
  (a.writeReg r1 v1).writeReg r2 v2

/-- MULTIPLY: the double-width product, high word to `h`, low word to `lo` (R250, R255, R256). -/
def execMultiply (a b h lo : Reg) (s : State) : Host.Outcome State Fault Refusal :=
  s.conclude
    (if !s.cfg.hasMul then .raises .illegalInstruction
     else if h == lo then .stops (.refuse (.twoResultsOneRegister h))
     else
       let p := product s.cfg.mulDivSigned (s.arch.readReg a) (s.arch.readReg b)
       .done (s.arch.writeTwo h (p.extractLsb' (8 * s.cfg.wb) (8 * s.cfg.wb)) lo
         (p.extractLsb' 0 (8 * s.cfg.wb))))

/-- The 2`W`-bit dividend of DIVMOD (R251). -/
def Arch.dividend {n : Nat} (a : Arch n) (h lo : Reg) : BitVec (8 * n + 8 * n) :=
  a.readReg h ++ a.readReg lo

/-- DIVMOD: the quotient by the old `A` goes to `A`, the remainder by the old `B` goes to `B`
(R251, R255, R256). -/
def execDivMod (a b h lo : Reg) (s : State) : Host.Outcome State Fault Refusal :=
  s.conclude
    (if !s.cfg.hasMul then .raises .illegalInstruction
     else if a == b then .stops (.refuse (.twoResultsOneRegister a))
     else if s.arch.readReg a == 0 || s.arch.readReg b == 0 then .raises .divideByZero
     else
       let d := operandInt s.cfg.mulDivSigned (s.arch.dividend h lo)
       let q := quotient d (operandInt s.cfg.mulDivSigned (s.arch.readReg a))
       let r := remainder d (operandInt s.cfg.mulDivSigned (s.arch.readReg b))
       if fitsWord (8 * s.cfg.wb) s.cfg.mulDivSigned q then
         .done (s.arch.writeTwo a (BitVec.ofInt _ q) b (BitVec.ofInt _ r))
       else .stops (.refuse .quotientOverflow))

/-- LOADOFF: the word at the base register plus the offset (R252). -/
def execLoadOff (a b : Reg) (off : Int) (s : State) : Host.Outcome State Fault Refusal :=
  s.conclude
    (match s.arch.loadWord s.cfg (s.arch.offsetAddress b off) with
     | .error e => .stops e
     | .ok (v, t) => .done (t.writeReg a v))

/-- STOREOFF: register `a` to the word at the base register plus the offset (R253). -/
def execStoreOff (a b : Reg) (off : Int) (s : State) : Host.Outcome State Fault Refusal :=
  s.conclude
    (.ofExcept (s.arch.storeWord s.cfg (s.arch.offsetAddress b off) (s.arch.readReg a)))

end Sys2Proof.Machine
end

