-- ==== Sys2Proof/Machine/Misc.lean ====
section
/-! DEFINITION. The miscellaneous two-register instructions (45_misc_two_register.md). -/

namespace Sys2Proof.Machine

/-- SWAP: both old values are read before either write (R190). -/
def execSwap (b a : Reg) (s : State) : Host.Outcome State Fault Refusal :=
  s.complete ((s.arch.writeReg a (s.arch.readReg b)).writeReg b (s.arch.readReg a))

/-- MUL: the low word of the product (R191); without the multiplier, Illegal instruction (R197). -/
def execMul (b a : Reg) (s : State) : Host.Outcome State Fault Refusal :=
  s.conclude
    (if s.cfg.hasMul then .done (s.arch.writeReg a (s.arch.readReg a * s.arch.readReg b))
     else .raises .illegalInstruction)

/-- The common part of DIV and MOD: the gates of R192 and R193, then a function of the two operands
as integers. -/
def divide (f : Int → Int → Int) (b a : Reg) (s : State) : Host.Outcome State Fault Refusal :=
  s.conclude
    (if !s.cfg.hasMul then .raises .illegalInstruction
     else if s.arch.readReg b == 0 then .raises .divideByZero
     else if divideOverflows s.cfg.mulDivSigned (s.arch.readReg a) (s.arch.readReg b) then
       .stops (.refuse .divideOverflow)
     else
       .done (s.arch.writeReg a (BitVec.ofInt _
         (f (operandInt s.cfg.mulDivSigned (s.arch.readReg a))
            (operandInt s.cfg.mulDivSigned (s.arch.readReg b))))))

/-- DIV: the quotient (R192). -/
def execDiv (b a : Reg) (s : State) : Host.Outcome State Fault Refusal := divide quotient b a s

/-- MOD: the remainder (R193). -/
def execMod (b a : Reg) (s : State) : Host.Outcome State Fault Refusal := divide remainder b a s

/-- LOADREG: the register whose number is in `b` (R194). -/
def execLoadReg (b a : Reg) (s : State) : Host.Outcome State Fault Refusal :=
  s.conclude
    (if h : (s.arch.readReg b).toNat < 16 then
       .done (s.arch.writeReg a (s.arch.readReg ⟨(s.arch.readReg b).toNat, h⟩))
     else .stops (.refuse (.registerIndex (s.arch.readReg b).toNat)))

/-- STOREREG: to the register whose number is in `b` (R195). -/
def execStoreReg (b a : Reg) (s : State) : Host.Outcome State Fault Refusal :=
  s.conclude
    (if h : (s.arch.readReg b).toNat < 16 then
       .done (s.arch.writeReg ⟨(s.arch.readReg b).toNat, h⟩ (s.arch.readReg a))
     else .stops (.refuse (.registerIndex (s.arch.readReg b).toNat)))

/-- The counter step of the loops, `A -= 1` (R196, R198). -/
def Arch.countDown {n : Nat} (a : Arch n) (r : Reg) : Arch n := a.writeReg r (a.readReg r - 1)

/-- LOOPI: count down, then while nonzero add register `b`, read after the decrement, to the PC
(R196). -/
def execLoopI (b a : Reg) (s : State) : Host.Outcome State Fault Refusal :=
  s.complete
    (if s.arch.readReg a - 1 == 0 then s.arch.countDown a
     else (s.arch.countDown a).jumpBy ((s.arch.countDown a).readReg b))

/-- LOOP: count down, then while nonzero move the PC by a signed count of symbols (R198). -/
def execLoop (off : Int) (a : Reg) (s : State) : Host.Outcome State Fault Refusal :=
  s.complete
    (if s.arch.readReg a - 1 == 0 then s.arch.countDown a
     else (s.arch.countDown a).jumpBy (symbolOffset _ off))

end Sys2Proof.Machine
end

