-- ==== Sys2Proof/Machine/Subword.lean ====
section
/-! DEFINITION. SUBW (46_subword.md). -/

namespace Sys2Proof.Machine

/-- SUBW: bytes of the register moved to its bottom and extended (R210). -/
def execSubw (sx : Bool) (count index : Nat) (d : Reg) (s : State) : Host.Outcome State Fault Refusal :=
  s.complete (s.arch.writeReg d (subword sx count index (s.arch.readReg d)))

end Sys2Proof.Machine
end

