-- ==== Sys2Proof/Machine/SystemRegisters.lean ====
section
/-! DEFINITION. The System Registers by number, RSR and WSR (10_state.md R30 to R46;
47_system_register_access.md). -/

namespace Sys2Proof.Machine

/-- The defined System Registers (10_state.md R31). -/
inductive SysReg where
  | model
  | wordSize
  | handler
  | power
  | retired
  | cycles
  | frequency
  | extensions
  | continuation
  | cause
  | debugPort
  | status
  | enabled
deriving DecidableEq, Repr

/-- The System Register with number `n`; none for 12 to 62 and 64 to 255 (10_state.md R31, R33). -/
def SysReg.ofNumber (n : Nat) : Option SysReg :=
  match n with
  | 0 => some .model
  | 1 => some .wordSize
  | 2 => some .handler
  | 3 => some .power
  | 4 => some .retired
  | 5 => some .cycles
  | 6 => some .frequency
  | 7 => some .extensions
  | 8 => some .continuation
  | 9 => some .cause
  | 10 => some .debugPort
  | 11 => some .status
  | 63 => some .enabled
  | _ => none

/-- One bit as a number. -/
def bitValue (b : Bool) : Nat := if b then 1 else 0

/-- What a read of a System Register gives, `none` where the register is write-only
(47_system_register_access.md R220). SR 5 reads as a free value (10_state.md R39; log 9). -/
def Arch.sysRead {n : Nat} (a : Arch n) (c : Config) (r : SysReg) : Option (Word n) :=
  match r with
  | .model => some (BitVec.ofNat _ Config.modelId)
  | .wordSize => some (BitVec.ofNat _ (8 * n))
  | .handler => some a.handler
  | .power => none
  | .retired => some a.retired
  | .cycles => some (Config.freeCycles n a.draws)
  | .frequency => some (BitVec.ofNat _ c.coreFreqKiHz)
  | .extensions => some (BitVec.ofNat _ (bitValue c.hasMul))
  | .continuation => some a.continuation
  | .cause => some a.cause
  | .debugPort => none
  | .status => some (BitVec.ofNat _ (2 * bitValue a.regExc + bitValue a.extEn))
  | .enabled => some (BitVec.ofNat _ (bitValue a.ie))

/-- RSR: the System Register's value goes to the general register (R220). -/
def readSystemRegister {m : Nat} (a : Arch m) (c : Config) (r : Reg) (n : Nat) : Effect m :=
  match SysReg.ofNumber n with
  | none => .stops (.refuse (.undefinedSystemRegister n))
  | some q =>
    match a.sysRead c q with
    | none => .stops (.refuse (.readOfWriteOnly n))
    | some v => .done ((a.drawIf (q == .cycles)).writeReg r v)

/-- A write to SR 10 appends the low octet to the debug output, or is ignored
(10_state.md R44). -/
def Arch.debugWrite {n : Nat} (a : Arch n) (c : Config) (v : Word n) : Arch n :=
  match c.debugPort with
  | .emit => { a with debugOut := a.debugOut ++ [v.setWidth 8] }
  | .ignore => a

/-- A write to SR 3: 1 halts, 0 does nothing, and the reserved bits must be 0
(10_state.md R37). -/
def Arch.powerWrite {n : Nat} (a : Arch n) (v : Word n) : Effect n :=
  if v == 1 then .done { a with halted := true }
  else if v == 0 then .done a
  else .stops (.refuse .powerStateReserved)

/-- WSR: the general register's value goes to the System Register (R221). -/
def writeSystemRegister {m : Nat} (a : Arch m) (c : Config) (v : Word m) (n : Nat) : Effect m :=
  match SysReg.ofNumber n with
  | none => .stops (.refuse (.undefinedSystemRegister n))
  | some .model => .stops (.refuse (.writeOfReadOnly n))
  | some .wordSize => .stops (.refuse (.writeOfReadOnly n))
  | some .handler => .done { a with handler := v }
  | some .power => a.powerWrite v
  | some .retired => .done { a with retired := v }
  | some .cycles => .done { a with cycles := v }
  | some .frequency => .stops (.refuse (.writeOfReadOnly n))
  | some .extensions => .stops (.refuse (.writeOfReadOnly n))
  | some .continuation => .done { a with continuation := v }
  | some .cause => .done { a with cause := v }
  | some .debugPort => .done (a.debugWrite c v)
  | some .status => .done { a with extEn := v.getLsbD 0, regExc := v.getLsbD 1 }
  | some .enabled => .done { a with ie := v.getLsbD 0 }

/-- RSR (R220). -/
def execRsr (r : Reg) (n : Nat) (s : State) : Host.Outcome State Fault Refusal :=
  s.conclude (readSystemRegister s.arch s.cfg r n)

/-- WSR (R221). -/
def execWsr (r : Reg) (n : Nat) (s : State) : Host.Outcome State Fault Refusal :=
  s.conclude (writeSystemRegister s.arch s.cfg (s.arch.readReg r) n)

end Sys2Proof.Machine
end

