-- ==== Sys2Proof/Machine/Transfer.lean ====
section
/-! DEFINITION. SI and XF (48_immediate_and_data_transfer.md). -/

namespace Sys2Proof.Machine

/-- SI: the zero-extended immediate (R230). -/
def execSi (v : Nat) (d : Reg) (s : State) : Host.Outcome State Fault Refusal :=
  s.complete (s.arch.writeReg d (BitVec.ofNat _ v))

/-- Data Transfer: the whole source side, then the whole destination side (R231). -/
def transfer {n : Nat} (a : Arch n) (c : Config) (src dst : XfOperand) : Except Stop (Arch n) :=
  match a.xfSource c src with
  | .error e => .error e
  | .ok (v, a') => a'.xfDestination c dst v

/-- XF (R231 to R233). -/
def execXf (src dst : XfOperand) (s : State) : Host.Outcome State Fault Refusal :=
  s.conclude (.ofExcept (transfer s.arch s.cfg src dst))

end Sys2Proof.Machine
end

