-- ==== Sys2Proof/Machine/Dispatch.lean ====
section
/-! DEFINITION. The execute phase of an instruction, in a state whose PC already holds the
next-instruction address (10_state.md R25). -/

namespace Sys2Proof.Machine

def exec (i : Instr) (s : State) : Host.Outcome State Fault Refusal :=
  match i with
  | .deg => Sys2Proof.Machine.execDeg s
  | .eret => Sys2Proof.Machine.execEret s
  | .bit m sr d => Sys2Proof.Machine.execBit m sr d s
  | .add src d => Sys2Proof.Machine.execAdd src d s
  | .sub src d => Sys2Proof.Machine.execSub src d s
  | .shl src d => Sys2Proof.Machine.execShl src d s
  | .shr src d => Sys2Proof.Machine.execShr src d s
  | .asr src d => Sys2Proof.Machine.execAsr src d s
  | .rol src d => Sys2Proof.Machine.execRol src d s
  | .ror src d => Sys2Proof.Machine.execRor src d s
  | .neg src d => Sys2Proof.Machine.execNeg src d s
  | .cmp f sr d => Sys2Proof.Machine.execCmp f sr d s
  | .xf src dst => Sys2Proof.Machine.execXf src dst s
  | .jc c off => Sys2Proof.Machine.execJc c off s
  | .subw sx count index d => Sys2Proof.Machine.execSubw sx count index d s
  | .rsr r n => Sys2Proof.Machine.execRsr r n s
  | .wsr r n => Sys2Proof.Machine.execWsr r n s
  | .si v d => Sys2Proof.Machine.execSi v d s
  | .swap b a => Sys2Proof.Machine.execSwap b a s
  | .mul b a => Sys2Proof.Machine.execMul b a s
  | .div b a => Sys2Proof.Machine.execDiv b a s
  | .mod b a => Sys2Proof.Machine.execMod b a s
  | .loadReg b a => Sys2Proof.Machine.execLoadReg b a s
  | .storeReg b a => Sys2Proof.Machine.execStoreReg b a s
  | .loopI b a => Sys2Proof.Machine.execLoopI b a s
  | .loop off a => Sys2Proof.Machine.execLoop off a s
  | .bz c v => Sys2Proof.Machine.execBz c v s
  | .bnz c v => Sys2Proof.Machine.execBnz c v s
  | .bgtz c v => Sys2Proof.Machine.execBgtz c v s
  | .blez c v => Sys2Proof.Machine.execBlez c v s
  | .multiply a b h lo => Sys2Proof.Machine.execMultiply a b h lo s
  | .divMod a b h lo => Sys2Proof.Machine.execDivMod a b h lo s
  | .loadOff a b off => Sys2Proof.Machine.execLoadOff a b off s
  | .storeOff a b off => Sys2Proof.Machine.execStoreOff a b off s

end Sys2Proof.Machine
end

