-- ==== Sys2Proof/Machine/Cycle.lean ====
section
/-! DEFINITION. The instruction cycle: the external-exception check, the fetch, and the execution of
what was fetched (10_state.md R25, 60_exceptions.md R281). -/

namespace Sys2Proof.Machine

/-- The device addresses whose pin is asserted at this boundary (10_state.md R48). -/
def Arch.pending {n : Nat} (a : Arch n) : List (Word n) := a.pins.headD []

/-- The input of this boundary has been looked at: the pins are sampled afresh at the next one, and
nothing is latched (60_exceptions.md R281, decision D19). -/
def Arch.passBoundary {n : Nat} (a : Arch n) : Arch n := { a with pins := a.pins.tail }

/-- The device reported among those pending: the one there is, or a free choice among several
(60_exceptions.md R282; log 8). -/
def pickDevice {n : Nat} (draw : Nat) (pending : List (Word n)) : Option (Word n) :=
  match pending with
  | [] => none
  | [d] => some d
  | d :: e :: rest =>
    some ((d :: e :: rest).getD (Config.freePick draw % (d :: e :: rest).length) d)

/-- The device whose external exception is taken at this boundary, if one is: both enables must be
set (60_exceptions.md R280, R281). -/
def Arch.externalException {n : Nat} (a : Arch n) : Option (Word n) :=
  if a.ie && a.extEn then pickDevice a.draws a.pending else none

/-- External exception entry; no instruction executes in this step (60_exceptions.md R281). A choice
among several devices counts as a draw. -/
def Arch.enterExternal {n : Nat} (a : Arch n) (dev : Word n) : Arch n :=
  (a.passBoundary.drawIf (1 < a.pending.length)).enter false dev

/-- One symbol fetched at `addr` (20_memory.md R74, R76). -/
def Arch.fetchSymbol {n : Nat} (a : Arch n) (c : Config) (addr : Word n) :
    Except Stop (Symbol × Arch n) :=
  if addr.toNat % ist == 0 then
    match a.memRead c addr ist with
    | .error e => .error e
    | .ok (v, a') => .ok (BitVec.ofNat _ v, a')
  else .error (.refuse (.misalignedFetch addr.toNat))

/-- The address `k` symbols after `addr`, modulo 2^`W` (10_state.md R25, R28). -/
def symbolAddress {n : Nat} (addr : Word n) (k : Nat) : Word n := addr + BitVec.ofNat _ (k * ist)

/-- `count` symbols fetched one after another from `addr`. -/
def Arch.fetchSymbols {n : Nat} (a : Arch n) (c : Config) (addr : Word n) :
    Nat → Except Stop (List Symbol × Arch n)
  | 0 => .ok ([], a)
  | count + 1 =>
    match a.fetchSymbol c addr with
    | .error e => .error e
    | .ok (s, a') =>
      match a'.fetchSymbols c (symbolAddress addr 1) count with
      | .error e => .error e
      | .ok (ss, t) => .ok (s :: ss, t)

/-- The fetch phase: the first symbol tells the length, every symbol of the instruction is fetched,
and the PC is advanced past all of them (10_state.md R25). -/
def Arch.fetch {n : Nat} (a : Arch n) (c : Config) : Except Stop (List Symbol × Arch n) :=
  match a.fetchSymbol c a.pc with
  | .error e => .error e
  | .ok (s0, a1) =>
    match a1.fetchSymbols c (symbolAddress a.pc 1) (symbolsToFollow s0) with
    | .error e => .error e
    | .ok (ss, a2) => .ok (s0 :: ss, a2.jump (symbolAddress a.pc (1 + symbolsToFollow s0)))

/-- The execute phase on fetched symbols: the instruction they encode, or Illegal instruction for an
encoding the hardware does not implement (30_encoding.md R117, R119). -/
def State.perform (s : State) (ss : List Symbol) : Host.Outcome State Fault Refusal :=
  match decode ss with
  | .ok (i, _) => exec i s
  | .error _ => s.conclude (.raises .illegalInstruction)

/-- Fetch and execute one instruction (10_state.md R25). -/
def State.instruction (s : State) : Host.Outcome State Fault Refusal :=
  match s.arch.fetch s.cfg with
  | .error e => s.conclude (.stops e)
  | .ok (ss, a) => State.perform { s with arch := a } ss

/-- One step: nothing more happens once halted (10_state.md R47; log 11); else an external exception
is taken, or one instruction is fetched and executed (60_exceptions.md R281). -/
def State.cycle (s : State) : Host.Outcome State Fault Refusal :=
  if s.arch.halted then .next s
  else
    match s.arch.externalException with
    | some dev => .next { s with arch := s.arch.enterExternal dev }
    | none => State.instruction { s with arch := s.arch.passBoundary }

/-- Writes octets into memory from address `addr` upwards, modulo 2^`W`: a program loaded from
outside the machine (70_reset_and_hazards.md R311; log 6). -/
def placeOctets {n : Nat} (addr : Word n) (k : Nat) (bs : List Byte) (m : Memory) : Memory :=
  match bs with
  | [] => m
  | b :: rest => placeOctets addr (k + 1) rest (m.write (octetAddress addr k) b)

/-- The state with a table word's symbols stored at the PC, running and with no pin asserted at this
boundary, so that the very next step executes it (log 6, log 17). -/
def Arch.place {n : Nat} (a : Arch n) (o : ByteOrder) (ss : List Symbol) : Arch n :=
  { a with
    mem := placeOctets a.pc 0 (octetsOf o ss) a.mem
    halted := false
    pins := match a.pins with
      | [] => []
      | _ :: later => [] :: later }

end Sys2Proof.Machine
end

