-- ==== Sys2Proof/Machine/Step.lean ====
section
/-! DEFINITION. The machine's one step, and the placing of an instruction where the step fetches. -/

namespace Sys2Proof.Machine

/-- One step of the machine (10_state.md R25, 60_exceptions.md R281). -/
def step (s : State) : Host.Outcome State Fault Refusal := s.cycle

/-- The state with an instruction of spec/opcode_table.json, numbered as the table numbers it,
stored where the step fetches (log 6, log 17). -/
def State.withFetchWord (s : State) (nbits w : Nat) : State :=
  { s with arch := s.arch.place s.cfg.byteOrder (paddedSymbols nbits w) }

end Sys2Proof.Machine
end

