-- ==== Sys2Proof/Safety.lean ====
section
/-! DEFINITION. The terms claims are stated in: the invariant, what an instruction leaves unchanged,
what an exception entry does, and what a word access reads and stores. -/

namespace Sys2Proof.Machine

variable {n : Nat}

/-! ### The invariant -/

/-- Memory is in its canonical form and lists no address outside the address space of 2^`W` octets
(20_memory.md R70). -/
def Arch.Inv (a : Arch n) : Prop := a.mem.wf ∧ ∀ p ∈ a.mem, p.1 < 2 ^ (8 * n)

/-- The invariant every step keeps. -/
def State.Inv (s : State) : Prop := s.arch.Inv

/-! ### Frames -/

/-- From `a` to `t` an instruction retired (SR 4 went up by one), and no register but those of `rs`,
no System Register, no output, no input and no mode bit changed. Memory is not spoken of. -/
structure Arch.Keeps (rs : List Reg) (a t : Arch n) : Prop where
  regs : ∀ r, r ∉ rs → t.readReg r = a.readReg r
  handler : t.handler = a.handler
  retired : t.retired = a.retired + 1
  cycles : t.cycles = a.cycles
  continuation : t.continuation = a.continuation
  cause : t.cause = a.cause
  extEn : t.extEn = a.extEn
  regExc : t.regExc = a.regExc
  ie : t.ie = a.ie
  halted : t.halted = a.halted
  debugOut : t.debugOut = a.debugOut
  deviceOut : t.deviceOut = a.deviceOut
  pins : t.pins = a.pins
  draws : t.draws = a.draws

/-- Every octet of memory reads as before. -/
def Arch.KeepsMemory (a t : Arch n) : Prop := ∀ x, t.mem.read x = a.mem.read x

/-- An instruction that retired and changed nothing but the registers of `rs`. -/
def Arch.Frame (rs : List Reg) (a t : Arch n) : Prop := a.Keeps rs t ∧ a.KeepsMemory t

/-! ### Exceptions -/

/-- From `a` to `t` the entry sequence was performed with this cause and return address, and nothing
else changed but the boundary input (60_exceptions.md R275). -/
structure Arch.Entered (a t : Arch n) (registered : Bool) (cause ret : Word n) : Prop where
  pc : t.pc = a.handler
  continuation : t.continuation = ret
  cause : t.cause = cause
  regExc : t.regExc = registered
  ie : t.ie = false
  regs : ∀ r, r ≠ 0 → t.readReg r = a.readReg r
  handler : t.handler = a.handler
  retired : t.retired = a.retired
  cycles : t.cycles = a.cycles
  extEn : t.extEn = a.extEn
  halted : t.halted = a.halted
  debugOut : t.debugOut = a.debugOut
  deviceOut : t.deviceOut = a.deviceOut
  mem : ∀ x, t.mem.read x = a.mem.read x

/-- From `a` to `t` the instruction `i` made no exception entry, as its registers show: SR 8, SR 9 and SR 11
bit 1 are as before, and `IE` was not cleared, but where `i` is the WSR that names that very register
(60_exceptions.md R275, 47_system_register_access.md R221). -/
structure Arch.NotEntered (a t : Arch n) (i : Instr) : Prop where
  continuation : (∀ r, i ≠ .wsr r 8) → t.continuation = a.continuation
  cause : (∀ r, i ≠ .wsr r 9) → t.cause = a.cause
  regExc : (∀ r, i ≠ .wsr r 11) → t.regExc = a.regExc
  ie : (∀ r, i ≠ .wsr r 63) → a.ie = true → t.ie = true

/-- From `a` to `t` an instruction met the condition of the registered exception with this code:
entry, not counted in SR 4, when exceptions are enabled; a no-op that retires when they are not
(60_exceptions.md R274, R275). -/
def Arch.Raised (a t : Arch n) (code : Nat) : Prop :=
  (a.ie = true →
    a.Entered t true (BitVec.ofNat _ code) a.pc ∧ t.pins = a.pins ∧ t.draws = a.draws) ∧
  (a.ie = false → a.Frame [] t)

/-! ### Word accesses -/

/-- A read of the octet at `x` has a meaning: a device answers, or `MEM_MAP` has memory there and
something has written it (20_memory.md R79, R80; log 5). -/
abbrev Arch.OctetReadable (a : Arch n) (c : Config) (x : Nat) : Prop :=
  regionKind c.memMap x = some .device ∨
  ((regionKind c.memMap x = some .ram ∨ regionKind c.memMap x = some .rom) ∧ (a.mem.read x).isSome)

/-- A store to the octet at `x` has a meaning: RAM is there, or a device answers
(20_memory.md R79, R80). -/
abbrev OctetWritable (c : Config) (x : Nat) : Prop :=
  regionKind c.memMap x = some .ram ∨ regionKind c.memMap x = some .device

/-- `f` is the fault of reading the octet at `x`: `MEM_MAP` has nothing there, or it has memory that
nothing has written (20_memory.md R80, 10_state.md R54; log 5, log 14). -/
abbrev Arch.ReadFault (a : Arch n) (c : Config) (x : Nat) (f : Fault) : Prop :=
  (regionKind c.memMap x = none ∧ f = .unmappedAddress x) ∨
  ((regionKind c.memMap x = some .ram ∨ regionKind c.memMap x = some .rom) ∧
    a.mem.read x = none ∧ f = .unwrittenMemory x)

/-- `e` is the stop of storing to the octet at `x`: the fault where `MEM_MAP` has nothing, the refusal
where it has ROM (20_memory.md R80; log 13, log 14). -/
abbrev StoreStop (c : Config) (x : Nat) (e : Stop) : Prop :=
  (regionKind c.memMap x = none ∧ e = .fault (.unmappedAddress x)) ∨
  (regionKind c.memMap x = some .rom ∧ e = .refuse (.storeToRom x))

/-- The outcome of a step that stops so. -/
def Stop.outcome : Stop → Host.Outcome State Fault Refusal
  | .fault f => .fault f
  | .refuse r => .refused r

/-- A load at `addr` has a meaning: the address is aligned, and each octet can be read
(20_memory.md R75, R79, R80). -/
def Arch.Readable (a : Arch n) (c : Config) (addr : Word n) : Prop :=
  addr.toNat % n = 0 ∧ ∀ j, j < n → a.OctetReadable c (octetAddress addr j)

/-- A store at `addr` has a meaning: the address is aligned, and each octet can be stored to
(20_memory.md R75, R79, R80). -/
def Writable (c : Config) (addr : Word n) : Prop :=
  addr.toNat % n = 0 ∧ ∀ j, j < n → OctetWritable c (octetAddress addr j)

/-- `v` is a value the word at `addr` can be read as: made, in `BYTE_ORDER`, of the octets memory
holds there, and of any octets where a device answers (20_memory.md R73, R79). -/
def Arch.ReadsAs (a : Arch n) (c : Config) (addr v : Word n) : Prop :=
  ∃ bs : List Byte, bs.length = n ∧ v.toNat = c.byteOrder.value bs ∧
    ∀ j (h : j < bs.length), regionKind c.memMap (octetAddress addr j) ≠ some .device →
      a.mem.read (octetAddress addr j) = some bs[j]

/-- From `a` to `t` the word `v` was stored at `addr`: its octets stand, in `BYTE_ORDER`, at the
`n` addresses from `addr` that are RAM, every other octet of memory reads as before, and where a
device answers the store was recorded as an output event (20_memory.md R73, R79). -/
def Arch.StoredAt (a : Arch n) (c : Config) (addr v : Word n) (t : Arch n) : Prop :=
  (∀ j, j < n → regionKind c.memMap (octetAddress addr j) = some .ram →
    t.mem.read (octetAddress addr j) = (c.byteOrder.octets n v.toNat)[j]?) ∧
  (∀ x, (∀ j, j < n → regionKind c.memMap x = some .ram → x ≠ octetAddress addr j) →
    t.mem.read x = a.mem.read x) ∧
  t.deviceOut = a.deviceOut ++ if touchesDevice c addr n then [⟨addr, v⟩] else []

/-! ### Code in memory -/

/-- Memory holds the octets `bs` from `addr` upwards, at addresses that are RAM or ROM. -/
def Arch.HoldsOctets (a : Arch n) (c : Config) (addr : Word n) (bs : List Byte) : Prop :=
  ∀ j (h : j < bs.length),
    (regionKind c.memMap (octetAddress addr j) = some .ram ∨
      regionKind c.memMap (octetAddress addr j) = some .rom) ∧
    a.mem.read (octetAddress addr j) = some bs[j]

/-- The symbols `ss` stand in memory at the PC, which is even (20_memory.md R74, R76). -/
def Arch.HoldsCode (a : Arch n) (c : Config) (ss : List Symbol) : Prop :=
  a.pc.toNat % 2 = 0 ∧ a.HoldsOctets c a.pc (octetsOf c.byteOrder ss)

/-- The words the base hardware does not implement: first symbols assigned to nothing, long
instructions with `L` other than 1, and the 32-bit format with `E` other than 0 or `F` above 3
(30_encoding.md R117, R118; 49_long_instructions.md R254). -/
def Unimplemented (s0 : Symbol) (ss : List Symbol) : Prop :=
  (0x0002 ≤ s0.toNat ∧ s0.toNat ≤ 0x0FFF) ∨ (0xD000 ≤ s0.toNat ∧ s0.toNat ≤ 0xDFFF) ∨
  (0xF000 ≤ s0.toNat ∧ s0.toNat / 256 % 16 ≠ 1) ∨
  (0xF100 ≤ s0.toNat ∧ s0.toNat ≤ 0xF1FF ∧ ∃ s1 later, ss = s1 :: later ∧ 0x0400 ≤ s1.toNat)

/-! ### The rules' own arithmetic -/

/-- The right operand of an arithmetic instruction as a number (42_arithmetic.md R150). -/
def Arch.operandNat (a : Arch n) (s : Operand) : Nat :=
  match s with
  | .reg r => (a.readReg r).toNat
  | .imm v => v

/-- The amount a short-range branch adds to the PC, in addressable units
(44_jumps_and_branches.md R181). -/
def Arch.branchUnits (a : Arch n) (c : BranchOffset) : Int :=
  match c with
  | .reg r => (a.readReg r).toNat
  | .imm k => 2 * k

/-- The sixteen Bitwise functions by the formulas of 41_bitwise.md R141. -/
def namedFunction {w : Nat} (m : Nat) (d s : BitVec w) : BitVec w :=
  match m with
  | 0 => 0
  | 1 => ~~~(d ||| s)
  | 2 => ~~~d &&& s
  | 3 => ~~~d
  | 4 => d &&& ~~~s
  | 5 => ~~~s
  | 6 => d ^^^ s
  | 7 => ~~~(d &&& s)
  | 8 => d &&& s
  | 9 => ~~~(d ^^^ s)
  | 10 => s
  | 11 => ~~~d ||| s
  | 12 => d
  | 13 => d ||| ~~~s
  | 14 => d ||| s
  | _ => BitVec.allOnes w

/-- The number of a comparison: the flag nibble `Iv:Sg:G:E` (43_comparison.md R171). -/
def relationNumber (f : CmpFlags) : Nat :=
  8 * f.invert.toNat + 4 * f.signed.toNat + 2 * f.greater.toNat + f.equal.toNat

/-- When the comparison with number `k` writes 1, by the corrected table of 43_comparison.md R171. -/
def namedRelation {w : Nat} (k : Nat) (d s : BitVec w) : Prop :=
  match k with
  | 0 => False
  | 1 => d = s
  | 2 => s.toNat < d.toNat
  | 3 => s.toNat ≤ d.toNat
  | 4 => False
  | 5 => d = s
  | 6 => s.toInt < d.toInt
  | 7 => s.toInt ≤ d.toInt
  | 8 => True
  | 9 => d ≠ s
  | 10 => d.toNat ≤ s.toNat
  | 11 => d.toNat < s.toNat
  | 12 => True
  | 13 => d ≠ s
  | 14 => d.toInt ≤ s.toInt
  | _ => d.toInt < s.toInt

/-- The System Registers a program may read, but for SR 5, and their values
(47_system_register_access.md R220). -/
def Arch.sysRegNat (a : Arch n) (c : Config) (k : Nat) : Option Nat :=
  match k with
  | 0 => some 0
  | 1 => some (8 * n)
  | 2 => some a.handler.toNat
  | 4 => some a.retired.toNat
  | 6 => some c.coreFreqKiHz
  | 7 => some c.hasMul.toNat
  | 8 => some a.continuation.toNat
  | 9 => some a.cause.toNat
  | 11 => some (2 * a.regExc.toNat + a.extEn.toNat)
  | 63 => some a.ie.toNat
  | _ => none

/-- The numbers of the defined System Registers (10_state.md R31). -/
def sysRegDefined (k : Nat) : Prop := k ≤ 11 ∨ k = 63

/-! ### Data Transfer as the rule's pseudocode writes it -/

/-- Register contents as numbers. -/
abbrev Contents := Reg → Nat

/-- The registers of a state as numbers. -/
def Arch.contents (a : Arch n) : Contents := fun r => (a.readReg r).toNat

/-- The contents with one register changed. -/
def Contents.put (f : Contents) (r : Reg) (v : Nat) : Contents := fun q => if q = r then v else f q

/-- "Autodecrement: decrement the register by the number of bytes in a word before the operation",
modulo 2^`W`, for words of `n` octets (48_immediate_and_data_transfer.md R231). -/
def Contents.before (n : Nat) (f : Contents) (o : XfOperand) : Contents :=
  if o.mode = .autoDecrement then f.put o.reg ((f o.reg + (2 ^ (8 * n) - n)) % 2 ^ (8 * n)) else f

/-- "Autoincrement … after the operation" and "Autopostdecrement … after the operation"
(48_immediate_and_data_transfer.md R231). -/
def Contents.after (n : Nat) (f : Contents) (o : XfOperand) : Contents :=
  if o.mode = .autoIncrement then f.put o.reg ((f o.reg + n) % 2 ^ (8 * n))
  else if o.mode = .autoPostDecrement then f.put o.reg ((f o.reg + (2 ^ (8 * n) - n)) % 2 ^ (8 * n))
  else f

/-- The registers when the destination side makes its access. -/
def Contents.atStore (n : Nat) (f : Contents) (src dst : XfOperand) : Contents :=
  ((f.before n src).after n src).before n dst

/-- The registers when the whole Data Transfer of the value `v` is done. -/
def Contents.atEnd (n : Nat) (f : Contents) (src dst : XfOperand) (v : Nat) : Contents :=
  if dst.indirect then (f.atStore n src dst).after n dst
  else ((f.atStore n src dst).put dst.reg v).after n dst

end Sys2Proof.Machine
end

