-- ==== Sys2Proof/Certificates/Slice0/Obligations.lean ====
section
/-! DEFINITION. The statements about the model. Register 0 is the PC; a statement about `exec` is
about the execute phase, in which register 0 holds the next-instruction address (10_state.md R25).
`⟨c, a⟩` is the machine with parameters `c` and architectural state `a`; `8 * c.wb` is `W`. -/

open Sys2Proof Sys2Proof.Machine

/-! ### Encoding -/

/-- Decoding the encoding of a well-formed instruction, whatever follows it, gives the instruction
and what follows (30_encoding.md R104 to R116). -/
def Obligations.DecodingAnEncodingGivesItBack : Prop :=
  ∀ (i : Instr) (rest : List Symbol), i.wf = true → decode (encode i ++ rest) = .ok (i, rest)

/-- What decodes is well formed and is the encoding of what it decodes to: each word has one
meaning (30_encoding.md R102, R103). -/
def Obligations.EncodingADecodingGivesItBack : Prop :=
  ∀ (ss rest : List Symbol) (i : Instr), decode ss = .ok (i, rest) →
    i.wf = true ∧ encode i ++ rest = ss

/-- The decoder rejects, each by its own name, exactly the words assigned to nothing or reserved for
extenders, and accepts every other (30_encoding.md R103, R117, R118). -/
def Obligations.DecoderAcceptsExactlyTheOpcodeMap : Prop :=
  ∀ (s0 s1 : Symbol) (rest : List Symbol),
    (0x0002 ≤ s0.toNat → s0.toNat ≤ 0x0FFF → decode (s0 :: rest) = .error (.unassigned s0)) ∧
    (0xD000 ≤ s0.toNat → s0.toNat ≤ 0xDFFF → decode (s0 :: rest) = .error (.unassigned s0)) ∧
    (0xF000 ≤ s0.toNat → s0.toNat / 256 % 16 ≠ 1 →
      decode (s0 :: rest) = .error (.longLength (s0.toNat / 256 % 16))) ∧
    (0xF100 ≤ s0.toNat → s0.toNat ≤ 0xF1FF → 0x1000 ≤ s1.toNat →
      decode (s0 :: s1 :: rest) = .error (.longExtension (s1.toNat / 4096))) ∧
    (0xF100 ≤ s0.toNat → s0.toNat ≤ 0xF1FF → 0x0400 ≤ s1.toNat → s1.toNat ≤ 0x0FFF →
      decode (s0 :: s1 :: rest) = .error (.longOperation (s1.toNat / 256))) ∧
    (0xF100 ≤ s0.toNat → s0.toNat ≤ 0xF1FF → s1.toNat ≤ 0x03FF →
      ∃ i, decode (s0 :: s1 :: rest) = .ok (i, rest)) ∧
    ((s0.toNat ≤ 0x0001 ∨ 0x1000 ≤ s0.toNat) → (s0.toNat ≤ 0xCFFF ∨ 0xE000 ≤ s0.toNat) →
      s0.toNat ≤ 0xEFFF → ∃ i, decode (s0 :: rest) = .ok (i, rest))

/-- Words written out in the spec's own examples decode to the instructions they stand for. -/
def Obligations.SpecExampleWordsDecode : Prop :=
  decodeTableWord 16 0x0000 = some .deg ∧
  decodeTableWord 16 0x1821 = some (.bit 8 2 1) ∧
  decodeTableWord 16 0x2911 = some (.sub (.imm 1) 1) ∧
  decodeTableWord 16 0x3921 = some (.cmp ⟨true, false, false, true⟩ 2 1) ∧
  decodeTableWord 16 0x463E = some (.xf ⟨false, .plain, 3⟩ ⟨true, .autoDecrement, 14⟩) ∧
  decodeTableWord 16 0x81FE = some (.jc 1 (-2)) ∧
  decodeTableWord 16 0xE7D1 = some (.loop (-3) 1) ∧
  decodeTableWord 32 0xF11202FE = some (.loadOff 1 2 (-2))

/-- `octetsOf`, which lays symbols out as octets, and `symbolsOf`, which cuts octets into symbols, are a
round trip in either byte order (20_memory.md R73, R74). `symbolsOf` serves `decodeTableWord`; what the
machine fetches is `StepRunsTheInstructionAtThePc`. -/
def Obligations.SymbolsSurviveTheirLayout : Prop :=
  ∀ (o : ByteOrder) (ss : List Symbol), symbolsOf o (octetsOf o ss) = ss

/-- `MemRead`: with `big` the octet at the lowest address is the most significant, with `little` the
least (20_memory.md R73); and the octets of a value are those it is read from. -/
def Obligations.OctetsStandInByteOrder : Prop :=
  ∀ (bs : List Byte) (j : Nat) (h : j < bs.length),
    ByteOrder.value .big bs / 256 ^ (bs.length - 1 - j) % 256 = bs[j].toNat ∧
    ByteOrder.value .little bs / 256 ^ j % 256 = bs[j].toNat ∧
    ByteOrder.value .big bs < 256 ^ bs.length ∧
    ByteOrder.value .little bs < 256 ^ bs.length ∧
    ∀ o : ByteOrder, o.octets bs.length (o.value bs) = bs

/-! ### The instruction cycle -/

/-- When the symbols in memory at the PC encode a well-formed instruction, the core is not halted
and no external exception is taken, the step is that instruction's execution with the PC advanced
past all of its symbols and the boundary's pin input passed (10_state.md R25). -/
def Obligations.StepRunsTheInstructionAtThePc : Prop :=
  ∀ (c : Config) (a : Arch c.wb) (i : Instr),
    i.wf = true → a.halted = false → a.externalException = none → a.HoldsCode c (encode i) →
    step ⟨c, a⟩ = exec i ⟨c, a.passBoundary.jump (symbolAddress a.pc (encode i).length)⟩

/-- An encoding the hardware does not implement raises Illegal instruction with the PC already past
all `1 + L` symbols: SR 8 gets that address when exceptions are enabled, and with `IE` = 0 the word
is a no-op that retires (30_encoding.md R117, R119; 49_long_instructions.md R254). -/
def Obligations.UnimplementedWordsRaiseIllegalInstruction : Prop :=
  ∀ (c : Config) (a : Arch c.wb) (s0 : Symbol) (ss : List Symbol),
    a.halted = false → a.externalException = none →
    ss.length = (if 0xF000 ≤ s0.toNat then s0.toNat / 256 % 16 else 0) →
    a.HoldsCode c (s0 :: ss) → Unimplemented s0 ss →
    ∃ t, step ⟨c, a⟩ = .next ⟨c, t⟩ ∧
      (a.passBoundary.jump (symbolAddress a.pc (1 + ss.length))).Raised t 1

/-- A symbol fetch at an odd address is refused (20_memory.md R76). -/
def Obligations.OddFetchIsRefused : Prop :=
  ∀ (c : Config) (a : Arch c.wb),
    a.halted = false → a.externalException = none → a.pc.toNat % 2 = 1 →
    step ⟨c, a⟩ = .refused (.misalignedFetch a.pc.toNat)

/-- A write of 1 to SR 3 halts the core, and a halted core executes nothing more: its state stays as
it is (10_state.md R47). That a step of a halted core answers the same state again, and not a stop,
is the model's choice (log 11). -/
def Obligations.HaltIsFinal : Prop :=
  ∀ (c : Config) (a : Arch c.wb),
    (∀ r, a.readReg r = 1 → ∃ t, exec (.wsr r 3) ⟨c, a⟩ = .next ⟨c, t⟩ ∧ t.halted = true) ∧
    (a.halted = true → step ⟨c, a⟩ = .next ⟨c, a⟩)

/-! ### Exceptions -/

/-- The entry sequence (60_exceptions.md R275). -/
def Obligations.EntrySequenceWritesWhatTheRuleSays : Prop :=
  ∀ (n : Nat) (a : Arch n) (registered : Bool) (cause : Word n),
    a.Entered (a.enter registered cause) registered cause a.pc

/-- At a boundary with both enables set and a pin asserted, an external exception is taken and no
instruction executes: SR 8 gets the PC, SR 9 one of the asserted devices' addresses
(60_exceptions.md R275, R281, R282). The input is a list that each step reads one entry of (log 7). -/
def Obligations.ExternalExceptionIsTakenAtTheBoundary : Prop :=
  ∀ (c : Config) (a : Arch c.wb),
    a.halted = false → a.ie = true → a.extEn = true → a.pins.headD [] ≠ [] →
    ∃ t dev, step ⟨c, a⟩ = .next ⟨c, t⟩ ∧ dev ∈ a.pins.headD [] ∧
      a.Entered t false dev a.pc ∧ t.pins = a.pins.tail

/-- With either enable clear the pins are ignored: the step is what it would be with no pin asserted
at this boundary, and nothing of the input is remembered (60_exceptions.md R280, R281; 10_state.md
R48). -/
def Obligations.MaskedPinsAreIgnored : Prop :=
  ∀ (c : Config) (a : Arch c.wb) (other : List (Word c.wb)),
    a.halted = false → (a.ie = false ∨ a.extEn = false) →
    step ⟨c, a⟩ = step ⟨c, { a with pins := other :: a.pins.tail }⟩

/-- After ERET a pending external exception is taken before the next instruction executes, with
SR 8 the address ERET returned to (60_exceptions.md R281, R285). -/
def Obligations.PendingExceptionIsTakenRightAfterReturn : Prop :=
  ∀ (c : Config) (a : Arch c.wb) (dev : Word c.wb) (later : List (List (Word c.wb))),
    a.halted = false → a.extEn = true → a.pins = [dev] :: later →
    ∃ t u, exec .eret ⟨c, a⟩ = .next ⟨c, t⟩ ∧ step ⟨c, t⟩ = .next ⟨c, u⟩ ∧
      u.continuation = a.continuation ∧ u.cause = dev ∧ u.regExc = false ∧ u.ie = false ∧
      u.pc = a.handler ∧ u.retired = a.retired + 1

/-- DEG raises Illegal instruction when `IE` = 1 and does nothing when `IE` = 0
(40_exception_instructions.md R130). -/
def Obligations.DegRaisesIllegalInstruction : Prop :=
  ∀ (c : Config) (a : Arch c.wb), ∃ t, exec .deg ⟨c, a⟩ = .next ⟨c, t⟩ ∧ a.Raised t 1

/-- ERET sets the PC to SR 8 and `IE` to 1, and restores nothing else
(40_exception_instructions.md R131, 60_exceptions.md R284). -/
def Obligations.EretReturnsAndEnables : Prop :=
  ∀ (c : Config) (a : Arch c.wb), ∃ t, exec .eret ⟨c, a⟩ = .next ⟨c, t⟩ ∧
    t.pc = a.continuation ∧ t.ie = true ∧ Arch.Frame [0] { a with ie := true } t

/-! ### Bitwise, arithmetic, comparison -/

/-- BIT: bit `k` of the result is the entry of the truth table picked by the two operand bits, the
`D` bit the more significant (41_bitwise.md R140). -/
def Obligations.BitLooksUpTheTruthTable : Prop :=
  ∀ (c : Config) (a : Arch c.wb) (m : BitVec 4) (s d : Reg),
    ∃ t, exec (.bit m s d) ⟨c, a⟩ = .next ⟨c, t⟩ ∧
      (∀ k, k < 8 * c.wb → (t.readReg d).getLsbD k =
        m.getLsbD (2 * ((a.readReg d).getLsbD k).toNat + ((a.readReg s).getLsbD k).toNat)) ∧
      a.Frame [d] t

/-- BIT computes the sixteen functions by their formulas (41_bitwise.md R141). -/
def Obligations.BitComputesTheNamedFunctions : Prop :=
  ∀ (c : Config) (a : Arch c.wb) (m : BitVec 4) (s d : Reg),
    ∃ t, exec (.bit m s d) ⟨c, a⟩ = .next ⟨c, t⟩ ∧
      t.readReg d = namedFunction m.toNat (a.readReg d) (a.readReg s)

/-- ADD, SUB and NEG are exact modulo 2^`W` (42_arithmetic.md R151, R152, R158). -/
def Obligations.AddSubNegWrapModuloTheWord : Prop :=
  ∀ (c : Config) (a : Arch c.wb) (s : Operand) (d : Reg), s.wf = true →
    (∃ t, exec (.add s d) ⟨c, a⟩ = .next ⟨c, t⟩ ∧ a.Frame [d] t ∧
      (t.readReg d).toNat = ((a.readReg d).toNat + a.operandNat s) % 2 ^ (8 * c.wb)) ∧
    (∃ t, exec (.sub s d) ⟨c, a⟩ = .next ⟨c, t⟩ ∧ a.Frame [d] t ∧
      ((t.readReg d).toNat : Int) =
        ((a.readReg d).toNat - a.operandNat s : Int) % 2 ^ (8 * c.wb)) ∧
    (∃ t, exec (.neg s d) ⟨c, a⟩ = .next ⟨c, t⟩ ∧ a.Frame [d] t ∧
      ((t.readReg d).toNat : Int) = (0 - a.operandNat s : Int) % 2 ^ (8 * c.wb))

/-- SHL and SHR multiply and divide by the power of two of the whole unsigned amount; an amount of
`W` or more gives 0 (42_arithmetic.md R153, R154). -/
def Obligations.ShiftsFillWithZeros : Prop :=
  ∀ (c : Config) (a : Arch c.wb) (s : Operand) (d : Reg), s.wf = true →
    (∃ t, exec (.shl s d) ⟨c, a⟩ = .next ⟨c, t⟩ ∧ a.Frame [d] t ∧
      (t.readReg d).toNat = (a.readReg d).toNat * 2 ^ a.operandNat s % 2 ^ (8 * c.wb)) ∧
    (∃ t, exec (.shr s d) ⟨c, a⟩ = .next ⟨c, t⟩ ∧ a.Frame [d] t ∧
      (t.readReg d).toNat = (a.readReg d).toNat / 2 ^ a.operandNat s)

/-- ASR divides the two's-complement value by the power of two of the amount, rounding down; an
amount of `W` or more leaves the sign in every bit (42_arithmetic.md R155). -/
def Obligations.AsrFillsWithTheSign : Prop :=
  ∀ (c : Config) (a : Arch c.wb) (s : Operand) (d : Reg), s.wf = true →
    ∃ t, exec (.asr s d) ⟨c, a⟩ = .next ⟨c, t⟩ ∧ a.Frame [d] t ∧
      (t.readReg d).toInt = (a.readReg d).toInt / 2 ^ a.operandNat s

/-- ROL and ROR move every bit by the amount modulo `W` and lose none
(42_arithmetic.md R156, R157). -/
def Obligations.RotatesLoseNoBit : Prop :=
  ∀ (c : Config) (a : Arch c.wb) (s : Operand) (d : Reg), s.wf = true →
    (∃ t, exec (.rol s d) ⟨c, a⟩ = .next ⟨c, t⟩ ∧ a.Frame [d] t ∧
      ∀ k, k < 8 * c.wb → (t.readReg d).getLsbD ((k + a.operandNat s) % (8 * c.wb)) =
        (a.readReg d).getLsbD k) ∧
    (∃ t, exec (.ror s d) ⟨c, a⟩ = .next ⟨c, t⟩ ∧ a.Frame [d] t ∧
      ∀ k, k < 8 * c.wb → (t.readReg d).getLsbD k =
        (a.readReg d).getLsbD ((k + a.operandNat s) % (8 * c.wb)))

/-- CMP writes 1 when the comparison of the corrected table holds and 0 when it does not
(43_comparison.md R170, R171). -/
def Obligations.CmpWritesTheTruthOfTheRelation : Prop :=
  ∀ (c : Config) (a : Arch c.wb) (f : CmpFlags) (s d : Reg),
    ∃ t, exec (.cmp f s d) ⟨c, a⟩ = .next ⟨c, t⟩ ∧ a.Frame [d] t ∧
      (namedRelation (relationNumber f) (a.readReg d) (a.readReg s) → (t.readReg d).toNat = 1) ∧
      (¬ namedRelation (relationNumber f) (a.readReg d) (a.readReg s) → (t.readReg d).toNat = 0)

/-! ### Jumps, branches, loops -/

/-- JC: when the register is nonzero the PC moves by `S` symbols from the next instruction, else it
stays (44_jumps_and_branches.md R180). -/
def Obligations.JcJumpsWhenNonzero : Prop :=
  ∀ (c : Config) (a : Arch c.wb) (r : Reg) (off : Int),
    ∃ t, exec (.jc r off) ⟨c, a⟩ = .next ⟨c, t⟩ ∧ a.Frame [0] t ∧
      (a.readReg r ≠ 0 → (t.pc.toNat : Int) = (a.pc.toNat + 2 * off) % 2 ^ (8 * c.wb)) ∧
      (a.readReg r = 0 → t.pc = a.pc)

/-- The four short-range branches: the PC moves by the offset when the test of the value register
against zero comes out true, else it stays (44_jumps_and_branches.md R182 to R185). -/
def Obligations.BranchesTestAgainstZero : Prop :=
  ∀ (c : Config) (a : Arch c.wb) (o : BranchOffset) (v : Reg),
    (∃ t, exec (.bz o v) ⟨c, a⟩ = .next ⟨c, t⟩ ∧ a.Frame [0] t ∧
      ((a.readReg v).toInt = 0 → (t.pc.toNat : Int) = (a.pc.toNat + a.branchUnits o) % 2 ^ (8 * c.wb)) ∧
      ((a.readReg v).toInt ≠ 0 → t.pc = a.pc)) ∧
    (∃ t, exec (.bnz o v) ⟨c, a⟩ = .next ⟨c, t⟩ ∧ a.Frame [0] t ∧
      ((a.readReg v).toInt ≠ 0 → (t.pc.toNat : Int) = (a.pc.toNat + a.branchUnits o) % 2 ^ (8 * c.wb)) ∧
      ((a.readReg v).toInt = 0 → t.pc = a.pc)) ∧
    (∃ t, exec (.bgtz o v) ⟨c, a⟩ = .next ⟨c, t⟩ ∧ a.Frame [0] t ∧
      (0 < (a.readReg v).toInt → (t.pc.toNat : Int) = (a.pc.toNat + a.branchUnits o) % 2 ^ (8 * c.wb)) ∧
      ((a.readReg v).toInt ≤ 0 → t.pc = a.pc)) ∧
    (∃ t, exec (.blez o v) ⟨c, a⟩ = .next ⟨c, t⟩ ∧ a.Frame [0] t ∧
      ((a.readReg v).toInt ≤ 0 → (t.pc.toNat : Int) = (a.pc.toNat + a.branchUnits o) % 2 ^ (8 * c.wb)) ∧
      (0 < (a.readReg v).toInt → t.pc = a.pc))

/-- LOOPI and LOOP: the counter goes down by one modulo 2^`W`, and while it is nonzero the PC moves;
LOOPI reads its offset register after the decrement, and a counter that is the PC itself is
decremented as the PC (45_misc_two_register.md R196, R198). -/
def Obligations.LoopsCountDownAndBranch : Prop :=
  ∀ (c : Config) (a : Arch c.wb) (b r : Reg) (off : Int) (f : Contents),
    f = a.contents.put r (((a.readReg r).toNat + (2 ^ (8 * c.wb) - 1)) % 2 ^ (8 * c.wb)) →
    (∃ t, exec (.loopI b r) ⟨c, a⟩ = .next ⟨c, t⟩ ∧ a.Frame [0, r] t ∧
      (f r = 0 → t.contents = f) ∧
      (f r ≠ 0 → t.contents = f.put 0 ((f 0 + f b) % 2 ^ (8 * c.wb)))) ∧
    (∃ t, exec (.loop off r) ⟨c, a⟩ = .next ⟨c, t⟩ ∧ a.Frame [0, r] t ∧
      (f r = 0 → t.contents = f) ∧
      (f r ≠ 0 → t.contents = f.put 0 (((f 0 + 2 * off : Int) % 2 ^ (8 * c.wb)).toNat)))

/-- Jump offsets given as immediates count symbols and so keep the parity of the PC
(20_memory.md R76). -/
def Obligations.ImmediateJumpsKeepThePcEven : Prop :=
  ∀ (c : Config) (a t : Arch c.wb) (r : Reg) (k : Int) (i : Instr),
    (i = .jc r k ∨ i = .bz (.imm k) r ∨ i = .bnz (.imm k) r ∨ i = .bgtz (.imm k) r ∨
      i = .blez (.imm k) r ∨ (i = .loop k r ∧ r ≠ 0)) →
    exec i ⟨c, a⟩ = .next ⟨c, t⟩ → t.pc.toNat % 2 = a.pc.toNat % 2

/-! ### Miscellaneous two-register instructions, Subword, Small Immediate -/

/-- SWAP exchanges two registers; both old values are read before either write
(45_misc_two_register.md R190). -/
def Obligations.SwapExchangesTwoRegisters : Prop :=
  ∀ (c : Config) (a : Arch c.wb) (x y : Reg),
    ∃ t, exec (.swap y x) ⟨c, a⟩ = .next ⟨c, t⟩ ∧ a.Frame [x, y] t ∧
      t.readReg x = a.readReg y ∧ t.readReg y = a.readReg x

/-- MUL keeps the low word of the product; without the multiplier it raises Illegal instruction
(45_misc_two_register.md R191). -/
def Obligations.MulKeepsTheLowWord : Prop :=
  ∀ (c : Config) (a : Arch c.wb) (y x : Reg),
    ∃ t, exec (.mul y x) ⟨c, a⟩ = .next ⟨c, t⟩ ∧
      (c.hasMul = true → a.Frame [x] t ∧
        (t.readReg x).toNat = (a.readReg x).toNat * (a.readReg y).toNat % 2 ^ (8 * c.wb)) ∧
      (c.hasMul = false → a.Raised t 1)

/-- DIV: without the multiplier Illegal instruction, by zero Divide by zero, signed most negative by
-1 refused, else the quotient, rounded toward zero (45_misc_two_register.md R192). -/
def Obligations.DivWritesTheQuotient : Prop :=
  ∀ (c : Config) (a : Arch c.wb) (y x : Reg),
    if c.hasMul = false then ∃ t, exec (.div y x) ⟨c, a⟩ = .next ⟨c, t⟩ ∧ a.Raised t 1
    else if (a.readReg y).toNat = 0 then ∃ t, exec (.div y x) ⟨c, a⟩ = .next ⟨c, t⟩ ∧ a.Raised t 0
    else if c.mulDivSigned = false then
      ∃ t, exec (.div y x) ⟨c, a⟩ = .next ⟨c, t⟩ ∧ a.Frame [x] t ∧
        (t.readReg x).toNat = (a.readReg x).toNat / (a.readReg y).toNat
    else if (a.readReg x).toInt = -2 ^ (8 * c.wb - 1) ∧ (a.readReg y).toInt = -1 then
      exec (.div y x) ⟨c, a⟩ = .refused .divideOverflow
    else
      ∃ t, exec (.div y x) ⟨c, a⟩ = .next ⟨c, t⟩ ∧ a.Frame [x] t ∧
        (t.readReg x).toInt = (a.readReg x).toInt.tdiv (a.readReg y).toInt

/-- MOD: the same gates as DIV, then the remainder, with the dividend's sign
(45_misc_two_register.md R193). -/
def Obligations.ModWritesTheRemainder : Prop :=
  ∀ (c : Config) (a : Arch c.wb) (y x : Reg),
    if c.hasMul = false then ∃ t, exec (.mod y x) ⟨c, a⟩ = .next ⟨c, t⟩ ∧ a.Raised t 1
    else if (a.readReg y).toNat = 0 then ∃ t, exec (.mod y x) ⟨c, a⟩ = .next ⟨c, t⟩ ∧ a.Raised t 0
    else if c.mulDivSigned = false then
      ∃ t, exec (.mod y x) ⟨c, a⟩ = .next ⟨c, t⟩ ∧ a.Frame [x] t ∧
        (t.readReg x).toNat = (a.readReg x).toNat % (a.readReg y).toNat
    else if (a.readReg x).toInt = -2 ^ (8 * c.wb - 1) ∧ (a.readReg y).toInt = -1 then
      exec (.mod y x) ⟨c, a⟩ = .refused .divideOverflow
    else
      ∃ t, exec (.mod y x) ⟨c, a⟩ = .next ⟨c, t⟩ ∧ a.Frame [x] t ∧
        (t.readReg x).toInt = (a.readReg x).toInt.tmod (a.readReg y).toInt

/-- The quotient of DIV times the divisor plus the remainder of MOD is the dividend, signed or
unsigned (45_misc_two_register.md R193, corner case (a)). -/
def Obligations.QuotientAndRemainderRebuildTheDividend : Prop :=
  ∀ (c : Config) (a t u : Arch c.wb) (y x : Reg),
    c.hasMul = true → a.readReg y ≠ 0 →
    exec (.div y x) ⟨c, a⟩ = .next ⟨c, t⟩ → exec (.mod y x) ⟨c, a⟩ = .next ⟨c, u⟩ →
    t.readReg x * a.readReg y + u.readReg x = a.readReg x

/-- LOADREG reads, and STOREREG writes, the register whose number is in `y`; a number above 15 is
refused (45_misc_two_register.md R194, R195). -/
def Obligations.RegisterFileIsReachedByNumber : Prop :=
  ∀ (c : Config) (a : Arch c.wb) (y x : Reg),
    (∀ k : Reg, (a.readReg y).toNat = k.val →
      (∃ t, exec (.loadReg y x) ⟨c, a⟩ = .next ⟨c, t⟩ ∧ a.Frame [x] t ∧ t.readReg x = a.readReg k) ∧
      (∃ t, exec (.storeReg y x) ⟨c, a⟩ = .next ⟨c, t⟩ ∧ a.Frame [k] t ∧ t.readReg k = a.readReg x)) ∧
    (15 < (a.readReg y).toNat →
      exec (.loadReg y x) ⟨c, a⟩ = .refused (.registerIndex (a.readReg y).toNat) ∧
      exec (.storeReg y x) ⟨c, a⟩ = .refused (.registerIndex (a.readReg y).toNat))

/-- SUBW: the selected bytes come down to the bottom, positions beyond the register being 0, and the
rest is 0 or copies of the subword's highest bit (46_subword.md R210). -/
def Obligations.SubwSelectsAndExtendsBytes : Prop :=
  ∀ (c : Config) (a : Arch c.wb) (sx : Bool) (count index : Nat) (d : Reg),
    1 ≤ count → count ≤ 8 → index < 16 →
    ∃ t, exec (.subw sx count index d) ⟨c, a⟩ = .next ⟨c, t⟩ ∧ a.Frame [d] t ∧
      ∀ k, k < 8 * c.wb →
        (t.readReg d).getLsbD k =
          if k < 8 * count then
            if 8 * index + k ≤ 8 * c.wb - 1 then (a.readReg d).getLsbD (8 * index + k) else false
          else if sx = true ∧ 8 * index + (8 * count - 1) ≤ 8 * c.wb - 1 then
            (a.readReg d).getLsbD (8 * index + (8 * count - 1))
          else false

/-- SI writes the whole register with the unsigned immediate (48_immediate_and_data_transfer.md
R230). -/
def Obligations.SmallImmediateIsZeroExtended : Prop :=
  ∀ (c : Config) (a : Arch c.wb) (v : Nat) (d : Reg), v < 256 →
    ∃ t, exec (.si v d) ⟨c, a⟩ = .next ⟨c, t⟩ ∧ a.Frame [d] t ∧ (t.readReg d).toNat = v

/-! ### System Registers -/

/-- RSR: each readable System Register's value, SR 5 excepted, whose reading is any value; the
write-only and the undefined ones are refused (47_system_register_access.md R220). For SR 5 the
statement names no value. -/
def Obligations.RsrReadsEverySystemRegister : Prop :=
  ∀ (c : Config) (a : Arch c.wb) (r : Reg) (k : Nat),
    (∀ v, a.sysRegNat c k = some v →
      ∃ t, exec (.rsr r k) ⟨c, a⟩ = .next ⟨c, t⟩ ∧ a.Frame [r] t ∧
        (t.readReg r).toNat = v % 2 ^ (8 * c.wb)) ∧
    (k = 5 → ∃ t, exec (.rsr r k) ⟨c, a⟩ = .next ⟨c, t⟩ ∧
      Arch.Frame [r] { a with draws := a.draws + 1 } t) ∧
    (k = 3 ∨ k = 10 → exec (.rsr r k) ⟨c, a⟩ = .refused (.readOfWriteOnly k)) ∧
    (¬ sysRegDefined k → exec (.rsr r k) ⟨c, a⟩ = .refused (.undefinedSystemRegister k))

/-- WSR: what each System Register takes of the written word; the read-only and the undefined ones
are refused (47_system_register_access.md R221). -/
def Obligations.WsrWritesEverySystemRegister : Prop :=
  ∀ (c : Config) (a : Arch c.wb) (r : Reg) (v : Word c.wb), v = a.readReg r →
    (∃ t, exec (.wsr r 2) ⟨c, a⟩ = .next ⟨c, t⟩ ∧ Arch.Frame [] { a with handler := v } t) ∧
    (v.toNat = 1 → ∃ t, exec (.wsr r 3) ⟨c, a⟩ = .next ⟨c, t⟩ ∧
      Arch.Frame [] { a with halted := true } t) ∧
    (v.toNat = 0 → ∃ t, exec (.wsr r 3) ⟨c, a⟩ = .next ⟨c, t⟩ ∧ a.Frame [] t) ∧
    (1 < v.toNat → exec (.wsr r 3) ⟨c, a⟩ = .refused .powerStateReserved) ∧
    (∃ t, exec (.wsr r 4) ⟨c, a⟩ = .next ⟨c, t⟩ ∧ Arch.Frame [] { a with retired := v } t) ∧
    (∃ t, exec (.wsr r 5) ⟨c, a⟩ = .next ⟨c, t⟩ ∧ Arch.Frame [] { a with cycles := v } t) ∧
    (∃ t, exec (.wsr r 8) ⟨c, a⟩ = .next ⟨c, t⟩ ∧ Arch.Frame [] { a with continuation := v } t) ∧
    (∃ t, exec (.wsr r 9) ⟨c, a⟩ = .next ⟨c, t⟩ ∧ Arch.Frame [] { a with cause := v } t) ∧
    (c.debugPort = .emit → ∃ t, exec (.wsr r 10) ⟨c, a⟩ = .next ⟨c, t⟩ ∧
      Arch.Frame [] { a with debugOut := a.debugOut ++ [BitVec.ofNat 8 (v.toNat % 256)] } t) ∧
    (c.debugPort = .ignore → ∃ t, exec (.wsr r 10) ⟨c, a⟩ = .next ⟨c, t⟩ ∧ a.Frame [] t) ∧
    (∃ t, exec (.wsr r 11) ⟨c, a⟩ = .next ⟨c, t⟩ ∧
      Arch.Frame [] { a with extEn := v.toNat % 2 == 1, regExc := v.toNat / 2 % 2 == 1 } t) ∧
    (∃ t, exec (.wsr r 63) ⟨c, a⟩ = .next ⟨c, t⟩ ∧
      Arch.Frame [] { a with ie := v.toNat % 2 == 1 } t) ∧
    (∀ k, k = 0 ∨ k = 1 ∨ k = 6 ∨ k = 7 → exec (.wsr r k) ⟨c, a⟩ = .refused (.writeOfReadOnly k)) ∧
    (∀ k, ¬ sysRegDefined k → exec (.wsr r k) ⟨c, a⟩ = .refused (.undefinedSystemRegister k))

/-! ### Data Transfer and memory -/

/-- XF in every form and mode does what the rule's pseudocode says, the whole source side before the
whole destination side: the registers, the value moved, the octets stored, and nothing else
(48_immediate_and_data_transfer.md R231). A load of an octet nothing has written is not covered
(log 5). How a store that a device answers is recorded, and what becomes of one that lies partly in
RAM, is the model's choice (20_memory.md R79; log 12). -/
def Obligations.TransferFollowsTheRule : Prop :=
  ∀ (c : Config) (a : Arch c.wb) (src dst : XfOperand) (f : Contents) (from_ to_ : Word c.wb),
    f = a.contents →
    from_.toNat = f.before c.wb src src.reg → to_.toNat = f.atStore c.wb src dst dst.reg →
    (src.indirect = true → a.Readable c from_) → (dst.indirect = true → Writable c to_) →
    ∃ t v, exec (.xf src dst) ⟨c, a⟩ = .next ⟨c, t⟩ ∧
      (if src.indirect = true then a.ReadsAs c from_ v else v = from_) ∧
      t.contents = f.atEnd c.wb src dst v.toNat ∧
      (if dst.indirect = true then a.StoredAt c to_ v t
       else a.KeepsMemory t ∧ t.deviceOut = a.deviceOut) ∧
      Arch.Keeps [src.reg, dst.reg]
        { a with
          deviceOut := t.deviceOut
          draws := a.draws + if src.indirect && touchesDevice c from_ c.wb then 1 else 0 } t

/-- LOADOFF loads the word at the base register plus the signed offset
(49_long_instructions.md R252). -/
def Obligations.LoadOffLoadsTheWord : Prop :=
  ∀ (c : Config) (a : Arch c.wb) (x y : Reg) (off : Int),
    ((a.offsetAddress y off).toNat : Int) = ((a.readReg y).toNat + off) % 2 ^ (8 * c.wb) ∧
    (a.Readable c (a.offsetAddress y off) →
      ∃ t, exec (.loadOff x y off) ⟨c, a⟩ = .next ⟨c, t⟩ ∧
        a.ReadsAs c (a.offsetAddress y off) (t.readReg x) ∧
        Arch.Frame [x]
          { a with
            draws := a.draws + if touchesDevice c (a.offsetAddress y off) c.wb then 1 else 0 } t)

/-- STOREOFF stores the register's word at the base register plus the signed offset, and nothing
else (49_long_instructions.md R253). How a store that a device answers is recorded, and what becomes
of one that lies partly in RAM, is the model's choice (20_memory.md R79; log 12). -/
def Obligations.StoreOffStoresTheWord : Prop :=
  ∀ (c : Config) (a : Arch c.wb) (x y : Reg) (off : Int),
    ((a.offsetAddress y off).toNat : Int) = ((a.readReg y).toNat + off) % 2 ^ (8 * c.wb) ∧
    (Writable c (a.offsetAddress y off) →
      ∃ t, exec (.storeOff x y off) ⟨c, a⟩ = .next ⟨c, t⟩ ∧
        a.StoredAt c (a.offsetAddress y off) (a.readReg x) t ∧
        Arch.Keeps [] { a with deviceOut := t.deviceOut } t)

/-- A data access at an address that is no multiple of the word's octets is refused: LOADOFF,
STOREOFF, the source side of XF, and the destination side of XF when the source side, direct or
indirect, goes through (20_memory.md R75). -/
def Obligations.MisalignedAccessesAreRefused : Prop :=
  ∀ (c : Config) (a : Arch c.wb) (x y : Reg) (off : Int) (src dst : XfOperand) (from_ : Word c.wb),
    ((a.offsetAddress y off).toNat % c.wb ≠ 0 →
      exec (.loadOff x y off) ⟨c, a⟩ = .refused (.misalignedAccess (a.offsetAddress y off).toNat) ∧
      exec (.storeOff x y off) ⟨c, a⟩ = .refused (.misalignedAccess (a.offsetAddress y off).toNat)) ∧
    (src.indirect = true → a.contents.before c.wb src src.reg % c.wb ≠ 0 →
      exec (.xf src dst) ⟨c, a⟩ =
        .refused (.misalignedAccess (a.contents.before c.wb src src.reg))) ∧
    (from_.toNat = a.contents.before c.wb src src.reg →
      (src.indirect = true → a.Readable c from_) → dst.indirect = true →
      a.contents.atStore c.wb src dst dst.reg % c.wb ≠ 0 →
      exec (.xf src dst) ⟨c, a⟩ =
        .refused (.misalignedAccess (a.contents.atStore c.wb src dst dst.reg)))

/-- An aligned load, by LOADOFF or by XF, faults at its first octet that cannot be read and names its
address: `MEM_MAP` has nothing there, or it has RAM or ROM that nothing has written
(20_memory.md R80; 10_state.md R54). The two faults are the model's choice (log 5, log 14). -/
def Obligations.LoadsOfNothingFault : Prop :=
  ∀ (c : Config) (a : Arch c.wb) (addr : Word c.wb) (j : Nat) (f : Fault),
    addr.toNat % c.wb = 0 → j < c.wb →
    (∀ i, i < j → a.OctetReadable c (octetAddress addr i)) →
    a.ReadFault c (octetAddress addr j) f →
    (∀ x y off, a.offsetAddress y off = addr → exec (.loadOff x y off) ⟨c, a⟩ = .fault f) ∧
    (∀ src dst, src.indirect = true → addr.toNat = a.contents.before c.wb src src.reg →
      exec (.xf src dst) ⟨c, a⟩ = .fault f)

/-- An aligned store, by STOREOFF or by XF whose source side goes through, stops at its first octet
that cannot be stored to and names its address: a fault where `MEM_MAP` has nothing, a refusal where
it has ROM (20_memory.md R80). The two stops are the model's choice (log 13, log 14). -/
def Obligations.StoresToNothingOrRomStop : Prop :=
  ∀ (c : Config) (a : Arch c.wb) (addr : Word c.wb) (j : Nat) (e : Stop),
    addr.toNat % c.wb = 0 → j < c.wb →
    (∀ i, i < j → OctetWritable c (octetAddress addr i)) →
    StoreStop c (octetAddress addr j) e →
    (∀ x y off, a.offsetAddress y off = addr → exec (.storeOff x y off) ⟨c, a⟩ = e.outcome) ∧
    (∀ (src dst : XfOperand) (from_ : Word c.wb),
      from_.toNat = a.contents.before c.wb src src.reg →
      (src.indirect = true → a.Readable c from_) → dst.indirect = true →
      addr.toNat = a.contents.atStore c.wb src dst dst.reg →
      exec (.xf src dst) ⟨c, a⟩ = e.outcome)

/-- A step faults when it needs a symbol that cannot be fetched: after the symbols `ss` that memory
holds at the PC, of which the first announces more, the first octet of the next symbol that cannot be
read is named (10_state.md R25, R54; 20_memory.md R80). The two faults are the model's choice
(log 5, log 14, log 23). -/
def Obligations.FetchesOfNothingFault : Prop :=
  ∀ (c : Config) (a : Arch c.wb) (ss : List Symbol) (j : Nat) (f : Fault),
    a.halted = false → a.externalException = none → a.HoldsCode c ss →
    (∀ s0 later, ss = s0 :: later →
      later.length < if 0xF000 ≤ s0.toNat then s0.toNat / 256 % 16 else 0) →
    j < 2 →
    (∀ i, i < j → a.OctetReadable c (octetAddress (symbolAddress a.pc ss.length) i)) →
    a.ReadFault c (octetAddress (symbolAddress a.pc ss.length) j) f →
    step ⟨c, a⟩ = .fault f

/-- A word stored with STOREOFF is the word a LOADOFF of the same address then loads
(20_memory.md R82). -/
def Obligations.LoadAfterStoreGivesTheStoredWord : Prop :=
  ∀ (c : Config) (a : Arch c.wb) (x y z : Reg) (off : Int),
    (a.offsetAddress y off).toNat % c.wb = 0 →
    (∀ j, j < c.wb → regionKind c.memMap (octetAddress (a.offsetAddress y off) j) = some .ram) →
    ∃ t u, exec (.storeOff x y off) ⟨c, a⟩ = .next ⟨c, t⟩ ∧
      exec (.loadOff z y off) ⟨c, t⟩ = .next ⟨c, u⟩ ∧ u.readReg z = a.readReg x

/-- A push with `XF *-P, R` and a pop with `XF Q, *P+` move the word and restore the pointer
(48_immediate_and_data_transfer.md R231, R232). -/
def Obligations.PopAfterPushGivesThePushedWord : Prop :=
  ∀ (c : Config) (a : Arch c.wb) (p r q : Reg), q ≠ p →
    (a.readReg p - BitVec.ofNat (8 * c.wb) c.wb).toNat % c.wb = 0 →
    (∀ j, j < c.wb → regionKind c.memMap
      (octetAddress (a.readReg p - BitVec.ofNat (8 * c.wb) c.wb) j) = some .ram) →
    ∃ t u, exec (.xf ⟨false, .plain, r⟩ ⟨true, .autoDecrement, p⟩) ⟨c, a⟩ = .next ⟨c, t⟩ ∧
      exec (.xf ⟨true, .autoIncrement, p⟩ ⟨false, .plain, q⟩) ⟨c, t⟩ = .next ⟨c, u⟩ ∧
      u.readReg q = a.readReg r ∧ u.readReg p = a.readReg p

/-! ### Long multiply and divide -/

/-- MULTIPLY writes the double-width product, the high word to `H`; without the multiplier it raises
Illegal instruction, and two results to one register are refused (49_long_instructions.md R250). -/
def Obligations.MultiplyWritesTheDoubleProduct : Prop :=
  ∀ (c : Config) (a : Arch c.wb) (x y h lo : Reg),
    if c.hasMul = false then ∃ t, exec (.multiply x y h lo) ⟨c, a⟩ = .next ⟨c, t⟩ ∧ a.Raised t 1
    else if h = lo then exec (.multiply x y h lo) ⟨c, a⟩ = .refused (.twoResultsOneRegister h)
    else
      ∃ t, exec (.multiply x y h lo) ⟨c, a⟩ = .next ⟨c, t⟩ ∧ a.Frame [h, lo] t ∧
        (c.mulDivSigned = false →
          (t.readReg h).toNat * 2 ^ (8 * c.wb) + (t.readReg lo).toNat =
            (a.readReg x).toNat * (a.readReg y).toNat) ∧
        (c.mulDivSigned = true →
          (t.readReg h).toInt * 2 ^ (8 * c.wb) + (t.readReg lo).toNat =
            (a.readReg x).toInt * (a.readReg y).toInt)

/-- DIVMOD: the pair `H`, `L` divided by the old `A` gives the new `A`, its remainder by the old `B`
the new `B`; its gates and refusals stand in the rule's order (49_long_instructions.md R251). -/
def Obligations.DivModDividesTheDoubleWord : Prop :=
  ∀ (c : Config) (a : Arch c.wb) (x y h lo : Reg) (top : Int) (m : Int) (k : Int),
    top = (if c.mulDivSigned = true then (a.readReg h).toInt else (a.readReg h).toNat) *
      2 ^ (8 * c.wb) + (a.readReg lo).toNat →
    m = (if c.mulDivSigned = true then (a.readReg x).toInt else (a.readReg x).toNat) →
    k = (if c.mulDivSigned = true then (a.readReg y).toInt else (a.readReg y).toNat) →
    if c.hasMul = false then ∃ t, exec (.divMod x y h lo) ⟨c, a⟩ = .next ⟨c, t⟩ ∧ a.Raised t 1
    else if x = y then exec (.divMod x y h lo) ⟨c, a⟩ = .refused (.twoResultsOneRegister x)
    else if m = 0 ∨ k = 0 then ∃ t, exec (.divMod x y h lo) ⟨c, a⟩ = .next ⟨c, t⟩ ∧ a.Raised t 0
    else if c.mulDivSigned = false then
      if top / m < 2 ^ (8 * c.wb) then
        ∃ t, exec (.divMod x y h lo) ⟨c, a⟩ = .next ⟨c, t⟩ ∧ a.Frame [x, y] t ∧
          ((t.readReg x).toNat : Int) = top / m ∧ ((t.readReg y).toNat : Int) = top % k
      else exec (.divMod x y h lo) ⟨c, a⟩ = .refused .quotientOverflow
    else if -2 ^ (8 * c.wb - 1) ≤ top.tdiv m ∧ top.tdiv m ≤ 2 ^ (8 * c.wb - 1) - 1 then
      ∃ t, exec (.divMod x y h lo) ⟨c, a⟩ = .next ⟨c, t⟩ ∧ a.Frame [x, y] t ∧
        (t.readReg x).toInt = top.tdiv m ∧ (t.readReg y).toInt = top.tmod k
    else exec (.divMod x y h lo) ⟨c, a⟩ = .refused .quotientOverflow

/-- On a model without the multiplier MUL, DIV, MOD, MULTIPLY and DIVMOD raise Illegal instruction,
whatever their operands hold (45_misc_two_register.md R197, 49_long_instructions.md R255, where
decision D13 extends it to the long forms; log 19). -/
def Obligations.WithoutMultiplierTheFiveAreIllegal : Prop :=
  ∀ (c : Config) (a : Arch c.wb) (x y h lo : Reg) (i : Instr), c.hasMul = false →
    (i = .mul y x ∨ i = .div y x ∨ i = .mod y x ∨ i = .multiply x y h lo ∨ i = .divMod x y h lo) →
    ∃ t, exec i ⟨c, a⟩ = .next ⟨c, t⟩ ∧ a.Raised t 1

/-- A zero divisor of DIV, MOD or DIVMOD raises Divide by zero and leaves every destination
unchanged (60_exceptions.md R271). -/
def Obligations.ZeroDivisorsRaiseDivideByZero : Prop :=
  ∀ (c : Config) (a : Arch c.wb) (x y h lo : Reg) (i : Instr), c.hasMul = true →
    ((i = .div y x ∧ a.readReg y = 0) ∨ (i = .mod y x ∧ a.readReg y = 0) ∨
      (i = .divMod x y h lo ∧ x ≠ y ∧ (a.readReg x = 0 ∨ a.readReg y = 0))) →
    ∃ t, exec i ⟨c, a⟩ = .next ⟨c, t⟩ ∧ a.Raised t 0

/-! ### The whole machine -/

/-- SR 4 counts every instruction that completes without entering the handler, and no other: what is
counted left the exception registers as they were, and what made the entry is not counted. A write of
`v` to SR 4 leaves `v + 1` (10_state.md R27). -/
def Obligations.RetiredCountsEveryCompletion : Prop :=
  ∀ (c : Config) (a t : Arch c.wb) (i : Instr), exec i ⟨c, a⟩ = .next ⟨c, t⟩ →
    (a.NotEntered t i ∧ ∃ r, i = .wsr r 4 ∧ t.retired = a.readReg r + 1) ∨
    (a.NotEntered t i ∧ (∀ r, i ≠ .wsr r 4) ∧ t.retired = a.retired + 1) ∨
    (a.ie = true ∧ t.retired = a.retired ∧ ∃ code, a.Entered t true code a.pc)

/-- Registered exceptions are precise: whenever an instruction other than a write to SR 63 turns
`IE` off, it has done the entry sequence with cause 0 or 1 and nothing else
(60_exceptions.md R277, R272, R271). -/
def Obligations.RegisteredExceptionsArePrecise : Prop :=
  ∀ (c : Config) (a t : Arch c.wb) (i : Instr), exec i ⟨c, a⟩ = .next ⟨c, t⟩ →
    (∀ r, i ≠ .wsr r 63) → a.ie = true → t.ie = false →
    (a.Entered t true 0 a.pc ∨ a.Entered t true 1 a.pc) ∧ t.pins = a.pins ∧ t.draws = a.draws

/-- Only ERET and a write of a value with bit 0 set to SR 63 turn exceptions on: a step that does so
has fetched, decoded and executed one of the two (10_state.md R46). -/
def Obligations.OnlyEretAndSr63EnableExceptions : Prop :=
  ∀ (c : Config) (a t : Arch c.wb), step ⟨c, a⟩ = .next ⟨c, t⟩ → a.ie = false → t.ie = true →
    ∃ ss b i rest, a.passBoundary.fetch c = .ok (ss, b) ∧ decode ss = .ok (i, rest) ∧
      exec i ⟨c, b⟩ = .next ⟨c, t⟩ ∧
      (i = .eret ∨ ∃ r, i = .wsr r 63 ∧ (b.readReg r).getLsbD 0 = true)

/-- SR 2 and the external enable are written by software only: a step that changes one of them has
fetched, decoded and executed a write of SR 2 or of SR 11 (10_state.md R36, R45). -/
def Obligations.HandlerAndEnableAreWrittenBySoftwareOnly : Prop :=
  ∀ (c : Config) (a t : Arch c.wb), step ⟨c, a⟩ = .next ⟨c, t⟩ →
    (t.handler ≠ a.handler → ∃ ss b r rest, a.passBoundary.fetch c = .ok (ss, b) ∧
      decode ss = .ok (.wsr r 2, rest) ∧ exec (.wsr r 2) ⟨c, b⟩ = .next ⟨c, t⟩ ∧
      t.handler = b.readReg r) ∧
    (t.extEn ≠ a.extEn → ∃ ss b r rest, a.passBoundary.fetch c = .ok (ss, b) ∧
      decode ss = .ok (.wsr r 11, rest) ∧ exec (.wsr r 11) ⟨c, b⟩ = .next ⟨c, t⟩ ∧
      t.extEn = (b.readReg r).getLsbD 0)

/-- Of all instructions only STOREOFF and XF with an indirect destination change an octet of memory,
and only at an address that is RAM (20_memory.md R70, R80). That a store to ROM is refused is the
model's choice (log 13). -/
def Obligations.OnlyStoresChangeMemory : Prop :=
  ∀ (c : Config) (a t : Arch c.wb) (i : Instr) (x : Nat), exec i ⟨c, a⟩ = .next ⟨c, t⟩ →
    t.mem.read x ≠ a.mem.read x →
    regionKind c.memMap x = some .ram ∧
    ((∃ r b off, i = .storeOff r b off) ∨ (∃ src dst, i = .xf src dst ∧ dst.indirect = true))

/-- Output is only added to: a step leaves the debug output and the device stores so far as a prefix
(10_state.md R49, 20_memory.md R79). -/
def Obligations.OutputsOnlyGrow : Prop :=
  ∀ (c : Config) (a t : Arch c.wb), step ⟨c, a⟩ = .next ⟨c, t⟩ →
    a.debugOut <+: t.debugOut ∧ a.deviceOut <+: t.deviceOut

/-- No step changes the machine's parameters, so SR 0, SR 1, SR 6 and SR 7 never change
(10_state.md R52). -/
def Obligations.StepKeepsTheParameters : Prop :=
  ∀ (s t : State), step s = .next t → t.cfg = s.cfg

/-- Every step keeps memory in its canonical form and inside the address space (20_memory.md R70).
The form is the model's. -/
def Obligations.StepKeepsTheMemoryForm : Prop :=
  ∀ (s t : State), s.Inv → step s = .next t → t.Inv

/-- The reset state of every implementation has the invariant. -/
def Obligations.ResetHasTheMemoryForm : Prop :=
  State.reset.Inv ∧ ∀ c : Config, (State.resetOf c).Inv

/-- What the spec says of reset: SR 4 and SR 5 are 0, the core is not halted, the debug output is
empty, and the PC, `IE` and SR 11 are the launch parameters (10_state.md R53). -/
def Obligations.ResetLeavesWhatTheSpecStates : Prop :=
  ∀ c : Config,
    (Arch.resetOf c).retired = 0 ∧ (Arch.resetOf c).cycles = 0 ∧ (Arch.resetOf c).halted = false ∧
    (Arch.resetOf c).debugOut = [] ∧ (Arch.resetOf c).pc = BitVec.ofNat _ c.resetPc ∧
    (Arch.resetOf c).ie = c.resetIe ∧ (Arch.resetOf c).extEn = c.resetExtEn ∧
    (Arch.resetOf c).regExc = c.resetRegExc
end

