-- ==== Sys2Proof/Laws/Octets.lean ====
section
/-! SUPPORT. The octets of a value and the value of octets undo each other, in both byte orders. -/

namespace Sys2Proof

@[simp] theorem length_bigEndianOctets (k v : Nat) : (bigEndianOctets k v).length = k := by
  induction k with
  | zero => rfl
  | succ k ih => simp [bigEndianOctets, ih]

@[simp] theorem ByteOrder.length_octets (o : ByteOrder) (k v : Nat) : (o.octets k v).length = k := by
  cases o <;> simp [ByteOrder.octets]

theorem bigEndianValue_lt (bs : List Byte) : bigEndianValue bs < 256 ^ bs.length := by
  induction bs with
  | nil => simp [bigEndianValue]
  | cons b bs ih =>
    have hb : b.toNat < 256 := b.isLt
    have hm : b.toNat * 256 ^ bs.length ≤ 255 * 256 ^ bs.length := Nat.mul_le_mul_right _ (by omega)
    simp only [bigEndianValue, List.length_cons, Nat.pow_succ]
    omega

theorem bigEndianValue_octets (k v : Nat) : bigEndianValue (bigEndianOctets k v) = v % 256 ^ k := by
  induction k with
  | zero => simp [bigEndianOctets, bigEndianValue, Nat.mod_one]
  | succ k ih =>
    have h := Nat.mod_mul (x := v) (a := 256 ^ k) (b := 256)
    simp only [bigEndianOctets, bigEndianValue, ih, length_bigEndianOctets, BitVec.toNat_ofNat, Nat.pow_succ]
    rw [h, Nat.mul_comm, Nat.add_comm]

theorem bigEndianOctets_mod (k v : Nat) (j : Nat) (h : k ≤ j) :
    bigEndianOctets k (v % 256 ^ j) = bigEndianOctets k v := by
  induction k with
  | zero => rfl
  | succ k ih =>
    have hd : v % 256 ^ j / 256 ^ k % 256 = v / 256 ^ k % 256 := by
      obtain ⟨i, rfl⟩ : ∃ i, j = k + (i + 1) := ⟨j - k - 1, by omega⟩
      rw [Nat.pow_add, Nat.mod_mul_right_div_self, Nat.mod_mod_of_dvd]
      exact Dvd.intro_left (256 ^ i) rfl
    have he : BitVec.ofNat 8 (v % 256 ^ j / 256 ^ k) = BitVec.ofNat 8 (v / 256 ^ k) := by
      apply BitVec.eq_of_toNat_eq
      simpa using hd
    simp [bigEndianOctets, ih (by omega), he]

theorem bigEndianOctets_value (bs : List Byte) : bigEndianOctets bs.length (bigEndianValue bs) = bs := by
  induction bs with
  | nil => rfl
  | cons b bs ih =>
    have hlt := bigEndianValue_lt bs
    have hpos : 0 < 256 ^ bs.length := Nat.pow_pos (by decide)
    have hq : (b.toNat * 256 ^ bs.length + bigEndianValue bs) / 256 ^ bs.length = b.toNat := by
      rw [Nat.add_comm, Nat.add_mul_div_right _ _ hpos, Nat.div_eq_of_lt hlt, Nat.zero_add]
    have hr : bigEndianOctets bs.length (b.toNat * 256 ^ bs.length + bigEndianValue bs) = bs := by
      rw [← bigEndianOctets_mod bs.length _ bs.length (Nat.le_refl _), Nat.add_comm, Nat.add_mul_mod_self_right,
        Nat.mod_eq_of_lt hlt, ih]
    simp [bigEndianOctets, bigEndianValue, hq, hr]

/-- Octets taken from a number give back its low part. -/
@[simp] theorem ByteOrder.value_octets (o : ByteOrder) (k v : Nat) : o.value (o.octets k v) = v % 256 ^ k := by
  cases o <;> simp [ByteOrder.value, ByteOrder.octets, bigEndianValue_octets]

/-- A number made of octets has those octets. -/
@[simp] theorem ByteOrder.octets_value (o : ByteOrder) (bs : List Byte) :
    o.octets bs.length (o.value bs) = bs := by
  cases o
  · exact bigEndianOctets_value bs
  · have h := bigEndianOctets_value bs.reverse
    rw [List.length_reverse] at h
    simp [ByteOrder.value, ByteOrder.octets, h]

theorem ByteOrder.value_lt (o : ByteOrder) (bs : List Byte) : o.value bs < 256 ^ bs.length := by
  cases o
  · exact bigEndianValue_lt bs
  · simpa [ByteOrder.value] using bigEndianValue_lt bs.reverse

/-- The octets of a word give back the word. -/
@[simp] theorem ByteOrder.value_octets_word (o : ByteOrder) {n : Nat} (v : BitVec (8 * n)) :
    o.value (o.octets n v.toNat) = v.toNat := by
  rw [ByteOrder.value_octets]
  apply Nat.mod_eq_of_lt
  have h := v.isLt
  rwa [Nat.pow_mul] at h

end Sys2Proof
end

