-- ==== Sys2Proof/Laws/State.lean ====
section
/-! SUPPORT. One lemma per field per update of the state, so that no proof unfolds a record update. -/

namespace Sys2Proof.Machine

variable {n : Nat}

/-! ### Registers -/

/-- What a register write leaves in each register. -/
theorem Arch.readReg_writeReg (a : Arch n) (r q : Reg) (v : Word n) :
    (a.writeReg r v).readReg q = if q = r then v else a.readReg q := by
  simp [Arch.writeReg, Arch.readReg, Vector.getElem_set, Fin.ext_iff, eq_comm]

@[simp] theorem Arch.readReg_writeReg_same (a : Arch n) (r : Reg) (v : Word n) :
    (a.writeReg r v).readReg r = v := by simp [Arch.readReg_writeReg]

@[simp] theorem Arch.readReg_writeReg_other (a : Arch n) {r q : Reg} (v : Word n) (h : q ≠ r) :
    (a.writeReg r v).readReg q = a.readReg q := by simp [Arch.readReg_writeReg, h]

@[simp] theorem Arch.writeReg_readReg (a : Arch n) (r : Reg) : a.writeReg r (a.readReg r) = a := by
  simp [Arch.writeReg, Arch.readReg]

@[simp] theorem Arch.writeReg_writeReg_same (a : Arch n) (r : Reg) (u v : Word n) :
    (a.writeReg r u).writeReg r v = a.writeReg r v := by
  simp [Arch.writeReg]

/-- Two register files that read alike are the same. -/
theorem Arch.gpr_ext {a t : Arch n} (h : ∀ r, t.readReg r = a.readReg r) : t.gpr = a.gpr := by
  apply Vector.ext
  intro i hi
  exact h ⟨i, hi⟩

theorem Arch.pc_eq (a : Arch n) : a.pc = a.readReg 0 := rfl

theorem Arch.jump_eq (a : Arch n) (t : Word n) : a.jump t = a.writeReg 0 t := rfl

/-- An update that leaves the register file alone leaves every register alone. -/
theorem Arch.readReg_of_gpr {a t : Arch n} (h : t.gpr = a.gpr) (r : Reg) : t.readReg r = a.readReg r := by
  simp [Arch.readReg, h]

/-! ### A register write -/

@[simp] theorem Arch.writeReg_handler (a : Arch n) (r : Reg) (v : Word n) : (a.writeReg r v).handler = a.handler := rfl

@[simp] theorem Arch.writeReg_retired (a : Arch n) (r : Reg) (v : Word n) : (a.writeReg r v).retired = a.retired := rfl

@[simp] theorem Arch.writeReg_cycles (a : Arch n) (r : Reg) (v : Word n) : (a.writeReg r v).cycles = a.cycles := rfl

@[simp] theorem Arch.writeReg_continuation (a : Arch n) (r : Reg) (v : Word n) : (a.writeReg r v).continuation = a.continuation := rfl

@[simp] theorem Arch.writeReg_cause (a : Arch n) (r : Reg) (v : Word n) : (a.writeReg r v).cause = a.cause := rfl

@[simp] theorem Arch.writeReg_extEn (a : Arch n) (r : Reg) (v : Word n) : (a.writeReg r v).extEn = a.extEn := rfl

@[simp] theorem Arch.writeReg_regExc (a : Arch n) (r : Reg) (v : Word n) : (a.writeReg r v).regExc = a.regExc := rfl

@[simp] theorem Arch.writeReg_ie (a : Arch n) (r : Reg) (v : Word n) : (a.writeReg r v).ie = a.ie := rfl

@[simp] theorem Arch.writeReg_halted (a : Arch n) (r : Reg) (v : Word n) : (a.writeReg r v).halted = a.halted := rfl

@[simp] theorem Arch.writeReg_debugOut (a : Arch n) (r : Reg) (v : Word n) : (a.writeReg r v).debugOut = a.debugOut := rfl

@[simp] theorem Arch.writeReg_deviceOut (a : Arch n) (r : Reg) (v : Word n) : (a.writeReg r v).deviceOut = a.deviceOut := rfl

@[simp] theorem Arch.writeReg_pins (a : Arch n) (r : Reg) (v : Word n) : (a.writeReg r v).pins = a.pins := rfl

@[simp] theorem Arch.writeReg_draws (a : Arch n) (r : Reg) (v : Word n) : (a.writeReg r v).draws = a.draws := rfl

@[simp] theorem Arch.writeReg_mem (a : Arch n) (r : Reg) (v : Word n) : (a.writeReg r v).mem = a.mem := rfl

/-! ### A jump -/

@[simp] theorem Arch.jump_handler (a : Arch n) (v : Word n) : (a.jump v).handler = a.handler := rfl

@[simp] theorem Arch.jump_retired (a : Arch n) (v : Word n) : (a.jump v).retired = a.retired := rfl

@[simp] theorem Arch.jump_cycles (a : Arch n) (v : Word n) : (a.jump v).cycles = a.cycles := rfl

@[simp] theorem Arch.jump_continuation (a : Arch n) (v : Word n) : (a.jump v).continuation = a.continuation := rfl

@[simp] theorem Arch.jump_cause (a : Arch n) (v : Word n) : (a.jump v).cause = a.cause := rfl

@[simp] theorem Arch.jump_extEn (a : Arch n) (v : Word n) : (a.jump v).extEn = a.extEn := rfl

@[simp] theorem Arch.jump_regExc (a : Arch n) (v : Word n) : (a.jump v).regExc = a.regExc := rfl

@[simp] theorem Arch.jump_ie (a : Arch n) (v : Word n) : (a.jump v).ie = a.ie := rfl

@[simp] theorem Arch.jump_halted (a : Arch n) (v : Word n) : (a.jump v).halted = a.halted := rfl

@[simp] theorem Arch.jump_debugOut (a : Arch n) (v : Word n) : (a.jump v).debugOut = a.debugOut := rfl

@[simp] theorem Arch.jump_deviceOut (a : Arch n) (v : Word n) : (a.jump v).deviceOut = a.deviceOut := rfl

@[simp] theorem Arch.jump_pins (a : Arch n) (v : Word n) : (a.jump v).pins = a.pins := rfl

@[simp] theorem Arch.jump_draws (a : Arch n) (v : Word n) : (a.jump v).draws = a.draws := rfl

@[simp] theorem Arch.jump_mem (a : Arch n) (v : Word n) : (a.jump v).mem = a.mem := rfl

theorem Arch.jump_readReg (a : Arch n) (v : Word n) (q : Reg) :
    (a.jump v).readReg q = if q = 0 then v else a.readReg q := Arch.readReg_writeReg a 0 q v

@[simp] theorem Arch.jump_pc (a : Arch n) (v : Word n) : (a.jump v).pc = v := by
  simp [Arch.pc, Arch.jump]

/-! ### Retirement -/

@[simp] theorem Arch.retire_gpr (a : Arch n) : (a.retire).gpr = a.gpr := rfl

@[simp] theorem Arch.retire_handler (a : Arch n) : (a.retire).handler = a.handler := rfl

@[simp] theorem Arch.retire_retired (a : Arch n) : (a.retire).retired = a.retired + 1 := rfl

@[simp] theorem Arch.retire_cycles (a : Arch n) : (a.retire).cycles = a.cycles := rfl

@[simp] theorem Arch.retire_continuation (a : Arch n) : (a.retire).continuation = a.continuation := rfl

@[simp] theorem Arch.retire_cause (a : Arch n) : (a.retire).cause = a.cause := rfl

@[simp] theorem Arch.retire_extEn (a : Arch n) : (a.retire).extEn = a.extEn := rfl

@[simp] theorem Arch.retire_regExc (a : Arch n) : (a.retire).regExc = a.regExc := rfl

@[simp] theorem Arch.retire_ie (a : Arch n) : (a.retire).ie = a.ie := rfl

@[simp] theorem Arch.retire_halted (a : Arch n) : (a.retire).halted = a.halted := rfl

@[simp] theorem Arch.retire_debugOut (a : Arch n) : (a.retire).debugOut = a.debugOut := rfl

@[simp] theorem Arch.retire_deviceOut (a : Arch n) : (a.retire).deviceOut = a.deviceOut := rfl

@[simp] theorem Arch.retire_pins (a : Arch n) : (a.retire).pins = a.pins := rfl

@[simp] theorem Arch.retire_draws (a : Arch n) : (a.retire).draws = a.draws := rfl

@[simp] theorem Arch.retire_mem (a : Arch n) : (a.retire).mem = a.mem := rfl

@[simp] theorem Arch.retire_readReg (a : Arch n) (r : Reg) : (a.retire).readReg r = a.readReg r := rfl

/-! ### Exception entry -/

@[simp] theorem Arch.enter_handler (a : Arch n) (g : Bool) (k : Word n) : (a.enter g k).handler = a.handler := rfl

@[simp] theorem Arch.enter_retired (a : Arch n) (g : Bool) (k : Word n) : (a.enter g k).retired = a.retired := rfl

@[simp] theorem Arch.enter_cycles (a : Arch n) (g : Bool) (k : Word n) : (a.enter g k).cycles = a.cycles := rfl

@[simp] theorem Arch.enter_continuation (a : Arch n) (g : Bool) (k : Word n) : (a.enter g k).continuation = a.pc := rfl

@[simp] theorem Arch.enter_cause (a : Arch n) (g : Bool) (k : Word n) : (a.enter g k).cause = k := rfl

@[simp] theorem Arch.enter_extEn (a : Arch n) (g : Bool) (k : Word n) : (a.enter g k).extEn = a.extEn := rfl

@[simp] theorem Arch.enter_regExc (a : Arch n) (g : Bool) (k : Word n) : (a.enter g k).regExc = g := rfl

@[simp] theorem Arch.enter_ie (a : Arch n) (g : Bool) (k : Word n) : (a.enter g k).ie = false := rfl

@[simp] theorem Arch.enter_halted (a : Arch n) (g : Bool) (k : Word n) : (a.enter g k).halted = a.halted := rfl

@[simp] theorem Arch.enter_debugOut (a : Arch n) (g : Bool) (k : Word n) : (a.enter g k).debugOut = a.debugOut := rfl

@[simp] theorem Arch.enter_deviceOut (a : Arch n) (g : Bool) (k : Word n) : (a.enter g k).deviceOut = a.deviceOut := rfl

@[simp] theorem Arch.enter_pins (a : Arch n) (g : Bool) (k : Word n) : (a.enter g k).pins = a.pins := rfl

@[simp] theorem Arch.enter_draws (a : Arch n) (g : Bool) (k : Word n) : (a.enter g k).draws = a.draws := rfl

@[simp] theorem Arch.enter_mem (a : Arch n) (g : Bool) (k : Word n) : (a.enter g k).mem = a.mem := rfl

theorem Arch.enter_readReg (a : Arch n) (g : Bool) (k : Word n) (q : Reg) :
    (a.enter g k).readReg q = if q = 0 then a.handler else a.readReg q :=
  Arch.readReg_writeReg a 0 q a.handler

@[simp] theorem Arch.retire_pc (a : Arch n) : a.retire.pc = a.pc := rfl

@[simp] theorem Arch.passBoundary_pc (a : Arch n) : a.passBoundary.pc = a.pc := rfl

@[simp] theorem Arch.enter_pc (a : Arch n) (g : Bool) (k : Word n) : (a.enter g k).pc = a.handler := by
  simp [Arch.pc_eq, Arch.enter_readReg]

@[simp] theorem Arch.exceptionReturn_pc (a : Arch n) : a.exceptionReturn.pc = a.continuation :=
  Arch.readReg_writeReg_same a 0 a.continuation

@[simp] theorem Arch.jumpBy_pc (a : Arch n) (off : Word n) : (a.jumpBy off).pc = a.pc + off := by
  simp [Arch.jumpBy]

/-! ### Raising a registered exception -/

@[simp] theorem Arch.raise_handler (a : Arch n) (q : Cause) : (a.raise q).handler = a.handler := by
  unfold Arch.raise; split <;> rfl

@[simp] theorem Arch.raise_cycles (a : Arch n) (q : Cause) : (a.raise q).cycles = a.cycles := by
  unfold Arch.raise; split <;> rfl

@[simp] theorem Arch.raise_extEn (a : Arch n) (q : Cause) : (a.raise q).extEn = a.extEn := by
  unfold Arch.raise; split <;> rfl

@[simp] theorem Arch.raise_halted (a : Arch n) (q : Cause) : (a.raise q).halted = a.halted := by
  unfold Arch.raise; split <;> rfl

@[simp] theorem Arch.raise_debugOut (a : Arch n) (q : Cause) : (a.raise q).debugOut = a.debugOut := by
  unfold Arch.raise; split <;> rfl

@[simp] theorem Arch.raise_deviceOut (a : Arch n) (q : Cause) : (a.raise q).deviceOut = a.deviceOut := by
  unfold Arch.raise; split <;> rfl

@[simp] theorem Arch.raise_pins (a : Arch n) (q : Cause) : (a.raise q).pins = a.pins := by
  unfold Arch.raise; split <;> rfl

@[simp] theorem Arch.raise_draws (a : Arch n) (q : Cause) : (a.raise q).draws = a.draws := by
  unfold Arch.raise; split <;> rfl

@[simp] theorem Arch.raise_mem (a : Arch n) (q : Cause) : (a.raise q).mem = a.mem := by
  unfold Arch.raise; split <;> rfl

/-! ### Exception Return -/

@[simp] theorem Arch.exceptionReturn_handler (a : Arch n) : (a.exceptionReturn).handler = a.handler := rfl

@[simp] theorem Arch.exceptionReturn_retired (a : Arch n) : (a.exceptionReturn).retired = a.retired := rfl

@[simp] theorem Arch.exceptionReturn_cycles (a : Arch n) : (a.exceptionReturn).cycles = a.cycles := rfl

@[simp] theorem Arch.exceptionReturn_continuation (a : Arch n) : (a.exceptionReturn).continuation = a.continuation := rfl

@[simp] theorem Arch.exceptionReturn_cause (a : Arch n) : (a.exceptionReturn).cause = a.cause := rfl

@[simp] theorem Arch.exceptionReturn_extEn (a : Arch n) : (a.exceptionReturn).extEn = a.extEn := rfl

@[simp] theorem Arch.exceptionReturn_regExc (a : Arch n) : (a.exceptionReturn).regExc = a.regExc := rfl

@[simp] theorem Arch.exceptionReturn_ie (a : Arch n) : (a.exceptionReturn).ie = true := rfl

@[simp] theorem Arch.exceptionReturn_halted (a : Arch n) : (a.exceptionReturn).halted = a.halted := rfl

@[simp] theorem Arch.exceptionReturn_debugOut (a : Arch n) : (a.exceptionReturn).debugOut = a.debugOut := rfl

@[simp] theorem Arch.exceptionReturn_deviceOut (a : Arch n) : (a.exceptionReturn).deviceOut = a.deviceOut := rfl

@[simp] theorem Arch.exceptionReturn_pins (a : Arch n) : (a.exceptionReturn).pins = a.pins := rfl

@[simp] theorem Arch.exceptionReturn_draws (a : Arch n) : (a.exceptionReturn).draws = a.draws := rfl

@[simp] theorem Arch.exceptionReturn_mem (a : Arch n) : (a.exceptionReturn).mem = a.mem := rfl

theorem Arch.exceptionReturn_readReg (a : Arch n) (q : Reg) :
    a.exceptionReturn.readReg q = if q = 0 then a.continuation else a.readReg q :=
  Arch.readReg_writeReg a 0 q a.continuation

/-! ### The boundary input -/

@[simp] theorem Arch.passBoundary_gpr (a : Arch n) : (a.passBoundary).gpr = a.gpr := rfl

@[simp] theorem Arch.passBoundary_handler (a : Arch n) : (a.passBoundary).handler = a.handler := rfl

@[simp] theorem Arch.passBoundary_retired (a : Arch n) : (a.passBoundary).retired = a.retired := rfl

@[simp] theorem Arch.passBoundary_cycles (a : Arch n) : (a.passBoundary).cycles = a.cycles := rfl

@[simp] theorem Arch.passBoundary_continuation (a : Arch n) : (a.passBoundary).continuation = a.continuation := rfl

@[simp] theorem Arch.passBoundary_cause (a : Arch n) : (a.passBoundary).cause = a.cause := rfl

@[simp] theorem Arch.passBoundary_extEn (a : Arch n) : (a.passBoundary).extEn = a.extEn := rfl

@[simp] theorem Arch.passBoundary_regExc (a : Arch n) : (a.passBoundary).regExc = a.regExc := rfl

@[simp] theorem Arch.passBoundary_ie (a : Arch n) : (a.passBoundary).ie = a.ie := rfl

@[simp] theorem Arch.passBoundary_halted (a : Arch n) : (a.passBoundary).halted = a.halted := rfl

@[simp] theorem Arch.passBoundary_debugOut (a : Arch n) : (a.passBoundary).debugOut = a.debugOut := rfl

@[simp] theorem Arch.passBoundary_deviceOut (a : Arch n) : (a.passBoundary).deviceOut = a.deviceOut := rfl

@[simp] theorem Arch.passBoundary_pins (a : Arch n) : (a.passBoundary).pins = a.pins.tail := rfl

@[simp] theorem Arch.passBoundary_draws (a : Arch n) : (a.passBoundary).draws = a.draws := rfl

@[simp] theorem Arch.passBoundary_mem (a : Arch n) : (a.passBoundary).mem = a.mem := rfl

@[simp] theorem Arch.passBoundary_readReg (a : Arch n) (r : Reg) : (a.passBoundary).readReg r = a.readReg r := rfl

/-! ### A draw -/

@[simp] theorem Arch.drawIf_gpr (a : Arch n) (b : Bool) : (a.drawIf b).gpr = a.gpr := by
  unfold Arch.drawIf; split <;> rfl

@[simp] theorem Arch.drawIf_handler (a : Arch n) (b : Bool) : (a.drawIf b).handler = a.handler := by
  unfold Arch.drawIf; split <;> rfl

@[simp] theorem Arch.drawIf_retired (a : Arch n) (b : Bool) : (a.drawIf b).retired = a.retired := by
  unfold Arch.drawIf; split <;> rfl

@[simp] theorem Arch.drawIf_cycles (a : Arch n) (b : Bool) : (a.drawIf b).cycles = a.cycles := by
  unfold Arch.drawIf; split <;> rfl

@[simp] theorem Arch.drawIf_continuation (a : Arch n) (b : Bool) : (a.drawIf b).continuation = a.continuation := by
  unfold Arch.drawIf; split <;> rfl

@[simp] theorem Arch.drawIf_cause (a : Arch n) (b : Bool) : (a.drawIf b).cause = a.cause := by
  unfold Arch.drawIf; split <;> rfl

@[simp] theorem Arch.drawIf_extEn (a : Arch n) (b : Bool) : (a.drawIf b).extEn = a.extEn := by
  unfold Arch.drawIf; split <;> rfl

@[simp] theorem Arch.drawIf_regExc (a : Arch n) (b : Bool) : (a.drawIf b).regExc = a.regExc := by
  unfold Arch.drawIf; split <;> rfl

@[simp] theorem Arch.drawIf_ie (a : Arch n) (b : Bool) : (a.drawIf b).ie = a.ie := by
  unfold Arch.drawIf; split <;> rfl

@[simp] theorem Arch.drawIf_halted (a : Arch n) (b : Bool) : (a.drawIf b).halted = a.halted := by
  unfold Arch.drawIf; split <;> rfl

@[simp] theorem Arch.drawIf_debugOut (a : Arch n) (b : Bool) : (a.drawIf b).debugOut = a.debugOut := by
  unfold Arch.drawIf; split <;> rfl

@[simp] theorem Arch.drawIf_deviceOut (a : Arch n) (b : Bool) : (a.drawIf b).deviceOut = a.deviceOut := by
  unfold Arch.drawIf; split <;> rfl

@[simp] theorem Arch.drawIf_pins (a : Arch n) (b : Bool) : (a.drawIf b).pins = a.pins := by
  unfold Arch.drawIf; split <;> rfl

@[simp] theorem Arch.drawIf_draws (a : Arch n) (b : Bool) : (a.drawIf b).draws = a.draws + if b then 1 else 0 := by
  unfold Arch.drawIf; split <;> rfl

@[simp] theorem Arch.drawIf_mem (a : Arch n) (b : Bool) : (a.drawIf b).mem = a.mem := by
  unfold Arch.drawIf; split <;> rfl

@[simp] theorem Arch.drawIf_readReg (a : Arch n) (b : Bool) (r : Reg) : (a.drawIf b).readReg r = a.readReg r := by
  unfold Arch.drawIf; split <;> rfl

/-! ### A device store -/

@[simp] theorem Arch.emitIf_gpr (a : Arch n) (b : Bool) (x v : Word n) : (a.emitIf b x v).gpr = a.gpr := by
  unfold Arch.emitIf; split <;> simp

@[simp] theorem Arch.emitIf_handler (a : Arch n) (b : Bool) (x v : Word n) : (a.emitIf b x v).handler = a.handler := by
  unfold Arch.emitIf; split <;> simp

@[simp] theorem Arch.emitIf_retired (a : Arch n) (b : Bool) (x v : Word n) : (a.emitIf b x v).retired = a.retired := by
  unfold Arch.emitIf; split <;> simp

@[simp] theorem Arch.emitIf_cycles (a : Arch n) (b : Bool) (x v : Word n) : (a.emitIf b x v).cycles = a.cycles := by
  unfold Arch.emitIf; split <;> simp

@[simp] theorem Arch.emitIf_continuation (a : Arch n) (b : Bool) (x v : Word n) : (a.emitIf b x v).continuation = a.continuation := by
  unfold Arch.emitIf; split <;> simp

@[simp] theorem Arch.emitIf_cause (a : Arch n) (b : Bool) (x v : Word n) : (a.emitIf b x v).cause = a.cause := by
  unfold Arch.emitIf; split <;> simp

@[simp] theorem Arch.emitIf_extEn (a : Arch n) (b : Bool) (x v : Word n) : (a.emitIf b x v).extEn = a.extEn := by
  unfold Arch.emitIf; split <;> simp

@[simp] theorem Arch.emitIf_regExc (a : Arch n) (b : Bool) (x v : Word n) : (a.emitIf b x v).regExc = a.regExc := by
  unfold Arch.emitIf; split <;> simp

@[simp] theorem Arch.emitIf_ie (a : Arch n) (b : Bool) (x v : Word n) : (a.emitIf b x v).ie = a.ie := by
  unfold Arch.emitIf; split <;> simp

@[simp] theorem Arch.emitIf_halted (a : Arch n) (b : Bool) (x v : Word n) : (a.emitIf b x v).halted = a.halted := by
  unfold Arch.emitIf; split <;> simp

@[simp] theorem Arch.emitIf_debugOut (a : Arch n) (b : Bool) (x v : Word n) : (a.emitIf b x v).debugOut = a.debugOut := by
  unfold Arch.emitIf; split <;> simp

@[simp] theorem Arch.emitIf_deviceOut (a : Arch n) (b : Bool) (x v : Word n) : (a.emitIf b x v).deviceOut = a.deviceOut ++ if b then [⟨x, v⟩] else [] := by
  unfold Arch.emitIf; split <;> simp

@[simp] theorem Arch.emitIf_pins (a : Arch n) (b : Bool) (x v : Word n) : (a.emitIf b x v).pins = a.pins := by
  unfold Arch.emitIf; split <;> simp

@[simp] theorem Arch.emitIf_draws (a : Arch n) (b : Bool) (x v : Word n) : (a.emitIf b x v).draws = a.draws := by
  unfold Arch.emitIf; split <;> simp

@[simp] theorem Arch.emitIf_mem (a : Arch n) (b : Bool) (x v : Word n) : (a.emitIf b x v).mem = a.mem := by
  unfold Arch.emitIf; split <;> simp

@[simp] theorem Arch.emitIf_readReg (a : Arch n) (b : Bool) (x v : Word n) (r : Reg) : (a.emitIf b x v).readReg r = a.readReg r := by
  unfold Arch.emitIf; split <;> rfl

/-! ### A debug write -/

@[simp] theorem Arch.debugWrite_gpr (a : Arch n) (c : Config) (v : Word n) : (a.debugWrite c v).gpr = a.gpr := by
  unfold Arch.debugWrite; split <;> rfl

@[simp] theorem Arch.debugWrite_handler (a : Arch n) (c : Config) (v : Word n) : (a.debugWrite c v).handler = a.handler := by
  unfold Arch.debugWrite; split <;> rfl

@[simp] theorem Arch.debugWrite_retired (a : Arch n) (c : Config) (v : Word n) : (a.debugWrite c v).retired = a.retired := by
  unfold Arch.debugWrite; split <;> rfl

@[simp] theorem Arch.debugWrite_cycles (a : Arch n) (c : Config) (v : Word n) : (a.debugWrite c v).cycles = a.cycles := by
  unfold Arch.debugWrite; split <;> rfl

@[simp] theorem Arch.debugWrite_continuation (a : Arch n) (c : Config) (v : Word n) : (a.debugWrite c v).continuation = a.continuation := by
  unfold Arch.debugWrite; split <;> rfl

@[simp] theorem Arch.debugWrite_cause (a : Arch n) (c : Config) (v : Word n) : (a.debugWrite c v).cause = a.cause := by
  unfold Arch.debugWrite; split <;> rfl

@[simp] theorem Arch.debugWrite_extEn (a : Arch n) (c : Config) (v : Word n) : (a.debugWrite c v).extEn = a.extEn := by
  unfold Arch.debugWrite; split <;> rfl

@[simp] theorem Arch.debugWrite_regExc (a : Arch n) (c : Config) (v : Word n) : (a.debugWrite c v).regExc = a.regExc := by
  unfold Arch.debugWrite; split <;> rfl

@[simp] theorem Arch.debugWrite_ie (a : Arch n) (c : Config) (v : Word n) : (a.debugWrite c v).ie = a.ie := by
  unfold Arch.debugWrite; split <;> rfl

@[simp] theorem Arch.debugWrite_halted (a : Arch n) (c : Config) (v : Word n) : (a.debugWrite c v).halted = a.halted := by
  unfold Arch.debugWrite; split <;> rfl

@[simp] theorem Arch.debugWrite_deviceOut (a : Arch n) (c : Config) (v : Word n) : (a.debugWrite c v).deviceOut = a.deviceOut := by
  unfold Arch.debugWrite; split <;> rfl

@[simp] theorem Arch.debugWrite_pins (a : Arch n) (c : Config) (v : Word n) : (a.debugWrite c v).pins = a.pins := by
  unfold Arch.debugWrite; split <;> rfl

@[simp] theorem Arch.debugWrite_draws (a : Arch n) (c : Config) (v : Word n) : (a.debugWrite c v).draws = a.draws := by
  unfold Arch.debugWrite; split <;> rfl

@[simp] theorem Arch.debugWrite_mem (a : Arch n) (c : Config) (v : Word n) : (a.debugWrite c v).mem = a.mem := by
  unfold Arch.debugWrite; split <;> rfl

@[simp] theorem Arch.debugWrite_readReg (a : Arch n) (c : Config) (v : Word n) (r : Reg) : (a.debugWrite c v).readReg r = a.readReg r := by
  unfold Arch.debugWrite; split <;> rfl

/-! ### A loop counter -/

@[simp] theorem Arch.countDown_handler (a : Arch n) (r : Reg) : (a.countDown r).handler = a.handler := rfl

@[simp] theorem Arch.countDown_retired (a : Arch n) (r : Reg) : (a.countDown r).retired = a.retired := rfl

@[simp] theorem Arch.countDown_cycles (a : Arch n) (r : Reg) : (a.countDown r).cycles = a.cycles := rfl

@[simp] theorem Arch.countDown_continuation (a : Arch n) (r : Reg) : (a.countDown r).continuation = a.continuation := rfl

@[simp] theorem Arch.countDown_cause (a : Arch n) (r : Reg) : (a.countDown r).cause = a.cause := rfl

@[simp] theorem Arch.countDown_extEn (a : Arch n) (r : Reg) : (a.countDown r).extEn = a.extEn := rfl

@[simp] theorem Arch.countDown_regExc (a : Arch n) (r : Reg) : (a.countDown r).regExc = a.regExc := rfl

@[simp] theorem Arch.countDown_ie (a : Arch n) (r : Reg) : (a.countDown r).ie = a.ie := rfl

@[simp] theorem Arch.countDown_halted (a : Arch n) (r : Reg) : (a.countDown r).halted = a.halted := rfl

@[simp] theorem Arch.countDown_debugOut (a : Arch n) (r : Reg) : (a.countDown r).debugOut = a.debugOut := rfl

@[simp] theorem Arch.countDown_deviceOut (a : Arch n) (r : Reg) : (a.countDown r).deviceOut = a.deviceOut := rfl

@[simp] theorem Arch.countDown_pins (a : Arch n) (r : Reg) : (a.countDown r).pins = a.pins := rfl

@[simp] theorem Arch.countDown_draws (a : Arch n) (r : Reg) : (a.countDown r).draws = a.draws := rfl

@[simp] theorem Arch.countDown_mem (a : Arch n) (r : Reg) : (a.countDown r).mem = a.mem := rfl

/-! ### A Data Transfer register, before -/

@[simp] theorem Arch.stepBefore_handler (a : Arch n) (o : XfOperand) : (a.stepBefore o).handler = a.handler := by
  unfold Arch.stepBefore; split <;> rfl

@[simp] theorem Arch.stepBefore_retired (a : Arch n) (o : XfOperand) : (a.stepBefore o).retired = a.retired := by
  unfold Arch.stepBefore; split <;> rfl

@[simp] theorem Arch.stepBefore_cycles (a : Arch n) (o : XfOperand) : (a.stepBefore o).cycles = a.cycles := by
  unfold Arch.stepBefore; split <;> rfl

@[simp] theorem Arch.stepBefore_continuation (a : Arch n) (o : XfOperand) : (a.stepBefore o).continuation = a.continuation := by
  unfold Arch.stepBefore; split <;> rfl

@[simp] theorem Arch.stepBefore_cause (a : Arch n) (o : XfOperand) : (a.stepBefore o).cause = a.cause := by
  unfold Arch.stepBefore; split <;> rfl

@[simp] theorem Arch.stepBefore_extEn (a : Arch n) (o : XfOperand) : (a.stepBefore o).extEn = a.extEn := by
  unfold Arch.stepBefore; split <;> rfl

@[simp] theorem Arch.stepBefore_regExc (a : Arch n) (o : XfOperand) : (a.stepBefore o).regExc = a.regExc := by
  unfold Arch.stepBefore; split <;> rfl

@[simp] theorem Arch.stepBefore_ie (a : Arch n) (o : XfOperand) : (a.stepBefore o).ie = a.ie := by
  unfold Arch.stepBefore; split <;> rfl

@[simp] theorem Arch.stepBefore_halted (a : Arch n) (o : XfOperand) : (a.stepBefore o).halted = a.halted := by
  unfold Arch.stepBefore; split <;> rfl

@[simp] theorem Arch.stepBefore_debugOut (a : Arch n) (o : XfOperand) : (a.stepBefore o).debugOut = a.debugOut := by
  unfold Arch.stepBefore; split <;> rfl

@[simp] theorem Arch.stepBefore_deviceOut (a : Arch n) (o : XfOperand) : (a.stepBefore o).deviceOut = a.deviceOut := by
  unfold Arch.stepBefore; split <;> rfl

@[simp] theorem Arch.stepBefore_pins (a : Arch n) (o : XfOperand) : (a.stepBefore o).pins = a.pins := by
  unfold Arch.stepBefore; split <;> rfl

@[simp] theorem Arch.stepBefore_draws (a : Arch n) (o : XfOperand) : (a.stepBefore o).draws = a.draws := by
  unfold Arch.stepBefore; split <;> rfl

@[simp] theorem Arch.stepBefore_mem (a : Arch n) (o : XfOperand) : (a.stepBefore o).mem = a.mem := by
  unfold Arch.stepBefore; split <;> rfl

/-! ### A Data Transfer register, after -/

@[simp] theorem Arch.stepAfter_handler (a : Arch n) (o : XfOperand) : (a.stepAfter o).handler = a.handler := by
  unfold Arch.stepAfter; split <;> rfl

@[simp] theorem Arch.stepAfter_retired (a : Arch n) (o : XfOperand) : (a.stepAfter o).retired = a.retired := by
  unfold Arch.stepAfter; split <;> rfl

@[simp] theorem Arch.stepAfter_cycles (a : Arch n) (o : XfOperand) : (a.stepAfter o).cycles = a.cycles := by
  unfold Arch.stepAfter; split <;> rfl

@[simp] theorem Arch.stepAfter_continuation (a : Arch n) (o : XfOperand) : (a.stepAfter o).continuation = a.continuation := by
  unfold Arch.stepAfter; split <;> rfl

@[simp] theorem Arch.stepAfter_cause (a : Arch n) (o : XfOperand) : (a.stepAfter o).cause = a.cause := by
  unfold Arch.stepAfter; split <;> rfl

@[simp] theorem Arch.stepAfter_extEn (a : Arch n) (o : XfOperand) : (a.stepAfter o).extEn = a.extEn := by
  unfold Arch.stepAfter; split <;> rfl

@[simp] theorem Arch.stepAfter_regExc (a : Arch n) (o : XfOperand) : (a.stepAfter o).regExc = a.regExc := by
  unfold Arch.stepAfter; split <;> rfl

@[simp] theorem Arch.stepAfter_ie (a : Arch n) (o : XfOperand) : (a.stepAfter o).ie = a.ie := by
  unfold Arch.stepAfter; split <;> rfl

@[simp] theorem Arch.stepAfter_halted (a : Arch n) (o : XfOperand) : (a.stepAfter o).halted = a.halted := by
  unfold Arch.stepAfter; split <;> rfl

@[simp] theorem Arch.stepAfter_debugOut (a : Arch n) (o : XfOperand) : (a.stepAfter o).debugOut = a.debugOut := by
  unfold Arch.stepAfter; split <;> rfl

@[simp] theorem Arch.stepAfter_deviceOut (a : Arch n) (o : XfOperand) : (a.stepAfter o).deviceOut = a.deviceOut := by
  unfold Arch.stepAfter; split <;> rfl

@[simp] theorem Arch.stepAfter_pins (a : Arch n) (o : XfOperand) : (a.stepAfter o).pins = a.pins := by
  unfold Arch.stepAfter; split <;> rfl

@[simp] theorem Arch.stepAfter_draws (a : Arch n) (o : XfOperand) : (a.stepAfter o).draws = a.draws := by
  unfold Arch.stepAfter; split <;> rfl

@[simp] theorem Arch.stepAfter_mem (a : Arch n) (o : XfOperand) : (a.stepAfter o).mem = a.mem := by
  unfold Arch.stepAfter; split <;> rfl

@[simp] theorem Arch.writeTwo_handler (a : Arch n) (r q : Reg) (u v : Word n) : (a.writeTwo r u q v).handler = a.handler := rfl

@[simp] theorem Arch.writeTwo_retired (a : Arch n) (r q : Reg) (u v : Word n) : (a.writeTwo r u q v).retired = a.retired := rfl

@[simp] theorem Arch.writeTwo_cycles (a : Arch n) (r q : Reg) (u v : Word n) : (a.writeTwo r u q v).cycles = a.cycles := rfl

@[simp] theorem Arch.writeTwo_continuation (a : Arch n) (r q : Reg) (u v : Word n) : (a.writeTwo r u q v).continuation = a.continuation := rfl

@[simp] theorem Arch.writeTwo_cause (a : Arch n) (r q : Reg) (u v : Word n) : (a.writeTwo r u q v).cause = a.cause := rfl

@[simp] theorem Arch.writeTwo_extEn (a : Arch n) (r q : Reg) (u v : Word n) : (a.writeTwo r u q v).extEn = a.extEn := rfl

@[simp] theorem Arch.writeTwo_regExc (a : Arch n) (r q : Reg) (u v : Word n) : (a.writeTwo r u q v).regExc = a.regExc := rfl

@[simp] theorem Arch.writeTwo_ie (a : Arch n) (r q : Reg) (u v : Word n) : (a.writeTwo r u q v).ie = a.ie := rfl

@[simp] theorem Arch.writeTwo_halted (a : Arch n) (r q : Reg) (u v : Word n) : (a.writeTwo r u q v).halted = a.halted := rfl

@[simp] theorem Arch.writeTwo_debugOut (a : Arch n) (r q : Reg) (u v : Word n) : (a.writeTwo r u q v).debugOut = a.debugOut := rfl

@[simp] theorem Arch.writeTwo_deviceOut (a : Arch n) (r q : Reg) (u v : Word n) : (a.writeTwo r u q v).deviceOut = a.deviceOut := rfl

@[simp] theorem Arch.writeTwo_pins (a : Arch n) (r q : Reg) (u v : Word n) : (a.writeTwo r u q v).pins = a.pins := rfl

@[simp] theorem Arch.writeTwo_draws (a : Arch n) (r q : Reg) (u v : Word n) : (a.writeTwo r u q v).draws = a.draws := rfl

@[simp] theorem Arch.writeTwo_mem (a : Arch n) (r q : Reg) (u v : Word n) : (a.writeTwo r u q v).mem = a.mem := rfl

end Sys2Proof.Machine
end

