-- ==== Sys2Proof/Laws/Memory.lean ====
section
/-! SUPPORT. Memory: read after write, the canonical form, and what a store of octets can do. -/

namespace Sys2Proof.Machine

/-! ### One octet -/

/-- An octet reads as last written, and a write leaves every other address alone. -/
theorem Memory.read_write (m : Memory) (x y : Nat) (b : Byte) :
    (Memory.write m x b).read y = if y = x then some b else Memory.read m y := by
  induction m with
  | nil => simp [Memory.write, Memory.read]
  | cons p rest ih =>
    obtain ⟨k, v⟩ := p
    by_cases h1 : x < k
    · simp [Memory.write, Memory.read, h1]
    · by_cases h2 : x = k
      · subst h2
        by_cases h3 : y = x <;> simp [Memory.write, Memory.read, h3]
      · by_cases h3 : y = k
        · subst h3
          simp [Memory.write, Memory.read, h1, h2, Ne.symm h2]
        · simp [Memory.write, Memory.read, h1, h2, h3, ih]

/-- A written memory lists only what it listed and the octet written. -/
theorem Memory.mem_write {m : Memory} {x : Nat} {b : Byte} {p : Nat × Byte} (h : p ∈ Memory.write m x b) :
    p = (x, b) ∨ p ∈ m := by
  induction m with
  | nil => simpa [Memory.write] using h
  | cons q rest ih =>
    obtain ⟨k, v⟩ := q
    unfold Memory.write at h
    split at h
    · simpa using h
    · split at h
      · rcases List.mem_cons.1 h with h | h
        · exact .inl h
        · exact .inr (List.mem_cons_of_mem _ h)
      · rcases List.mem_cons.1 h with h | h
        · exact .inr (by simp [h])
        · rcases ih h with h | h
          · exact .inl h
          · exact .inr (List.mem_cons_of_mem _ h)

/-- A write keeps the canonical form. -/
theorem Memory.wf_write {m : Memory} (h : m.wf) (x : Nat) (b : Byte) : (Memory.write m x b).wf := by
  induction m with
  | nil => simp [Memory.write, Memory.wf]
  | cons q rest ih =>
    obtain ⟨k, v⟩ := q
    rw [Memory.wf, List.pairwise_cons] at h
    unfold Memory.write
    split
    · rename_i hlt
      rw [Memory.wf, List.pairwise_cons, List.pairwise_cons]
      refine ⟨fun p hp => ?_, h⟩
      rcases List.mem_cons.1 hp with hp | hp
      · simpa [hp] using hlt
      · exact Nat.lt_trans hlt (h.1 p hp)
    · split
      · rename_i heq
        rw [Memory.wf, List.pairwise_cons]
        exact ⟨fun p hp => by simpa [heq] using h.1 p hp, h.2⟩
      · rename_i hge hne
        rw [Memory.wf, List.pairwise_cons]
        refine ⟨fun p hp => ?_, ih h.2⟩
        rcases Memory.mem_write hp with hp | hp
        · simp only [hp]; omega
        · exact h.1 p hp

/-- Reading a listed octet of a memory in canonical form. -/
theorem Memory.read_eq_some_iff {m : Memory} (h : m.wf) (x : Nat) (b : Byte) :
    m.read x = some b ↔ (x, b) ∈ m := by
  induction m with
  | nil => simp [Memory.read]
  | cons q rest ih =>
    obtain ⟨k, v⟩ := q
    rw [Memory.wf, List.pairwise_cons] at h
    by_cases hx : x = k
    · subst hx
      constructor
      · intro hr; simp [Memory.read] at hr; simp [hr]
      · intro hm
        rcases List.mem_cons.1 hm with hm | hm
        · simp [Memory.read, Prod.mk.inj hm]
        · exact absurd (h.1 _ hm) (Nat.lt_irrefl x)
    · simp [Memory.read, hx, ih h.2]

/-! ### Addresses -/

/-- An octet address is inside the address space. -/
theorem octetAddress_lt {n : Nat} (a : Word n) (k : Nat) : octetAddress a k < 2 ^ (8 * n) := (a + _).isLt

theorem octetAddress_eq {n : Nat} (a : Word n) (k : Nat) :
    octetAddress a k = (a.toNat + k) % 2 ^ (8 * n) := by
  simp [octetAddress, BitVec.toNat_add]

/-- The octets of an access no longer than the address space lie at different addresses. -/
theorem octetAddress_inj {n : Nat} (a : Word n) {j k : Nat} (hj : j < 2 ^ (8 * n)) (hk : k < 2 ^ (8 * n))
    (h : octetAddress a j = octetAddress a k) : j = k := by
  have e : a + BitVec.ofNat (8 * n) j = a + BitVec.ofNat (8 * n) k := BitVec.eq_of_toNat_eq h
  have e' : BitVec.ofNat (8 * n) j = BitVec.ofNat (8 * n) k := by
    have := congrArg (fun x => x - a) e
    simpa [BitVec.add_comm a, BitVec.add_sub_cancel] using this
  have := congrArg BitVec.toNat e'
  simpa [Nat.mod_eq_of_lt hj, Nat.mod_eq_of_lt hk] using this

/-- A word is shorter than the address space. -/
theorem octets_lt_space (n : Nat) : n < 2 ^ (8 * n) :=
  Nat.lt_of_lt_of_le Nat.lt_two_pow_self (Nat.pow_le_pow_right (by decide) (by omega))

theorem octetAddress_add {n : Nat} (a : Word n) (j k : Nat) :
    octetAddress (a + BitVec.ofNat (8 * n) j) k = octetAddress a (j + k) := by
  unfold octetAddress
  rw [BitVec.add_assoc, ← BitVec.ofNat_add]

/-! ### Reads -/

/-- The octets of a read, one by one. -/
theorem Arch.readOctets_eq_ok_iff {n : Nat} (a : Arch n) (c : Config) (addr : Word n) (k count : Nat)
    (bs : List Byte) :
    a.readOctets c addr k count = .ok bs ↔
      bs.length = count ∧ ∀ j (h : j < bs.length), a.readOctet c addr (k + j) = .ok bs[j] := by
  induction count generalizing k bs with
  | zero =>
    constructor
    · intro h; cases h; simp
    · rintro ⟨h, -⟩; simp [List.length_eq_zero_iff.1 h, Arch.readOctets]
  | succ count ih =>
    unfold Arch.readOctets
    constructor
    · intro h
      split at h
      · cases h
      · rename_i b hb
        split at h
        · cases h
        · rename_i rest hrest
          cases h
          obtain ⟨hl, hr⟩ := (ih (k + 1) rest).1 hrest
          refine ⟨by simp [hl], fun j hj => ?_⟩
          cases j with
          | zero => simpa using hb
          | succ j =>
            have := hr j (by simpa using hj)
            simpa [Nat.add_assoc, Nat.add_comm 1] using this
    · rintro ⟨hl, hr⟩
      cases bs with
      | nil => simp at hl
      | cons b rest =>
        have h0 := hr 0 (by simp)
        have h1 : a.readOctets c addr (k + 1) count = .ok rest :=
          (ih (k + 1) rest).2 ⟨by simpa using hl, fun j hj => by
            have := hr (j + 1) (by simpa using hj)
            simpa [Nat.add_assoc, Nat.add_comm 1] using this⟩
        simp only [Nat.add_zero, List.getElem_cons_zero] at h0
        simp [h0, h1]

/-- An octet that memory holds is read as it is. -/
theorem Arch.readOctet_of_memory {n : Nat} {a : Arch n} {c : Config} {addr : Word n} {k : Nat} {b : Byte}
    {q : RegionKind} (hk : regionKind c.memMap (octetAddress addr k) = some q) (hq : q ≠ .device)
    (hb : a.mem.read (octetAddress addr k) = some b) : a.readOctet c addr k = .ok b := by
  cases q
  · simp [Arch.readOctet, hk, hb]
  · simp [Arch.readOctet, hk, hb]
  · exact absurd rfl hq

/-- An octet's reading depends only on the memory, and on the draw where a device answers. -/
theorem Arch.readOctet_congr {n : Nat} {a t : Arch n} (hm : t.mem = a.mem) (hd : t.draws = a.draws)
    (c : Config) (addr : Word n) (k : Nat) : t.readOctet c addr k = a.readOctet c addr k := by
  unfold Arch.readOctet
  rw [hm, hd]

/-- What a load that succeeds does: it is aligned, reads its octets, and counts a draw where a device
answers. -/
theorem Arch.loadWord_eq_ok_iff {n : Nat} (a : Arch n) (c : Config) (addr v : Word n) (t : Arch n) :
    a.loadWord c addr = .ok (v, t) ↔
      addr.toNat % n = 0 ∧ ∃ bs, a.readOctets c addr 0 n = .ok bs ∧
        v = BitVec.ofNat _ (c.byteOrder.value bs) ∧ t = a.drawIf (touchesDevice c addr n) := by
  unfold Arch.loadWord Arch.memRead wordAligned
  split
  · rename_i h
    simp only [beq_iff_eq] at h
    constructor
    · intro hr
      split at hr
      · cases hr
      · rename_i v' a' h'
        split at h'
        · cases h'
        · rename_i bs hbs
          cases h'
          cases hr
          exact ⟨h, bs, hbs, rfl, rfl⟩
    · rintro ⟨-, bs, hbs, rfl, rfl⟩
      simp [hbs]
  · rename_i h
    simp only [beq_iff_eq] at h
    simp [h]

/-! ### Stores -/

/-- A store of octets succeeds where every octet is RAM or a device's. -/
theorem storeOctets_ok_of {n : Nat} (c : Config) (addr : Word n) (k : Nat) (bs : List Byte) (m : Memory)
    (h : ∀ j, j < bs.length → regionKind c.memMap (octetAddress addr (k + j)) = some .ram ∨
      regionKind c.memMap (octetAddress addr (k + j)) = some .device) :
    ∃ m', storeOctets c addr k bs m = .ok m' := by
  induction bs generalizing k m with
  | nil => exact ⟨m, rfl⟩
  | cons b rest ih =>
    have h0 := h 0 (by simp)
    have h1 : ∀ j, j < rest.length → regionKind c.memMap (octetAddress addr (k + 1 + j)) = some .ram ∨
        regionKind c.memMap (octetAddress addr (k + 1 + j)) = some .device := fun j hj => by
      have := h (j + 1) (by simpa using hj)
      simpa [Nat.add_assoc, Nat.add_comm 1] using this
    rw [Nat.add_zero] at h0
    unfold storeOctets
    rcases h0 with h0 | h0 <;> rw [h0]
    · exact ih (k + 1) _ h1
    · exact ih (k + 1) _ h1

/-- A store of octets that succeeds keeps the canonical form. -/
theorem storeOctets_wf {n : Nat} {c : Config} {addr : Word n} {k : Nat} {bs : List Byte} {m m' : Memory}
    (h : storeOctets c addr k bs m = .ok m') (hm : m.wf) : m'.wf := by
  induction bs generalizing k m with
  | nil => cases h; exact hm
  | cons b rest ih =>
    unfold storeOctets at h
    split at h
    · cases h
    · cases h
    · exact ih h hm
    · exact ih h (Memory.wf_write hm _ _)

/-- A store of octets lists no address outside the address space. -/
theorem storeOctets_bound {n : Nat} {c : Config} {addr : Word n} {k : Nat} {bs : List Byte} {m m' : Memory}
    (h : storeOctets c addr k bs m = .ok m') (hm : ∀ p ∈ m, p.1 < 2 ^ (8 * n)) :
    ∀ p ∈ m', p.1 < 2 ^ (8 * n) := by
  induction bs generalizing k m with
  | nil => cases h; exact hm
  | cons b rest ih =>
    unfold storeOctets at h
    split at h
    · cases h
    · cases h
    · exact ih h hm
    · refine ih h fun p hp => ?_
      rcases Memory.mem_write hp with hp | hp
      · rw [hp]; exact octetAddress_lt addr k
      · exact hm p hp

/-- A store of octets changes an octet of memory only at one of its own addresses, and only where
that address is RAM. -/
theorem storeOctets_read_other {n : Nat} {c : Config} {addr : Word n} {k : Nat} {bs : List Byte}
    {m m' : Memory} (h : storeOctets c addr k bs m = .ok m') (x : Nat)
    (hx : ∀ j, j < bs.length → regionKind c.memMap x = some .ram → x ≠ octetAddress addr (k + j)) :
    m'.read x = m.read x := by
  induction bs generalizing k m with
  | nil => cases h; rfl
  | cons b rest ih =>
    have h1 : ∀ j, j < rest.length → regionKind c.memMap x = some .ram →
        x ≠ octetAddress addr (k + 1 + j) := fun j hj hr => by
      have := hx (j + 1) (by simpa using hj) hr
      simpa [Nat.add_assoc, Nat.add_comm 1] using this
    unfold storeOctets at h
    split at h
    · cases h
    · cases h
    · exact ih h h1
    · rename_i hram
      rw [ih h h1, Memory.read_write, if_neg]
      intro he
      rw [← he] at hram
      exact hx 0 (by simp) hram (by simpa using he)

/-- A store of octets leaves octet `j` of it at its address, where that address is RAM. -/
theorem storeOctets_read_self {n : Nat} {c : Config} {addr : Word n} {k : Nat} {bs : List Byte}
    {m m' : Memory} (h : storeOctets c addr k bs m = .ok m') (hl : k + bs.length ≤ 2 ^ (8 * n))
    (j : Nat) (hj : j < bs.length)
    (hr : regionKind c.memMap (octetAddress addr (k + j)) = some .ram) :
    m'.read (octetAddress addr (k + j)) = some bs[j] := by
  induction bs generalizing k m j with
  | nil => simp at hj
  | cons b rest ih =>
    unfold storeOctets at h
    cases j with
    | zero =>
      rw [Nat.add_zero] at hr ⊢
      rw [hr] at h
      rw [storeOctets_read_other h, Memory.read_write, if_pos rfl]
      · rfl
      · intro i hi _ he
        simp only [List.length_cons] at hl
        have := octetAddress_inj addr (by omega) (by omega) he
        omega
    | succ j =>
      have hr' : regionKind c.memMap (octetAddress addr (k + 1 + j)) = some .ram := by
        simpa [Nat.add_assoc, Nat.add_comm 1] using hr
      have hj' : j < rest.length := by simpa using hj
      have hl' : k + 1 + rest.length ≤ 2 ^ (8 * n) := by simp only [List.length_cons] at hl; omega
      have e : k + (j + 1) = k + 1 + j := by omega
      rw [e, List.getElem_cons_succ]
      split at h
      · cases h
      · cases h
      · exact ih h hl' j hj' hr'
      · exact ih h hl' j hj' hr'

/-- What a store that succeeds does: it is aligned, stores its octets, and records an output event
where a device answers. -/
theorem Arch.storeWord_eq_ok_iff {n : Nat} (a : Arch n) (c : Config) (addr v : Word n) (t : Arch n) :
    a.storeWord c addr v = .ok t ↔
      addr.toNat % n = 0 ∧ ∃ m, storeOctets c addr 0 (c.byteOrder.octets n v.toNat) a.mem = .ok m ∧
        t = ({ a with mem := m } : Arch n).emitIf (touchesDevice c addr n) addr v := by
  unfold Arch.storeWord wordAligned
  split
  · rename_i h
    simp only [beq_iff_eq] at h
    constructor
    · intro hr
      split at hr
      · cases hr
      · rename_i m hm
        cases hr
        exact ⟨h, m, hm, rfl⟩
    · rintro ⟨-, m, hm, rfl⟩
      simp [hm]
  · rename_i h
    simp only [beq_iff_eq] at h
    simp [h]

/-- A program placed in memory keeps the canonical form. -/
theorem placeOctets_wf {n : Nat} (addr : Word n) (k : Nat) (bs : List Byte) {m : Memory} (hm : m.wf) :
    (placeOctets addr k bs m).wf := by
  induction bs generalizing k m with
  | nil => exact hm
  | cons b rest ih => exact ih (k + 1) (Memory.wf_write hm _ _)

/-- The memory of the reset state has the canonical form. -/
theorem wf_mem_resetOf (c : Config) : (Arch.resetOf c).mem.wf := List.Pairwise.nil

end Sys2Proof.Machine
end

