-- ==== Sys2Proof/Laws/Exec.lean ====
section
/-! SUPPORT. What the execute phase of an instruction can do, said once: how it concludes, what a
register write leaves alone, and what each instruction can change. -/

namespace Sys2Proof.Machine

/-! ### Outcomes -/

@[simp] theorem conclude_done (s : State) (t : Arch s.cfg.wb) :
    s.conclude (.done t) = .next { s with arch := t.retire } := rfl

@[simp] theorem conclude_raises (s : State) (q : Cause) :
    s.conclude (.raises q) = .next { s with arch := s.arch.raise q } := rfl

@[simp] theorem conclude_fault (s : State) (f : Fault) : s.conclude (.stops (.fault f)) = .fault f := rfl

@[simp] theorem conclude_refuse (s : State) (r : Refusal) :
    s.conclude (.stops (.refuse r)) = .refused r := rfl

@[simp] theorem complete_eq (s : State) (t : Arch s.cfg.wb) :
    s.complete t = .next { s with arch := t.retire } := rfl

/-- An execute phase that gives a next state has completed or raised an exception. -/
theorem conclude_eq_next {s t : State} {e : Effect s.cfg.wb} (h : s.conclude e = .next t) :
    (∃ u, e = .done u ∧ t = { s with arch := u.retire }) ∨
    (∃ q, e = .raises q ∧ t = { s with arch := s.arch.raise q }) := by
  cases e with
  | done u => exact .inl ⟨u, rfl, by cases h; rfl⟩
  | raises q => exact .inr ⟨q, rfl, by cases h; rfl⟩
  | stops e => cases e <;> cases h

/-- An operation that may stop, and gives a next state, has completed. -/
theorem conclude_ofExcept_eq_next {s t : State} {x : Except Stop (Arch s.cfg.wb)}
    (h : s.conclude (.ofExcept x) = .next t) : ∃ u, x = .ok u ∧ t = { s with arch := u.retire } := by
  cases x with
  | ok u => exact ⟨u, rfl, by cases h; rfl⟩
  | error e => cases e <;> cases h

/-- States of one machine are equal when their architectural states are. -/
theorem State.arch_eq {c : Config} {a t : Arch c.wb} (h : (⟨c, t⟩ : State) = ⟨c, a⟩) : t = a :=
  eq_of_heq (State.mk.inj h).2

variable {n : Nat}

theorem Arch.raise_of_enabled {a : Arch n} (h : a.ie = true) (q : Cause) :
    a.raise q = a.enter true (BitVec.ofNat _ q.code) := by simp [Arch.raise, h]

theorem Arch.raise_of_disabled {a : Arch n} (h : a.ie = false) (q : Cause) : a.raise q = a.retire := by
  simp [Arch.raise, h]

/-! ### Frames -/

/-- Retiring after a change of the register file leaves alone all but the changed registers. -/
theorem Arch.frame_of_gpr (a : Arch n) (g : Vector (Word n) 16) (rs : List Reg)
    (h : ∀ r : Reg, r ∉ rs → g[r.val] = a.gpr[r.val]) :
    a.Frame rs ({ a with gpr := g } : Arch n).retire :=
  ⟨⟨h, rfl, rfl, rfl, rfl, rfl, rfl, rfl, rfl, rfl, rfl, rfl, rfl, rfl⟩, fun _ => rfl⟩

/-- Retiring alone. -/
theorem Arch.frame_retire (a : Arch n) (rs : List Reg) : a.Frame rs a.retire :=
  ⟨⟨fun _ _ => rfl, rfl, rfl, rfl, rfl, rfl, rfl, rfl, rfl, rfl, rfl, rfl, rfl, rfl⟩, fun _ => rfl⟩

/-- Retiring after one register write. -/
theorem Arch.frame_writeReg (a : Arch n) {r : Reg} {rs : List Reg} (hr : r ∈ rs) (v : Word n) :
    a.Frame rs (a.writeReg r v).retire :=
  a.frame_of_gpr _ rs fun _ hq =>
    a.readReg_writeReg_other v (fun h => hq (h ▸ hr))

/-- Retiring after two register writes. -/
theorem Arch.frame_writeReg_writeReg (a : Arch n) {q r : Reg} {rs : List Reg} (hq : q ∈ rs) (hr : r ∈ rs)
    (u v : Word n) : a.Frame rs ((a.writeReg q u).writeReg r v).retire :=
  a.frame_of_gpr _ rs fun p hp => by
    have hq' : p ≠ q := fun h => hp (h ▸ hq)
    have hr' : p ≠ r := fun h => hp (h ▸ hr)
    have := (a.writeReg q u).readReg_writeReg_other v hr'
    rw [a.readReg_writeReg_other u hq'] at this
    exact this

/-! ### Every instruction at once -/

/-- What an instruction that completes, without an exception, may have done: from `a` to `v`, before
it is counted. -/
structure Completed (i : Instr) (c : Config) (a v : Arch c.wb) : Prop where
  handler : v.handler = a.handler ∨ ∃ r, i = .wsr r 2 ∧ v.handler = a.readReg r
  retired : (v.retired = a.retired ∧ ∀ r, i ≠ .wsr r 4) ∨ ∃ r, i = .wsr r 4 ∧ v.retired = a.readReg r
  extEn : v.extEn = a.extEn ∨ ∃ r, i = .wsr r 11 ∧ v.extEn = (a.readReg r).getLsbD 0
  ie : v.ie = a.ie ∨ (i = .eret ∧ v.ie = true) ∨ ∃ r, i = .wsr r 63 ∧ v.ie = (a.readReg r).getLsbD 0
  debugOut : a.debugOut <+: v.debugOut
  deviceOut : a.deviceOut <+: v.deviceOut
  mem : v.mem = a.mem ∨
    (((∃ r b off, i = .storeOff r b off) ∨ (∃ src dst, i = .xf src dst ∧ dst.indirect = true)) ∧
      ∃ (addr : Word c.wb) (w : Nat), storeOctets c addr 0 (c.byteOrder.octets c.wb w) a.mem = .ok v.mem)
  continuation : v.continuation = a.continuation ∨ ∃ r, i = .wsr r 8 ∧ v.continuation = a.readReg r
  cause : v.cause = a.cause ∨ ∃ r, i = .wsr r 9 ∧ v.cause = a.readReg r
  regExc : v.regExc = a.regExc ∨ ∃ r, i = .wsr r 11 ∧ v.regExc = (a.readReg r).getLsbD 1

/-- An instruction whose only changes are to registers, but a System Register write or ERET. -/
theorem Completed.of_gpr {i : Instr} {c : Config} (a : Arch c.wb) (hi : ∀ r k, i ≠ .wsr r k)
    (g : Vector (Word c.wb) 16) (d : Nat) :
    Completed i c a { a with gpr := g, draws := d } :=
  ⟨.inl rfl, .inl ⟨rfl, fun r => hi r 4⟩, .inl rfl, .inl rfl, List.prefix_refl _, List.prefix_refl _, .inl rfl,
      .inl rfl, .inl rfl, .inl rfl⟩

/-- The source side of Data Transfer changes the registers and the draws alone. -/
theorem Arch.xfSource_eq_ok {a : Arch n} {c : Config} {o : XfOperand} {v : Word n} {t : Arch n}
    (h : a.xfSource c o = .ok (v, t)) : ∃ g d, t = { a with gpr := g, draws := d } := by
  unfold Arch.xfSource at h
  have hb : ∀ b : Arch n, ∃ g, b.stepBefore o = { b with gpr := g } := fun b => by
    unfold Arch.stepBefore; split <;> exact ⟨_, rfl⟩
  have ha : ∀ b : Arch n, ∃ g, b.stepAfter o = { b with gpr := g } := fun b => by
    unfold Arch.stepAfter; split <;> exact ⟨_, rfl⟩
  obtain ⟨g, hg⟩ := hb a
  split at h
  · split at h
    · cases h
    · rename_i w t' hl
      cases h
      obtain ⟨-, bs, -, -, rfl⟩ := (Arch.loadWord_eq_ok_iff _ _ _ _ _).1 hl
      obtain ⟨g', hg'⟩ := ha ((a.stepBefore o).drawIf (touchesDevice c ((a.stepBefore o).readReg o.reg) n))
      rw [hg', hg]
      unfold Arch.drawIf
      split <;> exact ⟨_, _, rfl⟩
  · cases h
    obtain ⟨g', hg'⟩ := ha (a.stepBefore o)
    rw [hg', hg]
    exact ⟨_, _, rfl⟩

/-- The destination side of Data Transfer changes the registers, and where it is indirect stores a
word. -/
theorem Arch.xfDestination_eq_ok {a : Arch n} {c : Config} {o : XfOperand} {v : Word n} {t : Arch n}
    (h : a.xfDestination c o v = .ok t) :
    (∃ g, t = { a with gpr := g }) ∨
    (o.indirect = true ∧ ∃ g addr m b, storeOctets c addr 0 (c.byteOrder.octets n v.toNat) a.mem = .ok m ∧
      t = ({ a with gpr := g, mem := m } : Arch n).emitIf b addr v) := by
  unfold Arch.xfDestination at h
  have hb : ∀ b : Arch n, ∃ g, b.stepBefore o = { b with gpr := g } := fun b => by
    unfold Arch.stepBefore; split <;> exact ⟨_, rfl⟩
  have ha : ∀ b : Arch n, ∃ g, b.stepAfter o = { b with gpr := g } := fun b => by
    unfold Arch.stepAfter; split <;> exact ⟨_, rfl⟩
  obtain ⟨g, hg⟩ := hb a
  split at h
  · rename_i hi
    split at h
    · cases h
    · rename_i t' hs
      cases h
      obtain ⟨-, m, hm, rfl⟩ := (Arch.storeWord_eq_ok_iff _ _ _ _ _).1 hs
      rw [hg] at hm ⊢
      refine .inr ⟨hi, ?_⟩
      obtain ⟨g', hg'⟩ := ha (Arch.emitIf { { a with gpr := g } with mem := m } _ _ _)
      rw [hg']
      unfold Arch.emitIf
      split
      · exact ⟨g', _, m, true, hm, rfl⟩
      · exact ⟨g', _, m, false, hm, rfl⟩
  · cases h
    obtain ⟨g', hg'⟩ := ha ((a.stepBefore o).writeReg o.reg v)
    rw [hg', hg]
    exact .inl ⟨_, rfl⟩

/-- What a System Register write that completes has done. -/
theorem writeSystemRegister_eq_done {c : Config} {a t : Arch c.wb} {r : Reg} {k : Nat}
    (h : writeSystemRegister a c (a.readReg r) k = .done t) : Completed (.wsr r k) c a t := by
  unfold writeSystemRegister at h
  have hk : ∀ q, SysReg.ofNumber k = some q → q ≠ .retired → k ≠ 4 := by
    rintro q hq hn rfl
    simp only [SysReg.ofNumber, Option.some.injEq] at hq
    exact hn hq.symm
  split at h
  · cases h
  · cases h
  · cases h
  · rename_i hq; cases h
    obtain rfl : k = 2 := by unfold SysReg.ofNumber at hq; split at hq <;> simp_all
    exact ⟨.inr ⟨r, rfl, rfl⟩, .inl ⟨rfl, by simp⟩, .inl rfl, .inl rfl, List.prefix_refl _, List.prefix_refl _, .inl rfl,
      .inl rfl, .inl rfl, .inl rfl⟩
  · rename_i hq
    have h4 := hk _ hq (by simp)
    unfold Arch.powerWrite at h
    split at h
    · cases h
      exact ⟨.inl rfl, .inl ⟨rfl, by simp [h4]⟩, .inl rfl, .inl rfl, List.prefix_refl _, List.prefix_refl _, .inl rfl,
      .inl rfl, .inl rfl, .inl rfl⟩
    · split at h
      · cases h
        exact ⟨.inl rfl, .inl ⟨rfl, by simp [h4]⟩, .inl rfl, .inl rfl, List.prefix_refl _, List.prefix_refl _, .inl rfl,
      .inl rfl, .inl rfl, .inl rfl⟩
      · cases h
  · rename_i hq; cases h
    obtain rfl : k = 4 := by unfold SysReg.ofNumber at hq; split at hq <;> simp_all
    exact ⟨.inl rfl, .inr ⟨r, rfl, rfl⟩, .inl rfl, .inl rfl, List.prefix_refl _, List.prefix_refl _, .inl rfl,
      .inl rfl, .inl rfl, .inl rfl⟩
  · rename_i hq; cases h
    have h4 := hk _ hq (by simp)
    exact ⟨.inl rfl, .inl ⟨rfl, by simp [h4]⟩, .inl rfl, .inl rfl, List.prefix_refl _, List.prefix_refl _, .inl rfl,
      .inl rfl, .inl rfl, .inl rfl⟩
  · cases h
  · cases h
  · rename_i hq; cases h
    obtain rfl : k = 8 := by unfold SysReg.ofNumber at hq; split at hq <;> simp_all
    exact ⟨.inl rfl, .inl ⟨rfl, by simp⟩, .inl rfl, .inl rfl, List.prefix_refl _, List.prefix_refl _, .inl rfl,
      .inr ⟨r, rfl, rfl⟩, .inl rfl, .inl rfl⟩
  · rename_i hq; cases h
    obtain rfl : k = 9 := by unfold SysReg.ofNumber at hq; split at hq <;> simp_all
    exact ⟨.inl rfl, .inl ⟨rfl, by simp⟩, .inl rfl, .inl rfl, List.prefix_refl _, List.prefix_refl _, .inl rfl,
      .inl rfl, .inr ⟨r, rfl, rfl⟩, .inl rfl⟩
  · rename_i hq; cases h
    have h4 := hk _ hq (by simp)
    refine ⟨.inl (by simp), .inl ⟨by simp, by simp [h4]⟩, .inl (by simp), .inl (by simp), ?_, by simp, .inl (by simp),
      .inl (by simp), .inl (by simp), .inl (by simp)⟩
    unfold Arch.debugWrite
    split <;> simp
  · rename_i hq; cases h
    have h4 := hk _ hq (by simp)
    obtain rfl : k = 11 := by unfold SysReg.ofNumber at hq; split at hq <;> simp_all
    exact ⟨.inl rfl, .inl ⟨rfl, by simp⟩, .inr ⟨r, rfl, rfl⟩, .inl rfl, List.prefix_refl _, List.prefix_refl _, .inl rfl,
      .inl rfl, .inl rfl, .inr ⟨r, rfl, rfl⟩⟩
  · rename_i hq; cases h
    have h4 := hk _ hq (by simp)
    obtain rfl : k = 63 := by unfold SysReg.ofNumber at hq; split at hq <;> simp_all
    exact ⟨.inl rfl, .inl ⟨rfl, by simp⟩, .inl rfl, .inr (.inr ⟨r, rfl, rfl⟩), List.prefix_refl _, List.prefix_refl _, .inl rfl,
      .inl rfl, .inl rfl, .inl rfl⟩

/-- An instruction that completes with the register file changed, and nothing else. -/
theorem complete_gpr {i : Instr} {c : Config} {a : Arch c.wb} {s : State} {g : Vector (Word c.wb) 16}
    (hi : ∀ r k, i ≠ .wsr r k) (h : State.complete ⟨c, a⟩ ({ a with gpr := g } : Arch c.wb) = .next s) :
    ∃ v, s = ⟨c, v.retire⟩ ∧ Completed i c a v :=
  ⟨{ a with gpr := g }, by cases h; rfl, Completed.of_gpr a hi g a.draws⟩

/-- Every instruction that gives a next state has raised Divide by zero or Illegal instruction, or
has completed and is counted. -/
theorem exec_eq_next {i : Instr} {c : Config} {a : Arch c.wb} {s : State}
    (h : exec i ⟨c, a⟩ = .next s) :
    (∃ q, (q = .divideByZero ∨ q = .illegalInstruction) ∧ (∀ r k, i ≠ .wsr r k) ∧ s = ⟨c, a.raise q⟩) ∨
    ∃ v, s = ⟨c, v.retire⟩ ∧ Completed i c a v := by
  cases i with
  | deg => cases h; exact .inl ⟨_, .inr rfl, by simp, rfl⟩
  | eret =>
    cases h
    exact .inr ⟨a.exceptionReturn, rfl, .inl rfl, .inl ⟨rfl, by simp⟩, .inl rfl, .inr (.inl ⟨rfl, rfl⟩),
      List.prefix_refl _, List.prefix_refl _, .inl rfl,
      .inl rfl, .inl rfl, .inl rfl⟩
  | bit m x y => exact .inr (complete_gpr (by simp) h)
  | add x y => exact .inr (complete_gpr (by simp) h)
  | sub x y => exact .inr (complete_gpr (by simp) h)
  | shl x y => exact .inr (complete_gpr (by simp) h)
  | shr x y => exact .inr (complete_gpr (by simp) h)
  | asr x y => exact .inr (complete_gpr (by simp) h)
  | rol x y => exact .inr (complete_gpr (by simp) h)
  | ror x y => exact .inr (complete_gpr (by simp) h)
  | neg x y => exact .inr (complete_gpr (by simp) h)
  | cmp f x y => exact .inr (complete_gpr (by simp) h)
  | xf src dst =>
    obtain ⟨u, hu, rfl⟩ := conclude_ofExcept_eq_next h
    refine .inr ⟨u, rfl, ?_⟩
    unfold transfer at hu
    split at hu
    · cases hu
    · rename_i v b hb
      obtain ⟨g, d, rfl⟩ := Arch.xfSource_eq_ok hb
      rcases Arch.xfDestination_eq_ok hu with ⟨g', rfl⟩ | ⟨hi, g', addr, m, e, hm, rfl⟩
      · exact Completed.of_gpr a (by simp) g' d
      · refine ⟨.inl (by simp), .inl ⟨by simp, by simp⟩, .inl (by simp), .inl (by simp), by simp, ?_,
          .inr ⟨.inr ⟨src, dst, rfl, hi⟩, addr, v.toNat, by simpa using hm⟩,
          .inl (by simp), .inl (by simp), .inl (by simp)⟩
        cases e <;> simp
  | jc x k =>
    simp only [exec, execJc] at h
    split at h
    · exact .inr (complete_gpr (g := a.gpr) (by simp) h)
    · exact .inr (complete_gpr (by simp) h)
  | subw sx k j y => exact .inr (complete_gpr (by simp) h)
  | rsr r k =>
    rcases conclude_eq_next h with ⟨u, hu, rfl⟩ | ⟨q, hq, -⟩
    · refine .inr ⟨u, rfl, ?_⟩
      simp only [readSystemRegister] at hu
      split at hu
      · cases hu
      · split at hu
        · cases hu
        · cases hu
          unfold Arch.drawIf
          split
          · exact Completed.of_gpr a (by simp) _ _
          · exact Completed.of_gpr a (by simp) _ a.draws
    · simp only [readSystemRegister] at hq
      split at hq
      · cases hq
      · split at hq <;> cases hq
  | wsr r k =>
    rcases conclude_eq_next h with ⟨u, hu, rfl⟩ | ⟨q, hq, -⟩
    · exact .inr ⟨u, rfl, writeSystemRegister_eq_done hu⟩
    · unfold writeSystemRegister Arch.powerWrite at hq
      split at hq <;> first | cases hq | skip
      split at hq
      · cases hq
      · split at hq <;> cases hq
  | si v y => exact .inr (complete_gpr (by simp) h)
  | swap y x => exact .inr (complete_gpr (by simp) h)
  | mul y x =>
    simp only [exec, execMul] at h
    split at h
    · exact .inr (complete_gpr (by simp) h)
    · cases h; exact .inl ⟨_, .inr rfl, by simp, rfl⟩
  | div y x =>
    simp only [exec, execDiv, divide] at h
    split at h
    · cases h; exact .inl ⟨_, .inr rfl, by simp, rfl⟩
    · split at h
      · cases h; exact .inl ⟨_, .inl rfl, by simp, rfl⟩
      · split at h
        · cases h
        · exact .inr (complete_gpr (by simp) h)
  | mod y x =>
    simp only [exec, execMod, divide] at h
    split at h
    · cases h; exact .inl ⟨_, .inr rfl, by simp, rfl⟩
    · split at h
      · cases h; exact .inl ⟨_, .inl rfl, by simp, rfl⟩
      · split at h
        · cases h
        · exact .inr (complete_gpr (by simp) h)
  | loadReg y x =>
    simp only [exec, execLoadReg] at h
    split at h
    · exact .inr (complete_gpr (by simp) h)
    · cases h
  | storeReg y x =>
    simp only [exec, execStoreReg] at h
    split at h
    · exact .inr (complete_gpr (by simp) h)
    · cases h
  | loopI y x =>
    simp only [exec, execLoopI] at h
    split at h <;> exact .inr (complete_gpr (by simp) h)
  | loop k x =>
    simp only [exec, execLoop] at h
    split at h <;> exact .inr (complete_gpr (by simp) h)
  | bz k v =>
    simp only [exec, execBz, branch] at h
    split at h
    · exact .inr (complete_gpr (by simp) h)
    · exact .inr (complete_gpr (g := a.gpr) (by simp) h)
  | bnz k v =>
    simp only [exec, execBnz, branch] at h
    split at h
    · exact .inr (complete_gpr (by simp) h)
    · exact .inr (complete_gpr (g := a.gpr) (by simp) h)
  | bgtz k v =>
    simp only [exec, execBgtz, branch] at h
    split at h
    · exact .inr (complete_gpr (by simp) h)
    · exact .inr (complete_gpr (g := a.gpr) (by simp) h)
  | blez k v =>
    simp only [exec, execBlez, branch] at h
    split at h
    · exact .inr (complete_gpr (by simp) h)
    · exact .inr (complete_gpr (g := a.gpr) (by simp) h)
  | multiply x y h' lo =>
    simp only [exec, execMultiply] at h
    split at h
    · cases h; exact .inl ⟨_, .inr rfl, by simp, rfl⟩
    · split at h
      · cases h
      · exact .inr (complete_gpr (by simp) h)
  | divMod x y h' lo =>
    simp only [exec, execDivMod] at h
    split at h
    · cases h; exact .inl ⟨_, .inr rfl, by simp, rfl⟩
    · split at h
      · cases h
      · split at h
        · cases h; exact .inl ⟨_, .inl rfl, by simp, rfl⟩
        · split at h
          · exact .inr (complete_gpr (by simp) h)
          · cases h
  | loadOff x y k =>
    simp only [exec, execLoadOff] at h
    split at h
    · rename_i e _; cases e <;> cases h
    · rename_i v b hb
      obtain ⟨-, bs, -, -, rfl⟩ := (Arch.loadWord_eq_ok_iff _ _ _ _ _).1 hb
      cases h
      refine .inr ⟨_, rfl, ?_⟩
      unfold Arch.drawIf
      split
      · exact Completed.of_gpr a (by simp) _ _
      · exact Completed.of_gpr a (by simp) _ a.draws
  | storeOff x y k =>
    obtain ⟨u, hu, rfl⟩ := conclude_ofExcept_eq_next h
    obtain ⟨-, m, hm, rfl⟩ := (Arch.storeWord_eq_ok_iff _ _ _ _ _).1 hu
    refine .inr ⟨_, rfl, .inl (by simp), .inl ⟨by simp, by simp⟩, .inl (by simp), .inl (by simp), by simp, ?_,
      .inr ⟨.inl ⟨x, y, k, rfl⟩, _, (a.readReg x).toNat, by simpa using hm⟩,
      .inl (by simp), .inl (by simp), .inl (by simp)⟩
    simp

end Sys2Proof.Machine
end

