-- ==== Sys2Proof/Laws/Access.lean ====
section
/-! SUPPORT. When a word access goes through and what it does, and what the modes of Data Transfer do
to the registers, said once. -/

namespace Sys2Proof.Machine

variable {n : Nat}

/-! ### Loads and stores -/

/-- Whether an octet can be read depends on memory alone. -/
theorem Arch.octetReadable_congr {a t : Arch n} (hm : t.mem = a.mem) (c : Config) (x : Nat) :
    t.OctetReadable c x ↔ a.OctetReadable c x := by simp only [Arch.OctetReadable, hm]

/-- How reading an octet faults depends on memory alone. -/
theorem Arch.readFault_congr {a t : Arch n} (hm : t.mem = a.mem) (c : Config) (x : Nat) (f : Fault) :
    t.ReadFault c x f ↔ a.ReadFault c x f := by simp only [Arch.ReadFault, hm]

/-- Whether a word can be read depends on memory alone. -/
theorem Arch.readable_congr {a t : Arch n} (hm : t.mem = a.mem) (c : Config) (addr : Word n) :
    t.Readable c addr ↔ a.Readable c addr := by
  simp only [Arch.Readable, Arch.octetReadable_congr hm]

/-- A load that has a meaning reads a value the word can be read as, and counts a draw where a device
answers. -/
theorem Arch.loadWord_of_readable {a : Arch n} {c : Config} {addr : Word n} (h : a.Readable c addr) :
    ∃ v, a.loadWord c addr = .ok (v, a.drawIf (touchesDevice c addr n)) ∧ a.ReadsAs c addr v := by
  obtain ⟨ha, h⟩ := h
  have hb : ∀ j, j < n → ∃ b, a.readOctet c addr j = .ok b ∧
      (regionKind c.memMap (octetAddress addr j) ≠ some .device →
        a.mem.read (octetAddress addr j) = some b) := by
    intro j hj
    rcases h j hj with hd | ⟨hk, hs⟩
    · exact ⟨Config.freeOctet a.draws j, by simp [Arch.readOctet, hd], fun h => absurd hd h⟩
    · obtain ⟨b, hb⟩ := Option.isSome_iff_exists.1 hs
      refine ⟨b, ?_, fun _ => hb⟩
      rcases hk with hk | hk <;> exact Arch.readOctet_of_memory hk (by simp) hb
  choose! f hf using hb
  let bs := (List.range n).map f
  have hl : bs.length = n := by simp [bs]
  have hr : a.readOctets c addr 0 n = .ok bs := by
    rw [Arch.readOctets_eq_ok_iff]
    refine ⟨hl, fun j hj => ?_⟩
    have := (hf j (by omega)).1
    simp [bs, this]
  refine ⟨_, (Arch.loadWord_eq_ok_iff _ _ _ _ _).2 ⟨ha, bs, hr, rfl, rfl⟩, bs, hl, ?_, ?_⟩
  · have := c.byteOrder.value_lt bs
    rw [hl, show 256 = 2 ^ 8 from rfl, ← Nat.pow_mul] at this
    simp [Nat.mod_eq_of_lt this]
  · intro j hj hd
    have := (hf j (by omega)).2 hd
    simp [bs, this]

/-- A store that has a meaning stores the word, and records an output event where a device answers. -/
theorem Arch.storeWord_of_writable {a : Arch n} {c : Config} {addr : Word n} (h : Writable c addr)
    (v : Word n) :
    ∃ m, a.storeWord c addr v = .ok (({ a with mem := m } : Arch n).emitIf (touchesDevice c addr n) addr v) ∧
      a.StoredAt c addr v (({ a with mem := m } : Arch n).emitIf (touchesDevice c addr n) addr v) := by
  obtain ⟨ha, h⟩ := h
  obtain ⟨m, hm⟩ := storeOctets_ok_of c addr 0 (c.byteOrder.octets n v.toNat) a.mem (by simpa using h)
  refine ⟨m, (Arch.storeWord_eq_ok_iff _ _ _ _ _).2 ⟨ha, m, hm, rfl⟩, ?_, ?_, by simp⟩
  · intro j hj hr
    have := storeOctets_read_self hm (by simp; exact Nat.le_of_lt (octets_lt_space n)) j
      (by simpa using hj) (by simpa using hr)
    simp at this
    simp [this]
  · intro x hx
    simp only [Arch.emitIf_mem]
    exact storeOctets_read_other hm x (by simpa using hx)

/-- A load at a misaligned address is refused. -/
theorem Arch.loadWord_of_misaligned (a : Arch n) (c : Config) {addr : Word n} (h : addr.toNat % n ≠ 0) :
    a.loadWord c addr = .error (.refuse (.misalignedAccess addr.toNat)) := by
  have : wordAligned addr = false := by simpa [wordAligned] using h
  simp [Arch.loadWord, this]

/-- A store at a misaligned address is refused. -/
theorem Arch.storeWord_of_misaligned (a : Arch n) (c : Config) {addr : Word n} (v : Word n)
    (h : addr.toNat % n ≠ 0) :
    a.storeWord c addr v = .error (.refuse (.misalignedAccess addr.toNat)) := by
  have : wordAligned addr = false := by simpa [wordAligned] using h
  simp [Arch.storeWord, this]

/-! ### Where an access stops -/

/-- An octet that can be read is read. -/
theorem Arch.readOctet_of_readable {a : Arch n} {c : Config} {addr : Word n} {k : Nat}
    (h : a.OctetReadable c (octetAddress addr k)) : ∃ b, a.readOctet c addr k = .ok b := by
  rcases h with h | ⟨h, hs⟩
  · exact ⟨Config.freeOctet a.draws k, by simp [Arch.readOctet, h]⟩
  · obtain ⟨b, hb⟩ := Option.isSome_iff_exists.1 hs
    rcases h with h | h <;> exact ⟨b, Arch.readOctet_of_memory h (by simp) hb⟩

/-- An octet that cannot be read stops with its fault. -/
theorem Arch.readOctet_of_fault {a : Arch n} {c : Config} {addr : Word n} {k : Nat} {f : Fault}
    (h : a.ReadFault c (octetAddress addr k) f) : a.readOctet c addr k = .error (.fault f) := by
  rcases h with ⟨h, rfl⟩ | ⟨h, hr, rfl⟩
  · simp [Arch.readOctet, h]
  · rcases h with h | h <;> simp [Arch.readOctet, h, hr]

/-- A read stops as its first octet that stops does. -/
theorem Arch.readOctets_of_error {a : Arch n} {c : Config} {addr : Word n} {k j count : Nat} {e : Stop}
    (hj : j < count) (hi : ∀ i, i < j → ∃ b, a.readOctet c addr (k + i) = .ok b)
    (he : a.readOctet c addr (k + j) = .error e) : a.readOctets c addr k count = .error e := by
  induction count generalizing k j with
  | zero => omega
  | succ count ih =>
    unfold Arch.readOctets
    cases j with
    | zero => simp only [Nat.add_zero] at he; simp [he]
    | succ j =>
      obtain ⟨b, hb⟩ := hi 0 (by omega)
      have := ih (k := k + 1) (j := j) (by omega)
        (fun i h => by simpa [Nat.add_assoc, Nat.add_comm 1] using hi (i + 1) (by omega))
        (by simpa [Nat.add_assoc, Nat.add_comm 1] using he)
      simp only [Nat.add_zero] at hb
      simp [hb, this]

/-- A read faults at its first octet that cannot be read. -/
theorem Arch.memRead_of_fault {a : Arch n} {c : Config} {addr : Word n} {j count : Nat} {f : Fault}
    (hj : j < count) (hi : ∀ i, i < j → a.OctetReadable c (octetAddress addr i))
    (hf : a.ReadFault c (octetAddress addr j) f) : a.memRead c addr count = .error (.fault f) := by
  have : a.readOctets c addr 0 count = .error (.fault f) :=
    Arch.readOctets_of_error hj (fun i h => by simpa using Arch.readOctet_of_readable (hi i h))
      (by simpa using Arch.readOctet_of_fault hf)
  simp [Arch.memRead, this]

/-- An aligned load faults at its first octet that cannot be read. -/
theorem Arch.loadWord_of_fault {a : Arch n} {c : Config} {addr : Word n} {j : Nat} {f : Fault}
    (ha : addr.toNat % n = 0) (hj : j < n) (hi : ∀ i, i < j → a.OctetReadable c (octetAddress addr i))
    (hf : a.ReadFault c (octetAddress addr j) f) : a.loadWord c addr = .error (.fault f) := by
  simp [Arch.loadWord, wordAligned, ha, Arch.memRead_of_fault hj hi hf]

/-- A store stops at its first octet that cannot be stored to. -/
theorem storeOctets_of_stop {c : Config} {addr : Word n} {k j : Nat} {bs : List Byte} {m : Memory}
    {e : Stop} (hj : j < bs.length) (hi : ∀ i, i < j → OctetWritable c (octetAddress addr (k + i)))
    (he : StoreStop c (octetAddress addr (k + j)) e) : storeOctets c addr k bs m = .error e := by
  induction bs generalizing k j m with
  | nil => simp at hj
  | cons b rest ih =>
    unfold storeOctets
    cases j with
    | zero =>
      simp only [Nat.add_zero] at he
      rcases he with ⟨h, rfl⟩ | ⟨h, rfl⟩ <;> simp [h]
    | succ j =>
      have step (m : Memory) := ih (k := k + 1) (j := j) (m := m) (by simpa using hj)
        (fun i h => by simpa [Nat.add_assoc, Nat.add_comm 1] using hi (i + 1) (by omega))
        (by simpa [Nat.add_assoc, Nat.add_comm 1] using he)
      rcases hi 0 (by omega) with h | h <;> simp only [Nat.add_zero] at h <;> simp [h, step]

/-- An aligned store stops at its first octet that cannot be stored to. -/
theorem Arch.storeWord_of_stop {a : Arch n} {c : Config} {addr : Word n} {j : Nat} {e : Stop}
    (v : Word n) (ha : addr.toNat % n = 0) (hj : j < n)
    (hi : ∀ i, i < j → OctetWritable c (octetAddress addr i))
    (he : StoreStop c (octetAddress addr j) e) : a.storeWord c addr v = .error e := by
  have : storeOctets c addr 0 (c.byteOrder.octets n v.toNat) a.mem = .error e :=
    storeOctets_of_stop (by simpa using hj) (by simpa using hi) (by simpa using he)
  simp [Arch.storeWord, wordAligned, ha, this]

/-- An execute phase that stops has that outcome. -/
@[simp] theorem State.conclude_stops (s : State) (e : Stop) : s.conclude (.stops e) = e.outcome := by
  cases e <;> rfl

/-! ### Data Transfer -/

theorem Arch.contents_writeReg (a : Arch n) (r : Reg) (v : Word n) :
    (a.writeReg r v).contents = a.contents.put r v.toNat := by
  funext p
  simp [Arch.contents, Contents.put, Arch.readReg_writeReg, apply_ite BitVec.toNat]

/-- Subtracting the size of a word, modulo 2^`W`. -/
theorem toNat_sub_word (v : Word n) :
    (v - BitVec.ofNat (8 * n) n).toNat = (v.toNat + (2 ^ (8 * n) - n)) % 2 ^ (8 * n) := by
  rw [BitVec.toNat_sub, BitVec.toNat_ofNat, Nat.mod_eq_of_lt (octets_lt_space n), Nat.add_comm]

/-- What the mode does to the registers before the access. -/
theorem Arch.contents_stepBefore (a : Arch n) (o : XfOperand) :
    (a.stepBefore o).contents = a.contents.before n o := by
  unfold Arch.stepBefore Contents.before
  split <;> rename_i h <;> simp [h]
  rw [Arch.contents_writeReg, toNat_sub_word]; rfl

/-- What the mode does to the registers after the access. -/
theorem Arch.contents_stepAfter (a : Arch n) (o : XfOperand) :
    (a.stepAfter o).contents = a.contents.after n o := by
  unfold Arch.stepAfter Contents.after
  split <;> rename_i h <;> simp [h]
  · rw [Arch.contents_writeReg, BitVec.toNat_add, BitVec.toNat_ofNat, Nat.mod_eq_of_lt (octets_lt_space n)]; rfl
  · rw [Arch.contents_writeReg, toNat_sub_word]; rfl

/-- The mode changes the operand's register alone, before the access. -/
theorem Arch.stepBefore_readReg_other (a : Arch n) (o : XfOperand) {r : Reg} (h : r ≠ o.reg) :
    (a.stepBefore o).readReg r = a.readReg r := by
  unfold Arch.stepBefore
  split <;> simp [h]

/-- The mode changes the operand's register alone, after the access. -/
theorem Arch.stepAfter_readReg_other (a : Arch n) (o : XfOperand) {r : Reg} (h : r ≠ o.reg) :
    (a.stepAfter o).readReg r = a.readReg r := by
  unfold Arch.stepAfter
  split <;> simp [h]

/-- A source side that is direct, or indirect at an address that can be read, goes through: the
registers are as both its changes leave them, and memory is as it was. -/
theorem Arch.xfSource_of_readable {a : Arch n} {c : Config} {o : XfOperand} {from_ : Word n}
    (hf : from_.toNat = a.contents.before n o o.reg) (hr : o.indirect = true → a.Readable c from_) :
    ∃ v t, a.xfSource c o = .ok (v, t) ∧ t.contents = (a.contents.before n o).after n o ∧
      t.mem = a.mem := by
  rw [← Arch.contents_stepBefore] at hf ⊢
  have e : (a.stepBefore o).readReg o.reg = from_ := BitVec.eq_of_toNat_eq hf.symm
  unfold Arch.xfSource
  by_cases hi : o.indirect = true
  · obtain ⟨v, hv, -⟩ := Arch.loadWord_of_readable
      ((Arch.readable_congr (Arch.stepBefore_mem a o) c from_).2 (hr hi))
    refine ⟨v, ((a.stepBefore o).drawIf (touchesDevice c from_ n)).stepAfter o,
      by simp [hi, e, hv], ?_, by simp⟩
    rw [Arch.contents_stepAfter]
    congr 1
    funext r
    simp [Arch.contents]
  · exact ⟨(a.stepBefore o).readReg o.reg, (a.stepBefore o).stepAfter o, by simp [hi],
      Arch.contents_stepAfter _ _, by simp⟩

/-- The address the destination side of Data Transfer uses, after a source side that goes through. -/
theorem Arch.atStore_address {a t : Arch n} {src : XfOperand} (dst : XfOperand)
    (h : t.contents = (a.contents.before n src).after n src) :
    ((t.stepBefore dst).readReg dst.reg).toNat = a.contents.atStore n src dst dst.reg := by
  rw [Contents.atStore, ← h, ← Arch.contents_stepBefore]; rfl

end Sys2Proof.Machine
end

