-- ==== Sys2Proof/Laws/Alu.lean ====
section
/-! SUPPORT. What the values the register instructions compute are, said in bits or in integers. -/

namespace Sys2Proof.Machine

variable {w : Nat}

/-- Each bit of a truth-table function is an entry of the table. -/
theorem getLsbD_tableFunction (m : BitVec 4) (d s : BitVec w) {k : Nat} (hk : k < w) :
    (tableFunction m d s).getLsbD k = m.getLsbD (2 * (d.getLsbD k).toNat + (s.getLsbD k).toNat) := by
  unfold tableFunction
  simp only [BitVec.getLsbD_or, apply_ite (fun x : BitVec w => x.getLsbD k), BitVec.getLsbD_and,
    BitVec.getLsbD_not, hk]
  generalize h0 : m.getLsbD 0 = e0
  generalize h1 : m.getLsbD 1 = e1
  generalize h2 : m.getLsbD 2 = e2
  generalize h3 : m.getLsbD 3 = e3
  cases d.getLsbD k <;> cases s.getLsbD k <;> cases e0 <;> cases e1 <;> cases e2 <;> cases e3 <;>
    simp only [Bool.toNat_true, Bool.toNat_false, Nat.mul_one, Nat.mul_zero, Nat.add_zero, Nat.zero_add,
      Nat.reduceAdd, h0, h1, h2, h3] <;> simp

/-- Shifting left multiplies by a power of two, modulo 2^`W`. -/
theorem toNat_shiftLeft (a b : BitVec w) : (shiftLeft a b).toNat = a.toNat * 2 ^ b.toNat % 2 ^ w := by
  unfold shiftLeft
  split
  · rename_i h
    have hd : 2 ^ w ∣ a.toNat * 2 ^ b.toNat := Dvd.dvd.mul_left (Nat.pow_dvd_pow 2 h) _
    simp [Nat.mod_eq_zero_of_dvd hd]
  · simp [Nat.shiftLeft_eq]

/-- Shifting right divides by a power of two. -/
theorem toNat_shiftRight (a b : BitVec w) : (shiftRight a b).toNat = a.toNat / 2 ^ b.toNat := by
  unfold shiftRight
  split
  · rename_i h
    have hlt : a.toNat < 2 ^ b.toNat := Nat.lt_of_lt_of_le a.isLt (Nat.pow_le_pow_right (by decide) h)
    simp [Nat.div_eq_of_lt hlt]
  · simp [Nat.shiftRight_eq_div_pow]

/-- Shifting right with the sign divides the two's-complement value by a power of two, rounding
down. -/
theorem toInt_shiftRightSigned (a b : BitVec w) :
    (shiftRightSigned a b).toInt = a.toInt / 2 ^ b.toNat := by
  unfold shiftRightSigned
  rw [BitVec.toInt_sshiftRight, Int.shiftRight_eq_div_pow]
  by_cases h : b.toNat ≤ w - 1
  · simp [Nat.min_eq_left h]
  · rw [Nat.min_eq_right (by omega)]
    have h1 := BitVec.le_toInt a
    have h2 := BitVec.toInt_lt (x := a)
    have h3 : (2 : Int) ^ (w - 1) ≤ 2 ^ b.toNat := by
      exact_mod_cast Nat.pow_le_pow_right (by decide : 0 < 2) (by omega : w - 1 ≤ b.toNat)
    have h4 : (0 : Int) < 2 ^ (w - 1) := by positivity
    have h5 : (0 : Int) < 2 ^ b.toNat := by positivity
    have key : ∀ p : Int, 0 < p → 2 ^ (w - 1) ≤ p → a.toInt / p = if a.toInt < 0 then -1 else 0 := by
      intro p hp hle
      split
      · rw [Int.ediv_eq_iff_of_pos hp]; omega
      · exact Int.ediv_eq_zero_of_lt (by omega) (by omega)
    rw [Nat.cast_pow, Nat.cast_ofNat, key _ h4 (le_refl _), key _ h5 h3]

/-- Rotating left moves every bit up by the amount modulo `W`. -/
theorem getLsbD_rotateLeft (a b : BitVec w) {k : Nat} (hk : k < w) :
    (rotateLeft a b).getLsbD ((k + b.toNat) % w) = a.getLsbD k := by
  have hb : b.toNat % w < w := Nat.mod_lt _ (by omega)
  have he : (k + b.toNat) % w = if k + b.toNat % w < w then k + b.toNat % w else k + b.toNat % w - w := by
    rw [← Nat.add_mod_mod]
    split
    · exact Nat.mod_eq_of_lt (by assumption)
    · rw [Nat.mod_eq_sub_mod (by omega), Nat.mod_eq_of_lt (by omega)]
  unfold rotateLeft
  rw [he]
  generalize b.toNat % w = m at *
  split
  · rename_i h; subst h; simp [hk]
  · split
    · rename_i h0 h1
      simp only [BitVec.getLsbD_or, BitVec.getLsbD_shiftLeft, BitVec.getLsbD_ushiftRight]
      have : a.getLsbD (w - m + (k + m)) = false := BitVec.getLsbD_of_ge _ _ (by omega)
      simp [h1, this]
    · rename_i h0 h1
      simp only [BitVec.getLsbD_or, BitVec.getLsbD_shiftLeft, BitVec.getLsbD_ushiftRight]
      have e : w - m + (k + m - w) = k := by omega
      have l : k + m - w < m := by omega
      simp [e, l]

/-- Rotating right moves every bit down by the amount modulo `W`. -/
theorem getLsbD_rotateRight (a b : BitVec w) {k : Nat} (hk : k < w) :
    (rotateRight a b).getLsbD k = a.getLsbD ((k + b.toNat) % w) := by
  have hb : b.toNat % w < w := Nat.mod_lt _ (by omega)
  have he : (k + b.toNat) % w = if k + b.toNat % w < w then k + b.toNat % w else k + b.toNat % w - w := by
    rw [← Nat.add_mod_mod]
    split
    · exact Nat.mod_eq_of_lt (by assumption)
    · rw [Nat.mod_eq_sub_mod (by omega), Nat.mod_eq_of_lt (by omega)]
  unfold rotateRight
  rw [he]
  generalize b.toNat % w = m at *
  split
  · rename_i h; subst h; simp [hk]
  · rename_i h0
    simp only [BitVec.getLsbD_or, BitVec.getLsbD_shiftLeft, BitVec.getLsbD_ushiftRight, hk]
    split
    · rename_i h1
      have l : k < w - m := by omega
      simp [l, Nat.add_comm]
    · rename_i h1
      have l : ¬ k < w - m := by omega
      have e : k - (w - m) = k + m - w := by omega
      have z : a.getLsbD (m + k) = false := BitVec.getLsbD_of_ge _ _ (by omega)
      simp [l, e, z]

/-- Each bit of Subword: a bit of the selected bytes, or above them 0 or their highest bit. -/
theorem getLsbD_subword (sx : Bool) (count index : Nat) (v : BitVec w) {k : Nat} (hk : k < w)
    (hc : 1 ≤ count) :
    (subword sx count index v).getLsbD k =
      if k < 8 * count then v.getLsbD (8 * index + k)
      else sx && v.getLsbD (8 * index + (8 * count - 1)) := by
  have hm : (selectBytes v count index).msb = v.getLsbD (8 * index + (8 * count - 1)) := by
    rw [BitVec.msb_eq_getLsbD_last, selectBytes, BitVec.getLsbD_setWidth, BitVec.getLsbD_ushiftRight]
    simp; omega
  have hs : ∀ j, j < 8 * count → (selectBytes v count index).getLsbD j = v.getLsbD (8 * index + j) := by
    intro j hj
    simp [selectBytes, hj]
  unfold subword
  cases sx
  · simp only [Bool.false_eq_true, if_false, BitVec.getLsbD_setWidth, hk, decide_true, Bool.true_and]
    split
    · rename_i h; exact hs k h
    · exact BitVec.getLsbD_of_ge _ _ (by omega)
  · simp only [if_true, BitVec.getLsbD_signExtend, hk, decide_true, Bool.true_and, hm]
    split
    · rename_i h; exact hs k h
    · rfl

/-- The remainder is the dividend less the quotient times the divisor: the division that rounds
toward zero. -/
theorem remainder_eq_tmod (n m : Int) : remainder n m = n.tmod m := by
  unfold remainder quotient
  rw [Int.tmod_def, Int.mul_comm]

/-- An operand fits its word, signed. -/
theorem operandInt_signed (v : BitVec w) : operandInt true v = v.toInt := rfl

/-- An operand fits its word, unsigned. -/
theorem operandInt_unsigned (v : BitVec w) : operandInt false v = v.toNat := rfl

end Sys2Proof.Machine
end

