-- ==== Sys2Proof/Laws/Cycle.lean ====
section
/-! SUPPORT. What a fetch and a step can do, said once. -/

namespace Sys2Proof.Machine

variable {n : Nat}

/-! ### Fetch -/

/-- A symbol fetch that succeeds changes nothing but the count of draws. -/
theorem Arch.fetchSymbol_eq_ok {a t : Arch n} {c : Config} {addr : Word n} {s : Symbol}
    (h : a.fetchSymbol c addr = .ok (s, t)) : ∃ d, t = { a with draws := d } := by
  unfold Arch.fetchSymbol Arch.memRead at h
  split at h
  · split at h
    · cases h
    · rename_i v b hb
      cases h
      split at hb
      · cases hb
      · cases hb
        unfold Arch.drawIf
        split <;> exact ⟨_, rfl⟩
  · cases h

/-- Fetching symbols changes nothing but the count of draws. -/
theorem Arch.fetchSymbols_eq_ok {a t : Arch n} {c : Config} {addr : Word n} {k : Nat} {ss : List Symbol}
    (h : a.fetchSymbols c addr k = .ok (ss, t)) : ∃ d, t = { a with draws := d } := by
  induction k generalizing a addr ss with
  | zero => cases h; exact ⟨_, rfl⟩
  | succ k ih =>
    unfold Arch.fetchSymbols at h
    split at h
    · cases h
    · rename_i s b hb
      obtain ⟨d, rfl⟩ := Arch.fetchSymbol_eq_ok hb
      split at h
      · cases h
      · rename_i ss' u hu
        cases h
        obtain ⟨d', rfl⟩ := ih hu
        exact ⟨_, rfl⟩

/-- A fetch changes nothing but the PC and the count of draws. -/
theorem Arch.fetch_eq_ok {a t : Arch n} {c : Config} {ss : List Symbol}
    (h : a.fetch c = .ok (ss, t)) : ∃ d p, t = ({ a with draws := d } : Arch n).jump p := by
  unfold Arch.fetch at h
  split at h
  · cases h
  · rename_i s b hb
    obtain ⟨d, rfl⟩ := Arch.fetchSymbol_eq_ok hb
    split at h
    · cases h
    · rename_i ss' u hu
      cases h
      obtain ⟨d', rfl⟩ := Arch.fetchSymbols_eq_ok hu
      exact ⟨_, _, rfl⟩

/-- Octets that memory holds are read as they are, and no device is asked. -/
theorem Arch.memRead_of_holds {a : Arch n} {c : Config} {addr : Word n} {bs : List Byte}
    (h : a.HoldsOctets c addr bs) : a.memRead c addr bs.length = .ok (c.byteOrder.value bs, a) := by
  have h1 : a.readOctets c addr 0 bs.length = .ok bs := by
    rw [Arch.readOctets_eq_ok_iff]
    refine ⟨rfl, fun j hj => ?_⟩
    obtain ⟨hk, hb⟩ := h j hj
    rw [Nat.zero_add]
    rcases hk with hk | hk
    · exact Arch.readOctet_of_memory hk (by simp) hb
    · exact Arch.readOctet_of_memory hk (by simp) hb
  have h2 : touchesDevice c addr bs.length = false := by
    unfold touchesDevice
    rw [List.any_eq_false]
    intro j hj
    rcases (h j (List.mem_range.1 hj)).1 with hk | hk <;> simp [hk]
  unfold Arch.memRead
  simp [h1, h2, Arch.drawIf]

@[simp] theorem octetsOf_nil (o : ByteOrder) : octetsOf o [] = [] := rfl

theorem octetsOf_cons (o : ByteOrder) (s : Symbol) (ss : List Symbol) :
    octetsOf o (s :: ss) = o.octets ist s.toNat ++ octetsOf o ss := by simp [octetsOf]

@[simp] theorem length_octetsOf (o : ByteOrder) (ss : List Symbol) :
    (octetsOf o ss).length = 2 * ss.length := by
  induction ss with
  | nil => rfl
  | cons s ss ih => simp [octetsOf_cons, ih, ist]; omega

/-- Octets held one after another. -/
theorem Arch.holdsOctets_append {a : Arch n} {c : Config} {addr : Word n} {bs cs : List Byte}
    (h : a.HoldsOctets c addr (bs ++ cs)) :
    a.HoldsOctets c addr bs ∧ a.HoldsOctets c (addr + BitVec.ofNat _ bs.length) cs := by
  constructor
  · intro j hj
    have := h j (by simp; omega)
    rwa [List.getElem_append_left hj] at this
  · intro j hj
    have := h (bs.length + j) (by simp; omega)
    rw [octetAddress_add]
    simpa [List.getElem_append_right] using this

/-- A symbol held at an even address is fetched as it is. -/
theorem Arch.fetchSymbol_of_holds {a : Arch n} {c : Config} {addr : Word n} {s : Symbol}
    (he : addr.toNat % 2 = 0) (h : a.HoldsOctets c addr (c.byteOrder.octets ist s.toNat)) :
    a.fetchSymbol c addr = .ok (s, a) := by
  have hm := Arch.memRead_of_holds h
  rw [ByteOrder.length_octets] at hm
  unfold Arch.fetchSymbol
  have hv : BitVec.ofNat 16 (s.toNat % 256 ^ ist) = s := by
    apply BitVec.eq_of_toNat_eq
    have := s.isLt
    simp [ist]
    omega
  simp [he, hm, hv]

/-- One symbol further stays even. -/
theorem symbolAddress_even {addr : Word n} (he : addr.toNat % 2 = 0) (k : Nat) :
    (symbolAddress addr k).toNat % 2 = 0 := by
  unfold symbolAddress
  rcases Nat.eq_zero_or_pos n with rfl | hn
  · have : (addr + BitVec.ofNat (8 * 0) (k * ist)).toNat < 1 := (addr + _).isLt
    omega
  · have hd : 2 ∣ 2 ^ (8 * n) := dvd_pow_self 2 (by omega)
    rw [BitVec.toNat_add, BitVec.toNat_ofNat, Nat.mod_mod_of_dvd _ hd, Nat.add_mod, Nat.mod_mod_of_dvd _ hd, he]
    simp [ist]

/-- Symbols held from an even address are fetched as they are. -/
theorem Arch.fetchSymbols_of_holds {a : Arch n} {c : Config} {addr : Word n} {ss : List Symbol}
    (he : addr.toNat % 2 = 0) (h : a.HoldsOctets c addr (octetsOf c.byteOrder ss)) :
    a.fetchSymbols c addr ss.length = .ok (ss, a) := by
  induction ss generalizing addr with
  | nil => rfl
  | cons s ss ih =>
    rw [octetsOf_cons] at h
    obtain ⟨h0, h1⟩ := Arch.holdsOctets_append h
    have hs := ih (addr := symbolAddress addr 1) (symbolAddress_even he 1)
      (by simpa [symbolAddress] using h1)
    unfold Arch.fetchSymbols
    simp [List.length_cons, Arch.fetchSymbol_of_holds he h0, hs]

/-- An instruction held in memory at the PC, all of its symbols, is fetched as it is, and the PC is
advanced past it. -/
theorem Arch.fetch_of_holds {a : Arch n} {c : Config} {s0 : Symbol} {ss : List Symbol}
    (h : a.HoldsCode c (s0 :: ss)) (hl : ss.length = symbolsToFollow s0) :
    a.fetch c = .ok (s0 :: ss, a.jump (symbolAddress a.pc (1 + ss.length))) := by
  obtain ⟨he, h⟩ := h
  rw [octetsOf_cons] at h
  obtain ⟨h0, h1⟩ := Arch.holdsOctets_append h
  have hs := Arch.fetchSymbols_of_holds (ss := ss) (addr := symbolAddress a.pc 1) (symbolAddress_even he 1)
    (by simpa [symbolAddress] using h1)
  simp [Arch.fetch, Arch.fetchSymbol_of_holds he h0, ← hl, hs]

/-! ### Steps -/

/-- A step that gives a next state: a halted core stays as it is; an external exception is taken; or
what was fetched is executed, or raises Illegal instruction where it decodes to no instruction.
`Arch.fetch_eq_ok` says what the fetch changes. -/
theorem step_eq_next {c : Config} {a : Arch c.wb} {s : State} (h : step ⟨c, a⟩ = .next s) :
    (a.halted = true ∧ s = ⟨c, a⟩) ∨
    (a.halted = false ∧ ∃ dev, a.externalException = some dev ∧ s = ⟨c, a.enterExternal dev⟩) ∨
    (a.halted = false ∧ a.externalException = none ∧ ∃ ss b, a.passBoundary.fetch c = .ok (ss, b) ∧
      ((∃ i rest, decode ss = .ok (i, rest) ∧ exec i ⟨c, b⟩ = .next s) ∨
       ((∃ e, decode ss = .error e) ∧ s = ⟨c, b.raise .illegalInstruction⟩))) := by
  unfold step State.cycle at h
  split at h
  · rename_i hh; cases h; exact .inl ⟨hh, rfl⟩
  · rename_i hh
    have hh : a.halted = false := by simpa using hh
    split at h
    · rename_i dev hd; cases h; exact .inr (.inl ⟨hh, dev, hd, rfl⟩)
    · rename_i hd
      refine .inr (.inr ⟨hh, hd, ?_⟩)
      unfold State.instruction at h
      split at h
      · rename_i e _; cases e <;> cases h
      · rename_i ss t ht
        refine ⟨ss, t, ht, ?_⟩
        unfold State.perform at h
        split at h
        · rename_i i rest hi; exact .inl ⟨i, rest, hi, h⟩
        · rename_i e he; cases h; exact .inr ⟨⟨e, he⟩, rfl⟩

/-- A running core at whose boundary no external exception is taken fetches and performs. -/
theorem step_of_fetch {c : Config} {a t : Arch c.wb} {ss : List Symbol} (hh : a.halted = false)
    (hx : a.externalException = none) (hf : a.passBoundary.fetch c = .ok (ss, t)) :
    step ⟨c, a⟩ = State.perform ⟨c, t⟩ ss := by
  simp [step, State.cycle, State.instruction, hh, hx, hf]

/-- A fetch that stops, stops the step. -/
theorem step_of_fetch_error {c : Config} {a : Arch c.wb} {e : Stop} (hh : a.halted = false)
    (hx : a.externalException = none) (hf : a.passBoundary.fetch c = .error e) :
    step ⟨c, a⟩ = State.conclude ⟨c, a.passBoundary⟩ (.stops e) := by
  simp [step, State.cycle, State.instruction, hh, hx, hf]

end Sys2Proof.Machine
end

