-- ==== Sys2Proof/Laws/PerInstr.lean ====
section
/-! SUPPORT. Statements made for each instruction. -/

namespace Sys2Proof.Laws.EncodedLength

/-- A well-formed instruction's encoding has the length its first symbol gives it: one symbol, and
`L` more when the top nibble is 1111 (30_encoding.md R100, R101). -/
def Statement (i : Instr) : Prop :=
  i.wf = true → ∃ s0 later, encode i = s0 :: later ∧ later.length = symbolsToFollow s0

theorem bitOf_le (b : Bool) : bitOf b ≤ 1 := by cases b <;> decide

theorem modeBits_le (m : XfMode) : modeBits m ≤ 3 := by cases m <;> decide

theorem signedBits_lt (k : Nat) (v : Int) : signedBits k v < 2 ^ k := by
  have h := Int.emod_lt_of_pos v (by positivity : (0 : Int) < 2 ^ k)
  have h0 := Int.emod_nonneg v (by positivity : (2 : Int) ^ k ≠ 0)
  unfold signedBits
  zify
  rw [Int.toNat_of_nonneg h0]
  exact h

/-- A single symbol below 0xF000 is a whole instruction. -/
theorem one_symbol {ss : List Symbol} (v : Nat) (h : v < 0xF000) (he : ss = [symbol v]) :
    ∃ s0 later, ss = s0 :: later ∧ later.length = symbolsToFollow s0 := by
  refine ⟨symbol v, [], he, ?_⟩
  have : bits (symbol v) 15 12 ≠ 15 := by
    simp only [bits, symbol, BitVec.toNat_ofNat, Nat.mod_eq_of_lt (by omega : v < 2 ^ 16)]
    omega
  simp [symbolsToFollow, this]

/-- A first symbol 0xF1.. has one more symbol after it. -/
theorem two_symbols (f : Nat) (a b : Reg) (low : Nat) :
    ∃ s0 later, encodeLong f a b low = s0 :: later ∧ later.length = symbolsToFollow s0 := by
  refine ⟨_, _, rfl, ?_⟩
  have ha := a.isLt
  have hb := b.isLt
  have h : symbolsToFollow (symbol (0xF100 + a.val * 16 + b.val)) = 1 := by
    simp only [symbolsToFollow, bits, symbol, BitVec.toNat_ofNat,
      Nat.mod_eq_of_lt (by omega : 0xF100 + a.val * 16 + b.val < 2 ^ 16)]
    split <;> omega
  rw [h]; rfl

/-- Format A. -/
theorem arithmetic (m : Nat) (hm : m < 8) (s : Operand) (d : Reg) (hs : s.wf = true) :
    ∃ s0 later, encodeArithmetic m s d = s0 :: later ∧ later.length = symbolsToFollow s0 := by
  have hd := d.isLt
  cases s with
  | reg r => exact one_symbol _ (by have := r.isLt; omega) rfl
  | imm v =>
    simp only [Operand.wf, decide_eq_true_eq] at hs
    exact one_symbol _ (by omega) rfl

/-- Format M. -/
theorem misc (m b : Nat) (hm : m < 8) (hb : b < 16) (a : Reg) :
    ∃ s0 later, encodeMisc m b a = s0 :: later ∧ later.length = symbolsToFollow s0 :=
  one_symbol _ (by have := a.isLt; omega) rfl

/-- Format R. -/
theorem branch (m : Nat) (hm : m < 4) (c : BranchOffset) (v : Reg) :
    ∃ s0 later, encodeBranch m c v = s0 :: later ∧ later.length = symbolsToFollow s0 := by
  have hv := v.isLt
  cases c with
  | reg r => exact one_symbol _ (by have := r.isLt; omega) rfl
  | imm k => exact one_symbol _ (by have := signedBits_lt 4 k; omega) rfl

theorem deg : Statement .deg := fun _ => one_symbol 0x0000 (by decide) rfl

theorem eret : Statement .eret := fun _ => one_symbol 0x0001 (by decide) rfl

theorem bit (m : BitVec 4) (s d : Reg) : Statement (.bit m s d) := fun _ =>
  one_symbol _ (by have := m.isLt; have := s.isLt; have := d.isLt; omega) rfl

theorem add (s : Operand) (d : Reg) : Statement (.add s d) := fun h =>
  arithmetic 0 (by decide) s d h

theorem sub (s : Operand) (d : Reg) : Statement (.sub s d) := fun h =>
  arithmetic 1 (by decide) s d h

theorem shl (s : Operand) (d : Reg) : Statement (.shl s d) := fun h =>
  arithmetic 2 (by decide) s d h

theorem shr (s : Operand) (d : Reg) : Statement (.shr s d) := fun h =>
  arithmetic 3 (by decide) s d h

theorem asr (s : Operand) (d : Reg) : Statement (.asr s d) := fun h =>
  arithmetic 4 (by decide) s d h

theorem rol (s : Operand) (d : Reg) : Statement (.rol s d) := fun h =>
  arithmetic 5 (by decide) s d h

theorem ror (s : Operand) (d : Reg) : Statement (.ror s d) := fun h =>
  arithmetic 6 (by decide) s d h

theorem neg (s : Operand) (d : Reg) : Statement (.neg s d) := fun h =>
  arithmetic 7 (by decide) s d h

theorem cmp (f : CmpFlags) (s d : Reg) : Statement (.cmp f s d) := fun _ =>
  one_symbol _ (by
    have := bitOf_le f.invert; have := bitOf_le f.signed; have := bitOf_le f.greater
    have := bitOf_le f.equal; have := s.isLt; have := d.isLt; omega) rfl

theorem xf (src dst : XfOperand) : Statement (.xf src dst) := fun _ =>
  one_symbol _ (by
    have := bitOf_le src.indirect; have := bitOf_le dst.indirect; have := modeBits_le src.mode
    have := modeBits_le dst.mode; have := src.reg.isLt; have := dst.reg.isLt; omega) rfl

theorem jc (c : Reg) (off : Int) : Statement (.jc c off) := fun _ =>
  one_symbol _ (by have := signedBits_lt 8 off; have := c.isLt; omega) rfl

theorem subw (sx : Bool) (count index : Nat) (d : Reg) : Statement (.subw sx count index d) := fun h =>
  one_symbol _ (by
    simp only [Instr.wf, Bool.and_eq_true, decide_eq_true_eq] at h
    have := bitOf_le sx; have := d.isLt; omega) rfl

theorem rsr (r : Reg) (n : Nat) : Statement (.rsr r n) := fun h =>
  one_symbol _ (by
    simp only [Instr.wf, decide_eq_true_eq] at h
    have := r.isLt; omega) rfl

theorem wsr (r : Reg) (n : Nat) : Statement (.wsr r n) := fun h =>
  one_symbol _ (by
    simp only [Instr.wf, decide_eq_true_eq] at h
    have := r.isLt; omega) rfl

theorem si (v : Nat) (d : Reg) : Statement (.si v d) := fun h =>
  one_symbol _ (by
    simp only [Instr.wf, decide_eq_true_eq] at h
    have := d.isLt; omega) rfl

theorem swap (b a : Reg) : Statement (.swap b a) := fun _ =>
  misc 0 b.val (by decide) b.isLt a

theorem mul (b a : Reg) : Statement (.mul b a) := fun _ =>
  misc 1 b.val (by decide) b.isLt a

theorem div (b a : Reg) : Statement (.div b a) := fun _ =>
  misc 2 b.val (by decide) b.isLt a

theorem mod (b a : Reg) : Statement (.mod b a) := fun _ =>
  misc 3 b.val (by decide) b.isLt a

theorem loadReg (b a : Reg) : Statement (.loadReg b a) := fun _ =>
  misc 4 b.val (by decide) b.isLt a

theorem storeReg (b a : Reg) : Statement (.storeReg b a) := fun _ =>
  misc 5 b.val (by decide) b.isLt a

theorem loopI (b a : Reg) : Statement (.loopI b a) := fun _ =>
  misc 6 b.val (by decide) b.isLt a

theorem loop (off : Int) (a : Reg) : Statement (.loop off a) := fun _ =>
  misc 7 _ (by decide) (signedBits_lt 4 off) a

theorem bz (c : BranchOffset) (v : Reg) : Statement (.bz c v) := fun _ =>
  branch 0 (by decide) c v

theorem bnz (c : BranchOffset) (v : Reg) : Statement (.bnz c v) := fun _ =>
  branch 1 (by decide) c v

theorem bgtz (c : BranchOffset) (v : Reg) : Statement (.bgtz c v) := fun _ =>
  branch 2 (by decide) c v

theorem blez (c : BranchOffset) (v : Reg) : Statement (.blez c v) := fun _ =>
  branch 3 (by decide) c v

theorem multiply (a b h lo : Reg) : Statement (.multiply a b h lo) := fun _ => two_symbols 0 a b _

theorem divMod (a b h lo : Reg) : Statement (.divMod a b h lo) := fun _ => two_symbols 1 a b _

theorem loadOff (a b : Reg) (off : Int) : Statement (.loadOff a b off) := fun _ => two_symbols 2 a b _

theorem storeOff (a b : Reg) (off : Int) : Statement (.storeOff a b off) := fun _ => two_symbols 3 a b _

end Sys2Proof.Laws.EncodedLength
end

