-- ==== Sys2Proof/Tests/Slice0.lean ====
section
/-! SUPPORT. Tests on fixed values. Expected results are those of the spec: the vectors V1 to V20 of
95_test_vectors.md, and the encodings of 30_encoding.md written out. The `witness_` theorems show,
for each statement with hypotheses, a state and operands that meet them. -/

namespace Sys2Proof.Tests

open Sys2Proof.Machine

/-! ### Well-formedness: each check refuses an ill-formed term -/

theorem test_wf_refuses_add_literal : Instr.wf (.add (.imm 16) 0) = false := by decide

theorem test_wf_refuses_sub_literal : Instr.wf (.sub (.imm 16) 0) = false := by decide

theorem test_wf_refuses_shl_literal : Instr.wf (.shl (.imm 16) 0) = false := by decide

theorem test_wf_refuses_shr_literal : Instr.wf (.shr (.imm 16) 0) = false := by decide

theorem test_wf_refuses_asr_literal : Instr.wf (.asr (.imm 16) 0) = false := by decide

theorem test_wf_refuses_rol_literal : Instr.wf (.rol (.imm 16) 0) = false := by decide

theorem test_wf_refuses_ror_literal : Instr.wf (.ror (.imm 16) 0) = false := by decide

theorem test_wf_refuses_neg_literal : Instr.wf (.neg (.imm 16) 0) = false := by decide

theorem test_wf_refuses_jc_offset_high : Instr.wf (.jc 0 128) = false := by decide

theorem test_wf_refuses_jc_offset_low : Instr.wf (.jc 0 (-129)) = false := by decide

theorem test_wf_refuses_subw_count_zero : Instr.wf (.subw false 0 0 0) = false := by decide

theorem test_wf_refuses_subw_count_nine : Instr.wf (.subw false 9 0 0) = false := by decide

theorem test_wf_refuses_subw_index : Instr.wf (.subw false 1 16 0) = false := by decide

theorem test_wf_refuses_rsr_number : Instr.wf (.rsr 0 256) = false := by decide

theorem test_wf_refuses_wsr_number : Instr.wf (.wsr 0 256) = false := by decide

theorem test_wf_refuses_si_value : Instr.wf (.si 256 0) = false := by decide

theorem test_wf_refuses_loop_offset_high : Instr.wf (.loop 8 0) = false := by decide

theorem test_wf_refuses_loop_offset_low : Instr.wf (.loop (-9) 0) = false := by decide

theorem test_wf_refuses_bz_offset : Instr.wf (.bz (.imm 8) 0) = false := by decide

theorem test_wf_refuses_bnz_offset : Instr.wf (.bnz (.imm (-9)) 0) = false := by decide

theorem test_wf_refuses_bgtz_offset : Instr.wf (.bgtz (.imm 8) 0) = false := by decide

theorem test_wf_refuses_blez_offset : Instr.wf (.blez (.imm (-9)) 0) = false := by decide

theorem test_wf_refuses_loadoff_offset : Instr.wf (.loadOff 0 0 128) = false := by decide

theorem test_wf_refuses_storeoff_offset : Instr.wf (.storeOff 0 0 (-129)) = false := by decide

/-! ### Decoding: one word of each row, from the examples of 95_test_vectors.md -/

theorem test_decode_deg : decodeTableWord 16 0x0000 = some (.deg) := by decide

theorem test_decode_eret : decodeTableWord 16 0x0001 = some (.eret) := by decide

theorem test_decode_bit : decodeTableWord 16 0x1821 = some (.bit 8 2 1) := by decide

theorem test_decode_add : decodeTableWord 16 0x2851 = some (.add (.imm 5) 1) := by decide

theorem test_decode_sub : decodeTableWord 16 0x2920 = some (.sub (.imm 2) 0) := by decide

theorem test_decode_shl : decodeTableWord 16 0x2221 = some (.shl (.reg 2) 1) := by decide

theorem test_decode_shr : decodeTableWord 16 0x2321 = some (.shr (.reg 2) 1) := by decide

theorem test_decode_asr : decodeTableWord 16 0x2C41 = some (.asr (.imm 4) 1) := by decide

theorem test_decode_rol : decodeTableWord 16 0x2521 = some (.rol (.reg 2) 1) := by decide

theorem test_decode_ror : decodeTableWord 16 0x2E41 = some (.ror (.imm 4) 1) := by decide

theorem test_decode_neg : decodeTableWord 16 0x2721 = some (.neg (.reg 2) 1) := by decide

theorem test_decode_cmp : decodeTableWord 16 0x3621 = some (.cmp ⟨false, true, true, false⟩ 2 1) := by decide

theorem test_decode_xf : decodeTableWord 16 0x68E3 = some (.xf ⟨true, .autoIncrement, 14⟩ ⟨false, .plain, 3⟩) := by decide

theorem test_decode_jc : decodeTableWord 16 0x8180 = some (.jc 1 (-128)) := by decide

theorem test_decode_subw : decodeTableWord 16 0x9FF1 = some (.subw true 7 15 1) := by decide

theorem test_decode_rsr : decodeTableWord 16 0xA13F = some (.rsr 1 63) := by decide

theorem test_decode_wsr : decodeTableWord 16 0xB10A = some (.wsr 1 10) := by decide

theorem test_decode_si : decodeTableWord 16 0xCFFF = some (.si 255 15) := by decide

theorem test_decode_swap : decodeTableWord 16 0xE002 = some (.swap 0 2) := by decide

theorem test_decode_mul : decodeTableWord 16 0xE121 = some (.mul 2 1) := by decide

theorem test_decode_div : decodeTableWord 16 0xE221 = some (.div 2 1) := by decide

theorem test_decode_mod : decodeTableWord 16 0xE321 = some (.mod 2 1) := by decide

theorem test_decode_loadreg : decodeTableWord 16 0xE421 = some (.loadReg 2 1) := by decide

theorem test_decode_storereg : decodeTableWord 16 0xE521 = some (.storeReg 2 1) := by decide

theorem test_decode_loopi : decodeTableWord 16 0xE621 = some (.loopI 2 1) := by decide

theorem test_decode_loop : decodeTableWord 16 0xE7D1 = some (.loop (-3) 1) := by decide

theorem test_decode_bz : decodeTableWord 16 0xE981 = some (.bz (.imm (-8)) 1) := by decide

theorem test_decode_bnz : decodeTableWord 16 0xEA21 = some (.bnz (.reg 2) 1) := by decide

theorem test_decode_bgtz : decodeTableWord 16 0xED31 = some (.bgtz (.imm 3) 1) := by decide

theorem test_decode_blez : decodeTableWord 16 0xEF31 = some (.blez (.imm 3) 1) := by decide

theorem test_decode_multiply : decodeTableWord 32 0xF1120034 = some (.multiply 1 2 3 4) := by decide

theorem test_decode_divmod : decodeTableWord 32 0xF1420134 = some (.divMod 4 2 3 4) := by decide

theorem test_decode_loadoff : decodeTableWord 32 0xF11202FE = some (.loadOff 1 2 (-2)) := by decide

theorem test_decode_storeoff : decodeTableWord 32 0xF1120306 = some (.storeOff 1 2 6) := by decide

theorem test_decode_subword_of_eight : decodeTableWord 16 0x9001 = some (.subw false 8 0 1) := by decide

theorem test_decode_refuses_unassigned : decodeTableWord 16 0xD123 = none := by decide

theorem test_decode_refuses_extender_length : decodeTableWord 16 0xF000 = none := by decide

theorem test_decode_names_truncation : decode [0xF112] = .error .truncated := by decide

/-! ### Machines for the tests -/

/-- The configuration of the vectors without the multiplier. -/
abbrev noMul : Config := { Config.base with hasMul := false }

/-- With signed multiplication and division. -/
abbrev signed : Config := { Config.base with mulDivSigned := true }

/-- Little-endian. -/
abbrev little : Config := { Config.base with byteOrder := .little }

/-- With words of 32 bits. -/
abbrev wide : Config := { Config.base with word := ⟨4, by decide⟩ }

/-- With a debug port that ignores its input. -/
abbrev silent : Config := { Config.base with debugPort := .ignore }

/-- RAM up to 0x7FFF, ROM, a device at 0x9000, a device octet just below an octet of RAM at 0xA001,
one just below nothing at 0xA003, and nothing else. -/
abbrev mapped : Config :=
  { Config.base with
    memMap := [⟨0, 0x8000, .ram⟩, ⟨0x8000, 0x1000, .rom⟩, ⟨0x9000, 0x1001, .device⟩,
      ⟨0xA001, 1, .ram⟩, ⟨0xA002, 1, .device⟩] }

/-- A machine at 0x0100 with these registers, and these words in memory. -/
def machine (c : Config) (regs : List (Reg × Nat)) (words : List (Nat × Nat)) : Arch c.wb :=
  regs.foldl (fun a p => a.writeReg p.1 (BitVec.ofNat _ p.2))
    { Arch.resetOf c with
      mem := words.foldl (fun m p =>
        placeOctets (BitVec.ofNat (8 * c.wb) p.1) 0 (c.byteOrder.octets c.wb p.2) m) [] }

/-- The same machine, with exceptions enabled and the handler at 0x0800. -/
def enabled (c : Config) (regs : List (Reg × Nat)) (words : List (Nat × Nat)) : Arch c.wb :=
  { machine c regs words with handler := 0x0800, ie := true }

/-- One step that runs a word of the opcode table. -/
def run (c : Config) (a : Arch c.wb) (nbits w : Nat) : Host.Outcome State Fault Refusal :=
  step (State.withFetchWord ⟨c, a⟩ nbits w)

/-- The registers with these numbers after a step. -/
def regsAfter (o : Host.Outcome State Fault Refusal) (rs : List Reg) : Option (List Nat) :=
  match o with
  | .next t => some (rs.map fun r => (t.arch.readReg r).toNat)
  | _ => none

/-- The octets at these addresses after a step. -/
def octetsAfter (o : Host.Outcome State Fault Refusal) (xs : List Nat) : Option (List (Option Byte)) :=
  match o with
  | .next t => some (xs.map t.arch.mem.read)
  | _ => none

/-- SR 8, SR 9, SR 4, `IE` and SR 11 bit 1 after a step. -/
def exceptionAfter (o : Host.Outcome State Fault Refusal) : Option (Nat × Nat × Nat × Bool × Bool) :=
  match o with
  | .next t =>
    some (t.arch.continuation.toNat, t.arch.cause.toNat, t.arch.retired.toNat, t.arch.ie, t.arch.regExc)
  | _ => none

/-- Why a step stopped. -/
def stopOf (o : Host.Outcome State Fault Refusal) : Option Stop :=
  match o with
  | .next _ => none
  | .fault f => some (.fault f)
  | .refused r => some (.refuse r)

/-! ### One step of each instruction (95_test_vectors.md) -/

/-- V1. -/
theorem test_deg_enters :
    exceptionAfter (run Config.base (enabled Config.base [] []) 16 0x0000) = some (0x102, 1, 0, false, true) := by decide

/-- V1. -/
theorem test_deg_masked_does_nothing :
    regsAfter (run Config.base (machine Config.base [] []) 16 0x0000) [0] = some [0x102] := by decide

/-- V1. -/
theorem test_eret : regsAfter (run Config.base { machine Config.base [] [] with continuation := 0x122 } 16 0x0001) [0] = some [0x122] := by
  decide

/-- V2. -/
theorem test_bit_nor :
    regsAfter (run Config.base (machine Config.base [(1, 0xFF), (2, 0xF0F)] []) 16 0x1121) [1] = some [0xF000] := by decide

/-- V2. -/
theorem test_bit_reads_pc :
    regsAfter (run Config.base (machine Config.base [] []) 16 0x1A01) [1] = some [0x102] := by decide

/-- V3. -/
theorem test_add_to_pc :
    regsAfter (run Config.base (machine Config.base [] []) 16 0x2840) [0] = some [0x106] := by decide

/-- V3. -/
theorem test_add_wraps :
    regsAfter (run Config.base (machine Config.base [(1, 0x8001)] []) 16 0x2011) [1] = some [0x2] := by decide

/-- V3. -/
theorem test_sub :
    regsAfter (run Config.base (machine Config.base [(1, 0x100)] []) 16 0x2911) [1] = some [0xFF] := by decide

/-- V4. -/
theorem test_shl_by_more_than_width :
    regsAfter (run Config.base (machine Config.base [(1, 0x1), (2, 0x11)] []) 16 0x2221) [1] = some [0x0] := by decide

/-- V4. -/
theorem test_shr :
    regsAfter (run Config.base (machine Config.base [(1, 0x8000), (2, 0xF)] []) 16 0x2321) [1] = some [0x1] := by decide

/-- V4. -/
theorem test_asr_by_more_than_width :
    regsAfter (run Config.base (machine Config.base [(1, 0x8010), (2, 0x14)] []) 16 0x2421) [1] = some [0xFFFF] := by decide

/-- V5. -/
theorem test_rol_modulo_width :
    regsAfter (run Config.base (machine Config.base [(1, 0x1234), (2, 0x14)] []) 16 0x2521) [1] = some [0x2341] := by decide

/-- V5. -/
theorem test_ror :
    regsAfter (run Config.base (machine Config.base [(1, 0x1234)] []) 16 0x2E41) [1] = some [0x4123] := by decide

/-- V5. -/
theorem test_neg :
    regsAfter (run Config.base (machine Config.base [] []) 16 0x2F51) [1] = some [0xFFFB] := by decide

/-- V6b. -/
theorem test_cmp_greater_signed_wide :
    regsAfter (run wide (machine wide [(1, 0x80000000), (2, 0x7FFFFFFF)] []) 16 0x3621) [1] = some [0x0] := by decide

/-- V6b. -/
theorem test_cmp_to_pc :
    regsAfter (run Config.base (machine Config.base [(1, 0x102)] []) 16 0x3110) [0] = some [0x1] := by decide

/-- V7. -/
theorem test_jc_not_taken :
    regsAfter (run Config.base (machine Config.base [(1, 0x0)] []) 16 0x8103) [0] = some [0x102] := by decide

/-- V7. -/
theorem test_jc_on_pc :
    regsAfter (run Config.base (machine Config.base [] []) 16 0x8005) [0] = some [0x10C] := by decide

/-- V8. -/
theorem test_bz_by_odd_register :
    regsAfter (run Config.base (machine Config.base [(1, 0x0), (2, 0x3)] []) 16 0xE821) [0] = some [0x105] := by decide

/-- V8. -/
theorem test_bnz :
    regsAfter (run Config.base (machine Config.base [(1, 0x1)] []) 16 0xEBF1) [0] = some [0x100] := by decide

/-- V8. -/
theorem test_bgtz_negative :
    regsAfter (run Config.base (machine Config.base [(1, 0x8000)] []) 16 0xED31) [0] = some [0x102] := by decide

/-- V8. -/
theorem test_blez :
    regsAfter (run Config.base (machine Config.base [(1, 0xFFFF)] []) 16 0xEF31) [0] = some [0x108] := by decide

/-- V9. -/
theorem test_swap_pc :
    regsAfter (run Config.base (machine Config.base [(2, 0x400)] []) 16 0xE002) [2, 0] = some [0x102, 0x400] := by decide

/-- V9. -/
theorem test_mul_low_word :
    regsAfter (run Config.base (machine Config.base [(1, 0x123), (2, 0x100)] []) 16 0xE121) [1] = some [0x2300] := by decide

/-- V9. -/
theorem test_mul_absent_masked :
    regsAfter (run noMul (machine noMul [(1, 0x3), (2, 0x4)] []) 16 0xE121) [1, 0] = some [0x3, 0x102] := by decide

/-- V9. -/
theorem test_div_unsigned :
    regsAfter (run Config.base (machine Config.base [(1, 0xFFF9), (2, 0x2)] []) 16 0xE221) [1] = some [0x7FFC] := by decide

/-- V9. -/
theorem test_div_by_zero :
    exceptionAfter (run Config.base (enabled Config.base [(1, 0x9), (2, 0x0)] []) 16 0xE221) = some (0x102, 0, 0, false, true) := by decide

/-- V9. -/
theorem test_mod_signed :
    regsAfter (run signed (machine signed [(1, 0xFFF9), (2, 0x2)] []) 16 0xE321) [1] = some [0xFFFF] := by decide

/-- V9, as for DIV. -/
theorem test_mod_overflow_refused :
    stopOf (run signed (machine signed [(1, 0x8000), (2, 0xFFFF)] []) 16 0xE321) = some (.refuse .divideOverflow) := by decide

/-- V10. -/
theorem test_loadreg :
    regsAfter (run Config.base (machine Config.base [(2, 0x5), (5, 0xABCD)] []) 16 0xE421) [1] = some [0xABCD] := by decide

/-- V10. -/
theorem test_loadreg_index_refused :
    stopOf (run Config.base (machine Config.base [(2, 0x10)] []) 16 0xE421) = some (.refuse (.registerIndex 16)) := by decide

/-- V10. -/
theorem test_storereg :
    regsAfter (run Config.base (machine Config.base [(1, 0x7777), (2, 0x9)] []) 16 0xE521) [9] = some [0x7777] := by decide

/-- V10. -/
theorem test_loopi :
    regsAfter (run Config.base (machine Config.base [(1, 0x3), (2, 0xFFFA)] []) 16 0xE621) [1, 0] = some [0x2, 0xFC] := by decide

/-- V10. -/
theorem test_loop_from_zero :
    regsAfter (run Config.base (machine Config.base [(1, 0x0)] []) 16 0xE7F1) [1, 0] = some [0xFFFF, 0x100] := by decide

/-- V10. -/
theorem test_loop_on_pc :
    regsAfter (run Config.base (machine Config.base [] []) 16 0xE720) [0] = some [0x105] := by decide

/-- V11. -/
theorem test_subw :
    regsAfter (run Config.base (machine Config.base [(1, 0xABCD)] []) 16 0x9111) [1] = some [0xAB] := by decide

/-- V11. -/
theorem test_subw_signed_beyond_register :
    regsAfter (run Config.base (machine Config.base [(1, 0xABCD)] []) 16 0x9A11) [1] = some [0xAB] := by decide

/-- V12. -/
theorem test_rsr_retired : regsAfter (run Config.base { machine Config.base [] [] with retired := 0x29 } 16 0xA104) [1] = some [0x29] := by
  decide

/-- V12. -/
theorem test_rsr_write_only_refused :
    stopOf (run Config.base (machine Config.base [] []) 16 0xA103) = some (.refuse (.readOfWriteOnly 3)) := by decide

/-- V13. -/
theorem test_wsr_retired :
    exceptionAfter (run Config.base (machine Config.base [(1, 0x10)] []) 16 0xB104) = some (0, 0, 0x11, false, false) := by decide

/-- V13. -/
theorem test_wsr_power_reserved_refused :
    stopOf (run Config.base (machine Config.base [(1, 0x2)] []) 16 0xB103) = some (.refuse .powerStateReserved) := by decide

/-- V14. -/
theorem test_si_to_pc :
    regsAfter (run Config.base (machine Config.base [] []) 16 0xC800) [0] = some [0x80] := by decide

/-- V15. -/
theorem test_xf_pop :
    regsAfter (run Config.base (machine Config.base [(14, 0xFFE)] [(0xFFE, 0x1234)]) 16 0x68E3) [3, 14] = some [0x1234, 0x1000] := by decide

/-- V17. -/
theorem test_xf_push_little_wide :
    octetsAfter (run { wide with byteOrder := .little } (machine { wide with byteOrder := .little } [(14, 0x1000), (3, 0x11223344)] []) 16 0x463E) [0xFFC, 0xFFD, 0xFFE, 0xFFF] = some [some 0x44, some 0x33, some 0x22, some 0x11] := by decide

/-- V18. -/
theorem test_multiply_signed :
    regsAfter (run signed (machine signed [(1, 0xFFFE), (2, 0x3)] []) 32 0xF1120034) [3, 4] = some [0xFFFF, 0xFFFA] := by decide

/-- V18. -/
theorem test_divmod_two_divisors :
    regsAfter (run Config.base (machine Config.base [(3, 0x0), (4, 0x64), (1, 0x9), (2, 0x7)] []) 32 0xF1120134) [1, 2] = some [0xB, 0x2] := by decide

/-- V18. -/
theorem test_divmod_overflow_refused :
    stopOf (run Config.base (machine Config.base [(3, 0x1), (4, 0x0), (1, 0x1), (2, 0x7)] []) 32 0xF1120134) = some (.refuse .quotientOverflow) := by decide

/-- V19. -/
theorem test_loadoff_wraps :
    regsAfter (run Config.base (machine Config.base [(2, 0xFFFE)] [(0x2, 0xCAFE)]) 32 0xF1120204) [1] = some [0xCAFE] := by decide

/-- V15, as for XF. -/
theorem test_loadoff_unwritten_faults :
    stopOf (run Config.base (machine Config.base [(2, 0x300)] []) 32 0xF1120200) = some (.fault (.unwrittenMemory 0x300)) := by decide

/-- V19. -/
theorem test_storeoff_pc :
    octetsAfter (run Config.base (machine Config.base [(2, 0x200)] []) 32 0xF1020300) [0x200, 0x201] = some [some 1, some 4] := by decide

/-- U26. -/
theorem test_storeoff_misaligned_refused :
    stopOf (run Config.base (machine Config.base [(2, 0x201)] []) 32 0xF1120300) = some (.refuse (.misalignedAccess 0x201)) := by decide

/-- V20. -/
theorem test_unassigned_enters :
    exceptionAfter (run Config.base (enabled Config.base [] []) 16 0x0FFF) = some (0x102, 1, 0, false, true) := by decide

/-- V20. -/
theorem test_long_operation_enters_past_both_symbols :
    exceptionAfter (run Config.base (enabled Config.base [] []) 32 0xF1120400) = some (0x104, 1, 0, false, true) := by decide

/-! ### Witnesses: states and operands that meet the hypotheses of the statements -/

/-- A machine whose PC is at these symbols. -/
def coded (c : Config) (ss : List Symbol) : Arch c.wb := (machine c [] []).place c.byteOrder ss

theorem witness_decoding_an_encoding_gives_it_back :
    Instr.wf (.jc 15 (-128)) = true ∧ Instr.wf (.subw true 8 15 15) = true ∧ Instr.wf (.si 255 0) = true := by
  decide

theorem witness_encoding_a_decoding_gives_it_back :
    decode [0xF1FF, 0x037F, 0xBEEF] = .ok (.storeOff 15 15 127, [0xBEEF]) ∧
    decode [0x9001] = .ok (.subw false 8 0 1, []) := by decide

theorem witness_opcode_map_unassigned_low :
    0x0002 ≤ (0x0002 : Symbol).toNat ∧ (0x0FFF : Symbol).toNat ≤ 0x0FFF ∧
    decode [0x0002] = .error (.unassigned 0x0002) ∧ decode [0x0FFF] = .error (.unassigned 0x0FFF) := by decide

theorem witness_opcode_map_unassigned_d :
    0xD000 ≤ (0xD000 : Symbol).toNat ∧ (0xDFFF : Symbol).toNat ≤ 0xDFFF ∧
    decode [0xD000] = .error (.unassigned 0xD000) ∧ decode [0xDFFF] = .error (.unassigned 0xDFFF) := by decide

theorem witness_opcode_map_long_length :
    0xF000 ≤ (0xF000 : Symbol).toNat ∧ (0xF000 : Symbol).toNat / 256 % 16 ≠ 1 ∧
    decode [0xF000] = .error (.longLength 0) ∧ decode [0xFFFF] = .error (.longLength 15) := by decide

theorem witness_opcode_map_long_extension :
    0xF100 ≤ (0xF100 : Symbol).toNat ∧ (0xF1FF : Symbol).toNat ≤ 0xF1FF ∧ 0x1000 ≤ (0x1000 : Symbol).toNat ∧
    decode [0xF100, 0x1000] = .error (.longExtension 1) ∧
    decode [0xF1FF, 0xFFFF] = .error (.longExtension 15) := by decide

theorem witness_opcode_map_long_operation :
    0x0400 ≤ (0x0400 : Symbol).toNat ∧ (0x0FFF : Symbol).toNat ≤ 0x0FFF ∧
    decode [0xF100, 0x0400] = .error (.longOperation 4) ∧
    decode [0xF1FF, 0x0FFF] = .error (.longOperation 15) := by decide

theorem witness_opcode_map_long_accepted :
    (0x03FF : Symbol).toNat ≤ 0x03FF ∧ decode [0xF100, 0x0000] = .ok (.multiply 0 0 0 0, []) ∧
    decode [0xF1FF, 0x03FF] = .ok (.storeOff 15 15 (-1), []) := by decide

theorem witness_opcode_map_short_accepted :
    (0x0001 : Symbol).toNat ≤ 0x0001 ∧ 0x1000 ≤ (0x1000 : Symbol).toNat ∧
    (0xCFFF : Symbol).toNat ≤ 0xCFFF ∧ 0xE000 ≤ (0xE000 : Symbol).toNat ∧ (0xEFFF : Symbol).toNat ≤ 0xEFFF ∧
    decode [0x0001] = .ok (.eret, []) ∧ decode [0x1000] = .ok (.bit 0 0 0, []) ∧
    decode [0xCFFF] = .ok (.si 255 15, []) ∧ decode [0xE000] = .ok (.swap 0 0, []) ∧
    decode [0xEFFF] = .ok (.blez (.imm (-1)) 15, []) := by decide

theorem witness_octets_stand_in_byte_order : 1 < [(0x12 : Byte), 0x34].length := by decide

theorem witness_step_runs_the_instruction_at_the_pc :
    Instr.wf (.loadOff 1 2 (-2)) = true ∧ (coded wide (encode (.loadOff 1 2 (-2)))).halted = false ∧
    (coded wide (encode (.loadOff 1 2 (-2)))).externalException = none ∧
    (coded wide (encode (.loadOff 1 2 (-2)))).HoldsCode wide (encode (.loadOff 1 2 (-2))) := by
  simp only [Arch.HoldsCode, Arch.HoldsOctets]
  decide

theorem witness_unimplemented_words_unassigned :
    (coded little [0x0002]).halted = false ∧ (coded little [0x0002]).externalException = none ∧
    (coded little [0x0002]).HoldsCode little [0x0002] ∧ Unimplemented 0x0002 [] ∧ Unimplemented 0x0FFF [] ∧
    Unimplemented 0xD000 [] ∧ Unimplemented 0xDFFF [] := by
  refine ⟨by decide, by decide, ?_, .inl (by decide), .inl (by decide), .inr (.inl (by decide)),
    .inr (.inl (by decide))⟩
  simp only [Arch.HoldsCode, Arch.HoldsOctets]
  decide

theorem witness_unimplemented_words_long :
    (coded Config.base [0xF312, 1, 2, 3]).HoldsCode Config.base [0xF312, 1, 2, 3] ∧
    [(1 : Symbol), 2, 3].length = (if 0xF000 ≤ (0xF312 : Symbol).toNat then (0xF312 : Symbol).toNat / 256 % 16 else 0) ∧
    Unimplemented 0xF312 [1, 2, 3] ∧ Unimplemented 0xF000 [] ∧
    (coded Config.base [0xF112, 0x0400]).HoldsCode Config.base [0xF112, 0x0400] ∧
    Unimplemented 0xF112 [0x0400] ∧ Unimplemented 0xF1FF [0xFFFF] := by
  refine ⟨?_, by decide, .inr (.inr (.inl (by decide))), .inr (.inr (.inl (by decide))), ?_,
    .inr (.inr (.inr ⟨by decide, by decide, _, _, rfl, by decide⟩)),
    .inr (.inr (.inr ⟨by decide, by decide, _, _, rfl, by decide⟩))⟩ <;>
  · simp only [Arch.HoldsCode, Arch.HoldsOctets]
    decide

theorem witness_odd_fetch :
    (machine Config.base [(0, 0x0101)] []).halted = false ∧
    (machine Config.base [(0, 0x0101)] []).externalException = none ∧
    (machine Config.base [(0, 0x0101)] []).pc.toNat % 2 = 1 := by decide

theorem witness_halt :
    (machine Config.base [(1, 1)] []).readReg 1 = 1 ∧
    ({ machine Config.base [] [] with halted := true } : Arch 2).halted = true := by decide

theorem witness_external_exception :
    let a : Arch 2 := { enabled Config.base [] [] with extEn := true, pins := [[0xD000, 0xD100]] }
    a.halted = false ∧ a.ie = true ∧ a.extEn = true ∧ a.pins.headD [] ≠ [] := by decide

theorem witness_masked_pins :
    let a : Arch 2 := { enabled Config.base [] [] with pins := [[0xD000]] }
    let b : Arch 2 := { machine Config.base [] [] with extEn := true, pins := [[0xD000]] }
    (a.halted = false ∧ a.extEn = false) ∧ (b.halted = false ∧ b.ie = false) := by decide

theorem witness_pending_exception_after_return :
    let a : Arch 2 := { machine Config.base [] [] with extEn := true, pins := [[0xD000], []] }
    a.halted = false ∧ a.extEn = true ∧ a.pins = [0xD000] :: [[]] := by decide

theorem witness_raised :
    (enabled Config.base [] []).ie = true ∧ (machine Config.base [] []).ie = false := by decide

theorem witness_operand_literals : Operand.wf (.imm 0) = true ∧ Operand.wf (.imm 15) = true ∧ Operand.wf (.reg 0) = true := by
  decide

theorem witness_comparison_holds_and_does_not :
    namedRelation 6 (0x7FFF : Word 2) 0x8000 ∧ ¬ namedRelation 2 (0x7FFF : Word 2) 0x8000 ∧
    namedRelation 8 (0 : Word 2) 0 ∧ ¬ namedRelation 0 (0 : Word 2) 0 := by
  simp only [namedRelation]
  decide

theorem witness_jc :
    (machine Config.base [(1, 1)] []).readReg 1 ≠ 0 ∧ (machine Config.base [(1, 0)] []).readReg 1 = 0 := by decide

theorem witness_branch_tests :
    ((machine Config.base [(1, 0)] []).readReg 1).toInt = 0 ∧ ((machine Config.base [(1, 1)] []).readReg 1).toInt ≠ 0 ∧
    0 < ((machine Config.base [(1, 0x7FFF)] []).readReg 1).toInt ∧
    ((machine Config.base [(1, 0x8000)] []).readReg 1).toInt ≤ 0 := by decide

theorem witness_loop_counters :
    let f (v : Nat) : Contents := (machine Config.base [(1, v)] []).contents.put 1
      ((((machine Config.base [(1, v)] []).readReg 1).toNat + (2 ^ (8 * 2) - 1)) % 2 ^ (8 * 2))
    f 1 1 = 0 ∧ f 2 1 ≠ 0 ∧ f 0 1 ≠ 0 := by decide

theorem witness_even_pc_after_jc :
    exec (.jc 1 (-2)) ⟨Config.base, machine Config.base [(1, 1)] []⟩ =
      .next ⟨Config.base, ((machine Config.base [(1, 1)] []).jumpBy (symbolOffset _ (-2))).retire⟩ := rfl

theorem witness_even_pc_after_bz :
    exec (.bz (.imm 7) 1) ⟨Config.base, machine Config.base [(1, 1)] []⟩ =
      .next ⟨Config.base, (machine Config.base [(1, 1)] []).retire⟩ := rfl

theorem witness_even_pc_after_bnz :
    exec (.bnz (.imm (-8)) 1) ⟨Config.base, machine Config.base [(1, 1)] []⟩ =
      .next ⟨Config.base, ((machine Config.base [(1, 1)] []).jumpBy (symbolOffset _ (-8))).retire⟩ := rfl

theorem witness_even_pc_after_bgtz :
    exec (.bgtz (.imm 1) 1) ⟨Config.base, machine Config.base [(1, 1)] []⟩ =
      .next ⟨Config.base, ((machine Config.base [(1, 1)] []).jumpBy (symbolOffset _ 1)).retire⟩ := rfl

theorem witness_even_pc_after_blez :
    exec (.blez (.imm 1) 1) ⟨Config.base, machine Config.base [(1, 1)] []⟩ =
      .next ⟨Config.base, (machine Config.base [(1, 1)] []).retire⟩ := rfl

theorem witness_even_pc_after_loop :
    exec (.loop (-3) 1) ⟨Config.base, machine Config.base [(1, 1)] []⟩ =
      .next ⟨Config.base, ((machine Config.base [(1, 1)] []).countDown 1).retire⟩ := rfl

theorem witness_mul_gates : Config.base.hasMul = true ∧ noMul.hasMul = false := by decide

theorem witness_div_and_mod_cases :
    noMul.hasMul = false ∧ ((machine Config.base [(2, 0)] []).readReg 2).toNat = 0 ∧
    Config.base.mulDivSigned = false ∧ ((machine Config.base [(2, 1)] []).readReg 2).toNat ≠ 0 ∧
    ((machine signed [(1, 0x8000)] []).readReg 1).toInt = -2 ^ (8 * signed.wb - 1) ∧
    ((machine signed [(2, 0xFFFF)] []).readReg 2).toInt = -1 ∧
    ¬ (((machine signed [(1, 0x8001)] []).readReg 1).toInt = -2 ^ (8 * signed.wb - 1)) := by decide

theorem witness_quotient_and_remainder :
    signed.hasMul = true ∧ (machine signed [(1, 0xFFF9), (2, 2)] []).readReg 2 ≠ 0 ∧
    exec (.div 2 1) ⟨signed, machine signed [(1, 0xFFF9), (2, 2)] []⟩ =
      .next ⟨signed, ((machine signed [(1, 0xFFF9), (2, 2)] []).writeReg 1 0xFFFD).retire⟩ ∧
    exec (.mod 2 1) ⟨signed, machine signed [(1, 0xFFF9), (2, 2)] []⟩ =
      .next ⟨signed, ((machine signed [(1, 0xFFF9), (2, 2)] []).writeReg 1 0xFFFF).retire⟩ :=
  ⟨rfl, by decide, rfl, rfl⟩

theorem witness_register_numbers :
    ((machine Config.base [(2, 0)] []).readReg 2).toNat = (0 : Reg).val ∧
    ((machine Config.base [(2, 15)] []).readReg 2).toNat = (15 : Reg).val ∧
    15 < ((machine Config.base [(2, 16)] []).readReg 2).toNat := by decide

theorem witness_subword_fields :
    (1 ≤ 1 ∧ 1 ≤ 8 ∧ 0 < 16) ∧ (1 ≤ 8 ∧ 8 ≤ 8 ∧ 15 < 16) := by decide

theorem witness_small_immediate : 255 < 256 := by decide

theorem witness_system_registers_read :
    (machine Config.base [] []).sysRegNat Config.base 0 = some 0 ∧
    (machine Config.base [] []).sysRegNat Config.base 11 = some 0 ∧
    (machine Config.base [] []).sysRegNat Config.base 63 = some 0 ∧
    ¬ sysRegDefined 12 ∧ ¬ sysRegDefined 62 ∧ ¬ sysRegDefined 64 ∧ ¬ sysRegDefined 255 := by
  simp only [sysRegDefined]
  decide

theorem witness_system_registers_written :
    (machine Config.base [(1, 1)] []).readReg 1 = 1 ∧ (1 : Word 2).toNat = 1 ∧
    (0 : Word 2).toNat = 0 ∧ 1 < (2 : Word 2).toNat ∧
    Config.base.debugPort = .emit ∧ silent.debugPort = .ignore := by decide

/-- A pop: the source is indirect and in RAM. -/
theorem witness_transfer_from_memory :
    let a := machine Config.base [(14, 0x0FFE)] [(0x0FFE, 0x1234)]
    let src : XfOperand := ⟨true, .autoIncrement, 14⟩
    let dst : XfOperand := ⟨false, .plain, 3⟩
    (0x0FFE : Word 2).toNat = a.contents.before 2 src src.reg ∧
    (0 : Word 2).toNat = a.contents.atStore 2 src dst dst.reg ∧
    a.Readable Config.base (0x0FFE : Word 2) := by
  simp only [Arch.Readable]
  decide

/-- A push: the destination is indirect and in RAM. -/
theorem witness_transfer_to_memory :
    let a := machine Config.base [(14, 0x1000), (3, 0x1234)] []
    let src : XfOperand := ⟨false, .plain, 3⟩
    let dst : XfOperand := ⟨true, .autoDecrement, 14⟩
    (0x1234 : Word 2).toNat = a.contents.before 2 src src.reg ∧
    (0x0FFE : Word 2).toNat = a.contents.atStore 2 src dst dst.reg ∧
    Writable Config.base (0x0FFE : Word 2) := by
  simp only [Writable]
  decide

/-- A device on both sides. -/
theorem witness_transfer_through_a_device :
    let a := machine mapped [(1, 0x9000), (2, 0x9002)] []
    let src : XfOperand := ⟨true, .plain, 1⟩
    let dst : XfOperand := ⟨true, .autoPostDecrement, 2⟩
    (0x9000 : Word 2).toNat = a.contents.before 2 src src.reg ∧
    (0x9002 : Word 2).toNat = a.contents.atStore 2 src dst dst.reg ∧
    a.Readable mapped (0x9000 : Word 2) ∧ Writable mapped (0x9002 : Word 2) := by
  simp only [Arch.Readable, Writable]
  decide

theorem witness_load_with_offset :
    (machine Config.base [(2, 0x0200)] [(0x01FE, 0xCAFE)]).Readable Config.base
      ((machine Config.base [(2, 0x0200)] [(0x01FE, 0xCAFE)]).offsetAddress 2 (-2)) ∧
    (machine mapped [(2, 0x8000)] [(0x8000, 0xCAFE)]).Readable mapped
      ((machine mapped [(2, 0x8000)] [(0x8000, 0xCAFE)]).offsetAddress 2 0) ∧
    (machine mapped [(2, 0x9000)] []).Readable mapped ((machine mapped [(2, 0x9000)] []).offsetAddress 2 0) := by
  simp only [Arch.Readable]
  decide

theorem witness_store_with_offset :
    Writable Config.base ((machine Config.base [(2, 0x0200)] []).offsetAddress 2 6) ∧
    Writable mapped ((machine mapped [(2, 0x9000)] []).offsetAddress 2 0) := by
  simp only [Writable]
  decide

theorem witness_misaligned_accesses :
    ((machine Config.base [(2, 0x0201)] []).offsetAddress 2 0).toNat % 2 ≠ 0 ∧
    (machine Config.base [(2, 0x0201)] []).contents.before 2 ⟨true, .plain, 2⟩ 2 % 2 ≠ 0 ∧
    (machine Config.base [(2, 0x0201)] []).contents.atStore 2 ⟨false, .plain, 1⟩ ⟨true, .plain, 2⟩ 2 % 2 ≠ 0 := by
  decide

/-- The source is indirect and can be read, and the destination is misaligned. -/
theorem witness_misaligned_destination :
    let a := machine Config.base [(1, 0x0200), (2, 0x0201)] [(0x0200, 0xBEEF)]
    (0x0200 : Word 2).toNat = a.contents.before 2 ⟨true, .plain, 1⟩ 1 ∧
    a.Readable Config.base (0x0200 : Word 2) ∧
    a.contents.atStore 2 ⟨true, .plain, 1⟩ ⟨true, .plain, 2⟩ 2 % 2 ≠ 0 := by
  simp only [Arch.Readable]
  decide

/-- The first octet is where nothing is, or is RAM or ROM that nothing has written. -/
theorem witness_loads_of_nothing_first_octet :
    let a := machine mapped [(1, 0xB000), (2, 0x0200), (3, 0x8000)] []
    a.ReadFault mapped (octetAddress (0xB000 : Word 2) 0) (.unmappedAddress 0xB000) ∧
    a.ReadFault mapped (octetAddress (0x0200 : Word 2) 0) (.unwrittenMemory 0x0200) ∧
    a.ReadFault mapped (octetAddress (0x8000 : Word 2) 0) (.unwrittenMemory 0x8000) ∧
    a.offsetAddress 1 0 = 0xB000 ∧ a.offsetAddress 2 0 = 0x0200 ∧ a.offsetAddress 3 0 = 0x8000 ∧
    (0x0200 : Word 2).toNat = a.contents.before 2 ⟨true, .plain, 2⟩ 2 := by decide

/-- The first octet is a device's or written, and the second cannot be read. -/
theorem witness_loads_of_nothing_second_octet :
    let a := { machine mapped [(1, 0xA002), (2, 0xA000)] [] with mem := [(0x0200, 0xBE)] }
    (∀ i, i < 1 → a.OctetReadable mapped (octetAddress (0xA002 : Word 2) i)) ∧
    a.ReadFault mapped (octetAddress (0xA002 : Word 2) 1) (.unmappedAddress 0xA003) ∧
    (∀ i, i < 1 → a.OctetReadable mapped (octetAddress (0x0200 : Word 2) i)) ∧
    a.ReadFault mapped (octetAddress (0x0200 : Word 2) 1) (.unwrittenMemory 0x0201) := by decide

/-- The first octet is where nothing is or is ROM, and the second is where nothing is. -/
theorem witness_stores_to_nothing_or_rom :
    let a := machine mapped [(1, 0xB000), (2, 0x8000), (3, 0xA002)] []
    StoreStop mapped (octetAddress (0xB000 : Word 2) 0) (.fault (.unmappedAddress 0xB000)) ∧
    StoreStop mapped (octetAddress (0x8000 : Word 2) 0) (.refuse (.storeToRom 0x8000)) ∧
    (∀ i, i < 1 → OctetWritable mapped (octetAddress (0xA002 : Word 2) i)) ∧
    StoreStop mapped (octetAddress (0xA002 : Word 2) 1) (.fault (.unmappedAddress 0xA003)) ∧
    a.offsetAddress 1 0 = 0xB000 ∧
    (0xB000 : Word 2).toNat = a.contents.before 2 ⟨false, .plain, 1⟩ 1 ∧
    (0x8000 : Word 2).toNat = a.contents.atStore 2 ⟨false, .plain, 1⟩ ⟨true, .plain, 2⟩ 2 := by decide

/-- Nothing stands at the PC; or a long header does, and nothing after it. -/
theorem witness_fetches_of_nothing :
    let a := machine Config.base [] []
    let b := machine Config.base [] [(0x0100, 0xF112)]
    a.halted = false ∧ a.externalException = none ∧ a.HoldsCode Config.base [] ∧
    a.ReadFault Config.base (octetAddress (symbolAddress a.pc 0) 0) (.unwrittenMemory 0x0100) ∧
    b.halted = false ∧ b.externalException = none ∧ b.HoldsCode Config.base [0xF112] ∧
    ([] : List Symbol).length < (0xF112 : Symbol).toNat / 256 % 16 ∧
    b.ReadFault Config.base (octetAddress (symbolAddress b.pc 1) 0) (.unwrittenMemory 0x0102) := by
  simp only [Arch.HoldsCode, Arch.HoldsOctets]
  decide

theorem witness_load_after_store :
    ((machine Config.base [(2, 0xFFFE)] []).offsetAddress 2 0).toNat % 2 = 0 ∧
    ∀ j, j < 2 → regionKind Config.base.memMap
      (octetAddress ((machine Config.base [(2, 0xFFFE)] []).offsetAddress 2 0) j) = some .ram := by decide

theorem witness_pop_after_push :
    (3 : Reg) ≠ 14 ∧
    ((machine Config.base [(14, 0x1000)] []).readReg 14 - BitVec.ofNat (8 * Config.base.wb) 2).toNat % 2 = 0 ∧
    ∀ j, j < 2 → regionKind Config.base.memMap
      (octetAddress ((machine Config.base [(14, 0x1000)] []).readReg 14 - BitVec.ofNat (8 * Config.base.wb) 2) j) = some .ram := by
  decide

theorem witness_multiply_cases :
    noMul.hasMul = false ∧ Config.base.hasMul = true ∧ (3 : Reg) ≠ 4 ∧
    Config.base.mulDivSigned = false ∧ signed.mulDivSigned = true := by decide

/-- The cases of DIVMOD: dividend, divisor of `A` and divisor of `B`, unsigned, signed, and too wide. -/
theorem witness_divmod_cases :
    let a := machine Config.base [(3, 1), (4, 0), (1, 0x10), (2, 7), (5, 1)] []
    let b := machine signed [(3, 0xFFFF), (4, 0xFF9C), (1, 9), (2, 7)] []
    (0x10000 : Int) = (a.readReg 3).toNat * 2 ^ (8 * 2) + (a.readReg 4).toNat ∧
    (0x10 : Int) = (a.readReg 1).toNat ∧ (7 : Int) = (a.readReg 2).toNat ∧ (1 : Int) = (a.readReg 5).toNat ∧
    (0x10000 / 0x10 : Int) < 2 ^ (8 * 2) ∧ ¬ ((0x10000 / 1 : Int) < 2 ^ (8 * 2)) ∧
    (-100 : Int) = (b.readReg 3).toInt * 2 ^ (8 * 2) + (b.readReg 4).toNat ∧
    (9 : Int) = (b.readReg 1).toInt ∧ (7 : Int) = (b.readReg 2).toInt ∧
    -2 ^ (8 * 2 - 1) ≤ (-100 : Int).tdiv 9 ∧ (-100 : Int).tdiv 9 ≤ 2 ^ (8 * 2 - 1) - 1 := by decide

theorem witness_without_multiplier : noMul.hasMul = false := by decide

theorem witness_zero_divisors :
    Config.base.hasMul = true ∧ (machine Config.base [(2, 0)] []).readReg 2 = 0 ∧ (1 : Reg) ≠ 2 := by decide

theorem witness_retired_completion :
    exec (.wsr 1 4) ⟨Config.base, machine Config.base [(1, 0x10)] []⟩ =
      .next ⟨Config.base, { machine Config.base [(1, 0x10)] [] with retired := 0x11 }⟩ ∧
    exec (.si 7 1) ⟨Config.base, machine Config.base [] []⟩ =
      .next ⟨Config.base, { machine Config.base [(1, 7)] [] with retired := 1 }⟩ := ⟨rfl, rfl⟩

/-- DEG with exceptions enabled enters the handler and is not counted. -/
theorem witness_retired_entry :
    exec .deg ⟨Config.base, enabled Config.base [] []⟩ =
      .next ⟨Config.base, (enabled Config.base [] []).enter true 1⟩ ∧
    (enabled Config.base [] []).ie = true ∧
    ((enabled Config.base [] []).enter true 1).retired = (enabled Config.base [] []).retired :=
  ⟨rfl, rfl, rfl⟩

theorem witness_precise_exception :
    exec .deg ⟨Config.base, enabled Config.base [] []⟩ =
      .next ⟨Config.base, (enabled Config.base [] []).enter true 1⟩ ∧
    (enabled Config.base [] []).ie = true ∧ ((enabled Config.base [] []).enter true 1).ie = false :=
  ⟨rfl, rfl, rfl⟩

/-- ERET at the PC turns exceptions on; so does a write of 1 to SR 63. -/
theorem witness_enabling_exceptions :
    exceptionAfter (step ⟨Config.base, coded Config.base (encode .eret)⟩) = some (0, 0, 1, true, false) ∧
    (coded Config.base (encode .eret)).ie = false ∧
    exceptionAfter (run Config.base (machine Config.base [(1, 1)] []) 16 0xB13F) = some (0, 0, 1, true, false) := by
  decide

/-- A write of SR 2 and a write of SR 11 at the PC. -/
theorem witness_handler_and_enable_written :
    (match run Config.base (machine Config.base [(1, 1)] []) 16 0xB102 with
      | .next t => t.arch.handler.toNat
      | _ => 0) = 1 ∧
    (match run Config.base (machine Config.base [(1, 1)] []) 16 0xB10B with
      | .next t => t.arch.extEn
      | _ => false) = true := by decide

theorem witness_store_changes_memory :
    exec (.storeOff 1 2 0) ⟨Config.base, machine Config.base [(1, 0xCAFE), (2, 0x0200)] []⟩ =
      .next ⟨Config.base,
        { machine Config.base [(1, 0xCAFE), (2, 0x0200)] [(0x0200, 0xCAFE)] with retired := 1 }⟩ ∧
    (machine Config.base [] [(0x0200, 0xCAFE)]).mem.read 0x0200 ≠ (machine Config.base [] []).mem.read 0x0200 :=
  ⟨rfl, by decide⟩

/-- A step, from a state with the invariant, that stores to memory. -/
theorem witness_step_from_an_invariant_state :
    let a := (machine Config.base [(1, 0xCAFE), (2, 0x0200)] []).place .big (encode (.storeOff 1 2 0))
    State.Inv ⟨Config.base, a⟩ ∧ octetsAfter (step ⟨Config.base, a⟩) [0x0200] = some [some 0xCA] := by
  simp only [State.Inv, Arch.Inv]
  decide

theorem witness_reset_invariant : State.reset.Inv := by
  simp only [State.Inv, Arch.Inv]
  decide

end Sys2Proof.Tests
end

/-! SUPPORT. The fields of a symbol that was made of fields, and that decoding undoes encoding
(30_encoding.md R104 to R116). -/

namespace Sys2Proof

/-! ### Fields -/

/-- A field of the symbol with value `v`, where arithmetic gives it the value `w`. -/
theorem bits_symbol {v w hi lo : Nat} (hv : v < 2 ^ 16) (h : v / 2 ^ lo % 2 ^ (hi + 1 - lo) = w) :
    bits (symbol v) hi lo = w := by
  rw [bits, symbol, BitVec.toNat_ofNat, Nat.mod_eq_of_lt hv, h]

theorem regField_eq {s : Symbol} {lo : Nat} {r : Reg} (h : bits s (lo + 3) lo = r.val) :
    regField s lo = r := by
  simp [regField, h]

theorem regField_symbol {v lo : Nat} {r : Reg} (hv : v < 2 ^ 16) (h : v / 2 ^ lo % 16 = r.val) :
    regField (symbol v) lo = r :=
  regField_eq (bits_symbol hv (by rwa [show lo + 3 + 1 - lo = 4 by omega]))

theorem flagBit_symbol {v k : Nat} {b : Bool} (hv : v < 2 ^ 16) (h : v / 2 ^ k % 2 = bitOf b) :
    flagBit (symbol v) k = b := by
  have hb : bits (symbol v) k k = bitOf b := bits_symbol hv (by rwa [Nat.add_sub_cancel_left])
  cases b <;> simp [flagBit, hb, bitOf]

theorem bitOf_false : bitOf false = 0 := rfl

theorem bitOf_true : bitOf true = 1 := rfl

@[simp] theorem decodeMode_modeBits (m : XfMode) : decodeMode (modeBits m) = m := by cases m <;> rfl

/-- The number of bytes of a Subword, 1 to 8, is kept by its field, in which 0 stands for 8. -/
theorem decodeCount_mod {count : Nat} (h1 : 1 ≤ count) (h8 : count ≤ 8) :
    decodeCount (count % 8) = count := by
  unfold decodeCount
  split <;> omega

/-- Two's complement in `k` bits: a number that fits is read back (00_scope.md R10). -/
theorem signedField_signedBits {k : Nat} {v : Int} (hk : 0 < k) (hlo : -2 ^ (k - 1) ≤ v)
    (hhi : v < 2 ^ (k - 1)) : signedField k (signedBits k v) = v := by
  obtain ⟨k, rfl⟩ : ∃ j, k = j + 1 := ⟨k - 1, by omega⟩
  simp only [Nat.add_sub_cancel] at hlo hhi
  have hpos : (0 : Int) < 2 ^ k := by positivity
  have hpow : (2 : Int) ^ (k + 1) = 2 * 2 ^ k := by ring
  have hcast : ((2 ^ k : Nat) : Int) = 2 ^ k := by simp
  unfold signedField signedBits
  rw [Nat.add_sub_cancel, hpow]
  rcases Int.lt_or_le v 0 with hv | hv
  · have hmod : v % (2 * 2 ^ k) = v + 2 * 2 ^ k := by
      rw [← Int.add_emod_right, Int.emod_eq_of_lt (by omega) (by omega)]
    rw [hmod, if_neg (by omega)]
    omega
  · rw [Int.emod_eq_of_lt hv (by omega), if_pos (by omega)]
    omega

theorem signedField4_signedBits {k : Int} (h : fits4 k = true) : signedField 4 (signedBits 4 k) = k := by
  simp only [fits4, Bool.and_eq_true, decide_eq_true_eq] at h
  exact signedField_signedBits (by decide) h.1 (by norm_num; omega)

theorem signedField8_signedBits {k : Int} (h : fits8 k = true) : signedField 8 (signedBits 8 k) = k := by
  simp only [fits8, Bool.and_eq_true, decide_eq_true_eq] at h
  exact signedField_signedBits (by decide) h.1 (by norm_num; omega)

/-! ### The formats -/

/-- A one-symbol instruction decodes by its symbol alone. -/
theorem decode_short {s : Symbol} {i : Instr} (h : bits s 15 12 ≠ 15) (hd : decodeShort s = .ok i)
    (rest : List Symbol) : decode ([s] ++ rest) = .ok (i, rest) := by
  simp [decode, h, hd, Except.map]

/-- Format A (R106): the fields of its symbol. -/
theorem encodeArithmetic_fields {m : Nat} (hm : m < 8) {s : Operand} (d : Reg) (hs : s.wf = true) :
    ∃ y, encodeArithmetic m s d = [y] ∧ bits y 15 12 = 2 ∧ bits y 10 8 = m ∧ decodeOperand y = s ∧
      regField y 0 = d := by
  have hd := d.isLt
  cases s with
  | reg r =>
    have hr := r.isLt
    have hi : flagBit (symbol (0x2000 + m * 256 + r.val * 16 + d.val)) 11 = false :=
      flagBit_symbol (by omega) (by rw [bitOf_false]; omega)
    refine ⟨_, rfl, bits_symbol (by omega) (by omega), bits_symbol (by omega) (by omega), ?_,
      regField_symbol (by omega) (by omega)⟩
    rw [decodeOperand, hi, regField_symbol (r := r) (by omega) (by omega)]
    rfl
  | imm v =>
    have hv : v < 16 := by simpa [Operand.wf] using hs
    have hi : flagBit (symbol (0x2800 + m * 256 + v * 16 + d.val)) 11 = true :=
      flagBit_symbol (by omega) (by rw [bitOf_true]; omega)
    refine ⟨_, rfl, bits_symbol (by omega) (by omega), bits_symbol (by omega) (by omega), ?_,
      regField_symbol (by omega) (by omega)⟩
    rw [decodeOperand, hi, bits_symbol (w := v) (by omega) (by omega)]
    rfl

/-- Format M (R113): the fields of its symbol. -/
theorem encodeMisc_fields {m b : Nat} (hm : m < 8) (hb : b < 16) (a : Reg) :
    ∃ y, encodeMisc m b a = [y] ∧ bits y 15 12 = 14 ∧ flagBit y 11 = false ∧ bits y 10 8 = m ∧
      bits y 7 4 = b ∧ regField y 0 = a := by
  have ha := a.isLt
  exact ⟨_, rfl, bits_symbol (by omega) (by omega),
    flagBit_symbol (by omega) (by rw [bitOf_false]; omega),
    bits_symbol (by omega) (by omega), bits_symbol (by omega) (by omega),
    regField_symbol (by omega) (by omega)⟩

/-- Format R (R114): the fields of its symbol. -/
theorem encodeBranch_fields {m : Nat} (hm : m < 4) {c : BranchOffset} (v : Reg) (hc : c.wf = true) :
    ∃ y, encodeBranch m c v = [y] ∧ bits y 15 12 = 14 ∧ flagBit y 11 = true ∧ bits y 10 9 = m ∧
      decodeBranchOffset y = c ∧ regField y 0 = v := by
  have hv := v.isLt
  cases c with
  | reg r =>
    have hr := r.isLt
    have hi : flagBit (symbol (0xE800 + m * 512 + r.val * 16 + v.val)) 8 = false :=
      flagBit_symbol (by omega) (by rw [bitOf_false]; omega)
    refine ⟨_, rfl, bits_symbol (by omega) (by omega),
      flagBit_symbol (by omega) (by rw [bitOf_true]; omega),
      bits_symbol (by omega) (by omega), ?_, regField_symbol (by omega) (by omega)⟩
    rw [decodeBranchOffset, hi, regField_symbol (r := r) (by omega) (by omega)]
    rfl
  | imm k =>
    have hk := Laws.EncodedLength.signedBits_lt 4 k
    have hi : flagBit (symbol (0xE900 + m * 512 + signedBits 4 k * 16 + v.val)) 8 = true :=
      flagBit_symbol (by omega) (by rw [bitOf_true]; omega)
    refine ⟨_, rfl, bits_symbol (by omega) (by omega),
      flagBit_symbol (by omega) (by rw [bitOf_true]; omega),
      bits_symbol (by omega) (by omega), ?_, regField_symbol (by omega) (by omega)⟩
    rw [decodeBranchOffset, hi, bits_symbol (w := signedBits 4 k) (by omega) (by omega),
      signedField4_signedBits hc]
    rfl

/-- Format L (R115): the fields of its two symbols. -/
theorem encodeLong_fields {f low : Nat} (hf : f < 16) (hl : low < 256) (a b : Reg) :
    ∃ y z, encodeLong f a b low = [y, z] ∧ bits y 15 12 = 15 ∧ bits y 11 8 = 1 ∧ regField y 4 = a ∧
      regField y 0 = b ∧ bits z 15 12 = 0 ∧ bits z 11 8 = f ∧ bits z 7 0 = low := by
  have ha := a.isLt
  have hb := b.isLt
  exact ⟨_, _, rfl, bits_symbol (by omega) (by omega), bits_symbol (by omega) (by omega),
    regField_symbol (by omega) (by omega), regField_symbol (by omega) (by omega),
    bits_symbol (by omega) (by omega), bits_symbol (by omega) (by omega),
    bits_symbol (by omega) (by omega)⟩

/-- The two register fields of the low eight bits. -/
theorem regField_of_low {s : Symbol} {h l : Reg} (hl : bits s 7 0 = h.val * 16 + l.val) :
    regField s 4 = h ∧ regField s 0 = l := by
  have h4 : bits s 7 4 = bits s 7 0 / 16 := by simp only [bits]; omega
  have h0 : bits s 3 0 = bits s 7 0 % 16 := by simp only [bits]; omega
  have := l.isLt
  exact ⟨regField_eq (by rw [h4]; omega), regField_eq (by rw [h0]; omega)⟩

/-! ### Decoding an encoding -/

/-- Format A: what the decoder makes of the fields is what it gives. -/
theorem decode_encodeArithmetic {m : Nat} (hm : m < 8) {s : Operand} {d : Reg} {i : Instr}
    (hs : s.wf = true)
    (hi : ∀ y, bits y 10 8 = m → decodeOperand y = s → regField y 0 = d → decodeArithmetic y = i)
    (rest : List Symbol) : decode (encodeArithmetic m s d ++ rest) = .ok (i, rest) := by
  obtain ⟨y, he, ht, hop, hsrc, hd⟩ := encodeArithmetic_fields hm d hs
  rw [he]
  exact decode_short (by simp [ht]) (by simp [decodeShort, ht, hi y hop hsrc hd]) rest

/-- Format M: what the decoder makes of the fields is what it gives. -/
theorem decode_encodeMisc {m b : Nat} (hm : m < 8) (hb : b < 16) {a : Reg} {i : Instr}
    (hi : ∀ y, bits y 10 8 = m → bits y 7 4 = b → regField y 0 = a → decodeMisc y = i)
    (rest : List Symbol) : decode (encodeMisc m b a ++ rest) = .ok (i, rest) := by
  obtain ⟨y, he, ht, hf, hop, hsrc, hd⟩ := encodeMisc_fields hm hb a
  rw [he]
  exact decode_short (by simp [ht]) (by simp [decodeShort, ht, hf, hi y hop hsrc hd]) rest

/-- Format M with two registers. -/
theorem decode_encodeMisc_reg {m : Nat} (hm : m < 8) {b a : Reg} {i : Instr}
    (hi : ∀ y, bits y 10 8 = m → regField y 4 = b → regField y 0 = a → decodeMisc y = i)
    (rest : List Symbol) : decode (encodeMisc m b.val a ++ rest) = .ok (i, rest) :=
  decode_encodeMisc hm b.isLt (fun y hop hb => hi y hop (regField_eq hb)) rest

/-- Format R: what the decoder makes of the fields is what it gives. -/
theorem decode_encodeBranch {m : Nat} (hm : m < 4) {c : BranchOffset} {v : Reg} {i : Instr}
    (hc : c.wf = true)
    (hi : ∀ y, bits y 10 9 = m → decodeBranchOffset y = c → regField y 0 = v → decodeBranch y = i)
    (rest : List Symbol) : decode (encodeBranch m c v ++ rest) = .ok (i, rest) := by
  obtain ⟨y, he, ht, hf, hop, hsrc, hd⟩ := encodeBranch_fields hm v hc
  rw [he]
  exact decode_short (by simp [ht]) (by simp [decodeShort, ht, hf, hi y hop hsrc hd]) rest

/-- Format L: what the decoder makes of the fields is what it gives. -/
theorem decode_encodeLong {f low : Nat} (hf : f < 16) (hl : low < 256) {a b : Reg} {i : Instr}
    (hi : ∀ y z, regField y 4 = a → regField y 0 = b → bits z 15 12 = 0 → bits z 11 8 = f →
      bits z 7 0 = low → decodeLong y z = .ok i)
    (rest : List Symbol) : decode (encodeLong f a b low ++ rest) = .ok (i, rest) := by
  obtain ⟨y, z, he, ht, hn, ha, hb, hz, hop, hlow⟩ := encodeLong_fields hf hl a b
  rw [he]
  simp [decode, ht, hn, hi y z ha hb hz hop hlow, Except.map]

theorem decodeShort_xf {s : Symbol} (hlo : 4 ≤ bits s 15 12) (hhi : bits s 15 12 < 8) :
    decodeShort s = .ok (.xf ⟨flagBit s 13, decodeMode (bits s 12 11), regField s 4⟩
      ⟨flagBit s 10, decodeMode (bits s 9 8), regField s 0⟩) := by
  have ht : bits s 15 12 = 4 ∨ bits s 15 12 = 5 ∨ bits s 15 12 = 6 ∨ bits s 15 12 = 7 := by omega
  rcases ht with h | h | h | h <;> simp [decodeShort, h]

theorem decode_encode_bit (m : BitVec 4) (s d : Reg) (rest : List Symbol) :
    decode (encode (.bit m s d) ++ rest) = .ok (.bit m s d, rest) := by
  have hm := m.isLt
  have hs := s.isLt
  have hd := d.isLt
  have ht : bits (symbol (0x1000 + m.toNat * 256 + s.val * 16 + d.val)) 15 12 = 1 :=
    bits_symbol (by omega) (by omega)
  refine decode_short (by rw [ht]; decide) ?_ rest
  simp only [decodeShort, ht]
  rw [bits_symbol (w := m.toNat) (by omega) (by omega), regField_symbol (r := s) (by omega) (by omega),
    regField_symbol (r := d) (by omega) (by omega), BitVec.ofNat_toNat, BitVec.setWidth_eq]

theorem decode_encode_cmp (f : CmpFlags) (s d : Reg) (rest : List Symbol) :
    decode (encode (.cmp f s d) ++ rest) = .ok (.cmp f s d, rest) := by
  have hiv := Laws.EncodedLength.bitOf_le f.invert
  have hsg := Laws.EncodedLength.bitOf_le f.signed
  have hg := Laws.EncodedLength.bitOf_le f.greater
  have he := Laws.EncodedLength.bitOf_le f.equal
  have hs := s.isLt
  have hd := d.isLt
  have ht : bits (symbol (0x3000 + bitOf f.invert * 2048 + bitOf f.signed * 1024 + bitOf f.greater * 512
      + bitOf f.equal * 256 + s.val * 16 + d.val)) 15 12 = 3 := bits_symbol (by omega) (by omega)
  refine decode_short (by rw [ht]; decide) ?_ rest
  simp only [decodeShort, ht]
  rw [flagBit_symbol (b := f.invert) (by omega) (by omega),
    flagBit_symbol (b := f.signed) (by omega) (by omega),
    flagBit_symbol (b := f.greater) (by omega) (by omega),
    flagBit_symbol (b := f.equal) (by omega) (by omega),
    regField_symbol (r := s) (by omega) (by omega), regField_symbol (r := d) (by omega) (by omega)]

theorem decode_encode_xf (src dst : XfOperand) (rest : List Symbol) :
    decode (encode (.xf src dst) ++ rest) = .ok (.xf src dst, rest) := by
  have hsi := Laws.EncodedLength.bitOf_le src.indirect
  have hsm := Laws.EncodedLength.modeBits_le src.mode
  have hdi := Laws.EncodedLength.bitOf_le dst.indirect
  have hdm := Laws.EncodedLength.modeBits_le dst.mode
  have hs := src.reg.isLt
  have hd := dst.reg.isLt
  have ht : bits (symbol (0x4000 + bitOf src.indirect * 8192 + modeBits src.mode * 2048
      + bitOf dst.indirect * 1024 + modeBits dst.mode * 256 + src.reg.val * 16 + dst.reg.val)) 15 12 =
      4 + bitOf src.indirect * 2 + modeBits src.mode / 2 := bits_symbol (by omega) (by omega)
  refine decode_short (by rw [ht]; omega) ?_ rest
  rw [decodeShort_xf (by rw [ht]; omega) (by rw [ht]; omega),
    flagBit_symbol (b := src.indirect) (by omega) (by omega),
    flagBit_symbol (b := dst.indirect) (by omega) (by omega),
    bits_symbol (w := modeBits src.mode) (by omega) (by omega),
    bits_symbol (w := modeBits dst.mode) (by omega) (by omega),
    regField_symbol (r := src.reg) (by omega) (by omega),
    regField_symbol (r := dst.reg) (by omega) (by omega), decodeMode_modeBits, decodeMode_modeBits]

theorem decode_encode_subw (sx : Bool) {count index : Nat} (h1 : 1 ≤ count) (h8 : count ≤ 8)
    (hi : index < 16) (d : Reg) (rest : List Symbol) :
    decode (encode (.subw sx count index d) ++ rest) = .ok (.subw sx count index d, rest) := by
  have hsx := Laws.EncodedLength.bitOf_le sx
  have hd := d.isLt
  have ht : bits (symbol (0x9000 + bitOf sx * 2048 + count % 8 * 256 + index * 16 + d.val)) 15 12 = 9 :=
    bits_symbol (by omega) (by omega)
  refine decode_short (by rw [ht]; decide) ?_ rest
  simp only [decodeShort, ht]
  rw [flagBit_symbol (b := sx) (by omega) (by omega), bits_symbol (w := count % 8) (by omega) (by omega),
    bits_symbol (w := index) (by omega) (by omega), regField_symbol (r := d) (by omega) (by omega),
    decodeCount_mod h1 h8]

/-- A register above an eight-bit field (R107, R109): the fields of the symbol. -/
theorem symbol_reg_low_fields {t low : Nat} (ht : t < 16) (hl : low < 256) (r : Reg) :
    bits (symbol (t * 4096 + r.val * 256 + low)) 15 12 = t ∧
    regField (symbol (t * 4096 + r.val * 256 + low)) 8 = r ∧
    bits (symbol (t * 4096 + r.val * 256 + low)) 7 0 = low := by
  have hr := r.isLt
  exact ⟨bits_symbol (by omega) (by omega), regField_symbol (by omega) (by omega),
    bits_symbol (by omega) (by omega)⟩

theorem decode_encode_jc (c : Reg) {off : Int} (h : fits8 off = true) (rest : List Symbol) :
    decode (encode (.jc c off) ++ rest) = .ok (.jc c off, rest) := by
  obtain ⟨ht, hc, ho⟩ :=
    symbol_reg_low_fields (t := 8) (by decide) (Laws.EncodedLength.signedBits_lt 8 off) c
  exact decode_short (by rw [ht]; decide)
    (by simp only [decodeShort, ht, hc, ho, signedField8_signedBits h]) rest

theorem decode_encode_rsr (r : Reg) {n : Nat} (h : n < 256) (rest : List Symbol) :
    decode (encode (.rsr r n) ++ rest) = .ok (.rsr r n, rest) := by
  obtain ⟨ht, hr, hn⟩ := symbol_reg_low_fields (t := 10) (by decide) h r
  exact decode_short (by rw [ht]; decide) (by simp only [decodeShort, ht, hr, hn]) rest

theorem decode_encode_wsr (r : Reg) {n : Nat} (h : n < 256) (rest : List Symbol) :
    decode (encode (.wsr r n) ++ rest) = .ok (.wsr r n, rest) := by
  obtain ⟨ht, hr, hn⟩ := symbol_reg_low_fields (t := 11) (by decide) h r
  exact decode_short (by rw [ht]; decide) (by simp only [decodeShort, ht, hr, hn]) rest

theorem decode_encode_si {v : Nat} (h : v < 256) (d : Reg) (rest : List Symbol) :
    decode (encode (.si v d) ++ rest) = .ok (.si v d, rest) := by
  have hd := d.isLt
  have ht : bits (symbol (0xC000 + v * 16 + d.val)) 15 12 = 12 := bits_symbol (by omega) (by omega)
  refine decode_short (by rw [ht]; decide) ?_ rest
  simp only [decodeShort, ht]
  rw [bits_symbol (w := v) (by omega) (by omega), regField_symbol (r := d) (by omega) (by omega)]

theorem regs_low_lt (h l : Reg) : h.val * 16 + l.val < 256 := by
  have := h.isLt
  have := l.isLt
  omega

/-- The decoder undoes the encoder on every well-formed instruction, whatever follows it. -/
theorem decode_encode (i : Instr) (hi : i.wf = true) (rest : List Symbol) :
    decode (encode i ++ rest) = .ok (i, rest) := by
  cases i with
  | deg => exact decode_short (by decide) rfl rest
  | eret => exact decode_short (by decide) rfl rest
  | bit m s d => exact decode_encode_bit m s d rest
  | add s d | sub s d | shl s d | shr s d | asr s d | rol s d | ror s d | neg s d =>
    exact decode_encodeArithmetic (by decide) hi
      (fun y hm hs hd => by simp [decodeArithmetic, hm, hs, hd]) rest
  | cmp f s d => exact decode_encode_cmp f s d rest
  | xf src dst => exact decode_encode_xf src dst rest
  | jc c off => exact decode_encode_jc c hi rest
  | subw sx count index d =>
    simp only [Instr.wf, Bool.and_eq_true, decide_eq_true_eq] at hi
    obtain ⟨⟨h1, h8⟩, hx⟩ := hi
    exact decode_encode_subw sx h1 h8 hx d rest
  | rsr r n => exact decode_encode_rsr r (of_decide_eq_true hi) rest
  | wsr r n => exact decode_encode_wsr r (of_decide_eq_true hi) rest
  | si v d => exact decode_encode_si (of_decide_eq_true hi) d rest
  | swap b a | mul b a | div b a | mod b a | loadReg b a | storeReg b a | loopI b a =>
    exact decode_encodeMisc_reg (by decide) (fun y hm hb ha => by simp [decodeMisc, hm, hb, ha]) rest
  | loop off a =>
    exact decode_encodeMisc (by decide) (Laws.EncodedLength.signedBits_lt 4 off)
      (fun y hm hb ha => by simp [decodeMisc, hm, hb, ha, signedField4_signedBits hi]) rest
  | bz c v | bnz c v | bgtz c v | blez c v =>
    exact decode_encodeBranch (by decide) hi (fun y hm hc hv => by simp [decodeBranch, hm, hc, hv]) rest
  | multiply a b h lo | divMod a b h lo =>
    refine decode_encodeLong (by decide) (regs_low_lt h lo) (fun y z ha hb hz hf hl => ?_) rest
    obtain ⟨hh, hlo⟩ := regField_of_low hl
    simp [decodeLong, ha, hb, hz, hf, hh, hlo]
  | loadOff a b off | storeOff a b off =>
    exact decode_encodeLong (by decide) (Laws.EncodedLength.signedBits_lt 8 off)
      (fun y z ha hb hz hf hl => by simp [decodeLong, ha, hb, hz, hf, hl, signedField8_signedBits hi]) rest

/-- A well-formed instruction's first symbol announces the symbols its encoding has after it. -/
theorem encode_length_announced (i : Instr) : Laws.EncodedLength.Statement i := by
  cases i with
  | deg => exact Laws.EncodedLength.deg
  | eret => exact Laws.EncodedLength.eret
  | bit m s d => exact Laws.EncodedLength.bit m s d
  | add s d => exact Laws.EncodedLength.add s d
  | sub s d => exact Laws.EncodedLength.sub s d
  | shl s d => exact Laws.EncodedLength.shl s d
  | shr s d => exact Laws.EncodedLength.shr s d
  | asr s d => exact Laws.EncodedLength.asr s d
  | rol s d => exact Laws.EncodedLength.rol s d
  | ror s d => exact Laws.EncodedLength.ror s d
  | neg s d => exact Laws.EncodedLength.neg s d
  | cmp f s d => exact Laws.EncodedLength.cmp f s d
  | xf src dst => exact Laws.EncodedLength.xf src dst
  | jc c off => exact Laws.EncodedLength.jc c off
  | subw sx count index d => exact Laws.EncodedLength.subw sx count index d
  | rsr r n => exact Laws.EncodedLength.rsr r n
  | wsr r n => exact Laws.EncodedLength.wsr r n
  | si v d => exact Laws.EncodedLength.si v d
  | swap b a => exact Laws.EncodedLength.swap b a
  | mul b a => exact Laws.EncodedLength.mul b a
  | div b a => exact Laws.EncodedLength.div b a
  | mod b a => exact Laws.EncodedLength.mod b a
  | loadReg b a => exact Laws.EncodedLength.loadReg b a
  | storeReg b a => exact Laws.EncodedLength.storeReg b a
  | loopI b a => exact Laws.EncodedLength.loopI b a
  | loop off a => exact Laws.EncodedLength.loop off a
  | bz c v => exact Laws.EncodedLength.bz c v
  | bnz c v => exact Laws.EncodedLength.bnz c v
  | bgtz c v => exact Laws.EncodedLength.bgtz c v
  | blez c v => exact Laws.EncodedLength.blez c v
  | multiply a b h lo => exact Laws.EncodedLength.multiply a b h lo
  | divMod a b h lo => exact Laws.EncodedLength.divMod a b h lo
  | loadOff a b off => exact Laws.EncodedLength.loadOff a b off
  | storeOff a b off => exact Laws.EncodedLength.storeOff a b off

end Sys2Proof

/-! SUPPORT. Where a fetch stops, and what a step runs (10_state.md R25, 20_memory.md R80). -/

namespace Sys2Proof.Machine

variable {n : Nat}

/-- The number of symbols a first symbol announces, read off its value (30_encoding.md R101). -/
theorem symbolsToFollow_eq (s : Symbol) :
    symbolsToFollow s = if 0xF000 ≤ s.toNat then s.toNat / 256 % 16 else 0 := by
  have hs := s.isLt
  have ht : bits s 15 12 = 15 ↔ 0xF000 ≤ s.toNat := by simp only [bits]; omega
  simp only [symbolsToFollow, ht]
  rfl

theorem symbolAddress_zero (addr : Word n) : symbolAddress addr 0 = addr := by simp [symbolAddress]

theorem symbolAddress_symbolAddress (addr : Word n) (j k : Nat) :
    symbolAddress (symbolAddress addr j) k = symbolAddress addr (j + k) := by
  simp only [symbolAddress]
  rw [BitVec.add_assoc, ← BitVec.ofNat_add, Nat.add_mul]

/-- The first octet of the symbol at `addr` that cannot be read, octet `j` of it, faults with `f`
(20_memory.md R80, 10_state.md R54). -/
structure Arch.SymbolFault (a : Arch n) (c : Config) (addr : Word n) (j : Nat) (f : Fault) : Prop where
  inSymbol : j < ist
  readable : ∀ i, i < j → a.OctetReadable c (octetAddress addr i)
  fault : a.ReadFault c (octetAddress addr j) f

/-- A symbol with an octet that cannot be read is not fetched. -/
theorem Arch.fetchSymbol_of_fault {a : Arch n} {c : Config} {addr : Word n} {j : Nat} {f : Fault}
    (he : addr.toNat % 2 = 0) (h : a.SymbolFault c addr j f) :
    a.fetchSymbol c addr = .error (.fault f) := by
  simp [Arch.fetchSymbol, he, Arch.memRead_of_fault h.inSymbol h.readable h.fault]

/-- Symbols held one after another. -/
theorem Arch.holdsOctets_octetsOf_cons {a : Arch n} {c : Config} {addr : Word n} {s : Symbol}
    {ss : List Symbol} (h : a.HoldsOctets c addr (octetsOf c.byteOrder (s :: ss))) :
    a.HoldsOctets c addr (c.byteOrder.octets ist s.toNat) ∧
      a.HoldsOctets c (symbolAddress addr 1) (octetsOf c.byteOrder ss) := by
  rw [octetsOf_cons] at h
  obtain ⟨hs, hss⟩ := Arch.holdsOctets_append h
  exact ⟨hs, by simpa [symbolAddress] using hss⟩

theorem symbolAddress_succ (addr : Word n) (k : Nat) :
    symbolAddress addr (k + 1) = symbolAddress (symbolAddress addr 1) k := by
  rw [symbolAddress_symbolAddress, Nat.add_comm]

/-- Of `k` symbols the ones in `ss`, fewer than `k`, are held by memory: when the next one faults, the
fetch does. -/
theorem Arch.fetchSymbols_of_fault {a : Arch n} {c : Config} {addr : Word n} {ss : List Symbol}
    {j k : Nat} {f : Fault} (he : addr.toNat % 2 = 0)
    (hh : a.HoldsOctets c addr (octetsOf c.byteOrder ss)) (hk : ss.length < k)
    (h : a.SymbolFault c (symbolAddress addr ss.length) j f) :
    a.fetchSymbols c addr k = .error (.fault f) := by
  induction ss generalizing addr k with
  | nil =>
    cases k with
    | zero => exact absurd hk (Nat.not_lt_zero _)
    | succ k =>
      rw [List.length_nil, symbolAddress_zero] at h
      rw [Arch.fetchSymbols, Arch.fetchSymbol_of_fault he h]
  | cons s ss ih =>
    cases k with
    | zero => exact absurd hk (Nat.not_lt_zero _)
    | succ k =>
      obtain ⟨hs, hss⟩ := Arch.holdsOctets_octetsOf_cons hh
      rw [List.length_cons, symbolAddress_succ] at h
      have hrest := ih (symbolAddress_even he 1) hss (Nat.lt_of_succ_lt_succ hk) h
      simp only [Arch.fetchSymbols, Arch.fetchSymbol_of_holds he hs, hrest]

/-- An instruction of which memory holds the symbols `ss` at the PC, and whose next symbol faults, is
not fetched. -/
theorem Arch.fetch_of_fault {a : Arch n} {c : Config} {ss : List Symbol} {j : Nat} {f : Fault}
    (hh : a.HoldsCode c ss)
    (hl : ∀ s0 later, ss = s0 :: later → later.length < symbolsToFollow s0)
    (h : a.SymbolFault c (symbolAddress a.pc ss.length) j f) : a.fetch c = .error (.fault f) := by
  obtain ⟨he, hh⟩ := hh
  cases ss with
  | nil =>
    rw [List.length_nil, symbolAddress_zero] at h
    rw [Arch.fetch, Arch.fetchSymbol_of_fault he h]
  | cons s0 later =>
    obtain ⟨h0, hlater⟩ := Arch.holdsOctets_octetsOf_cons hh
    rw [List.length_cons, symbolAddress_succ] at h
    have hrest := Arch.fetchSymbols_of_fault (symbolAddress_even he 1) hlater (hl s0 later rfl) h
    simp only [Arch.fetch, Arch.fetchSymbol_of_holds he h0, hrest]

end Sys2Proof.Machine

/-! SUPPORT. What a step can do to the state that software alone writes, said once (10_state.md R27,
R36, R45, R46, R49, R52). -/

namespace Sys2Proof.Machine

variable {n : Nat}

/-- From `a` to `t` no instruction has completed, as far as the state tells that software alone
writes: SR 2, SR 11 bit 0 and both outputs are as before, and exceptions were not turned on. Fetches
and exception entries are of this kind. -/
structure Arch.LeavesSoftwareState (a t : Arch n) : Prop where
  handler : t.handler = a.handler
  extEn : t.extEn = a.extEn
  ie : t.ie = true → a.ie = true
  debugOut : t.debugOut = a.debugOut
  deviceOut : t.deviceOut = a.deviceOut

theorem Arch.LeavesSoftwareState.refl (a : Arch n) : a.LeavesSoftwareState a :=
  ⟨rfl, rfl, id, rfl, rfl⟩

theorem Arch.LeavesSoftwareState.trans {a b t : Arch n} (h : a.LeavesSoftwareState b)
    (h' : b.LeavesSoftwareState t) : a.LeavesSoftwareState t :=
  ⟨h'.handler.trans h.handler, h'.extEn.trans h.extEn, h.ie ∘ h'.ie, h'.debugOut.trans h.debugOut,
    h'.deviceOut.trans h.deviceOut⟩

theorem Arch.leavesSoftwareState_raise (a : Arch n) (q : Cause) : a.LeavesSoftwareState (a.raise q) := by
  refine ⟨by simp, by simp, fun h => ?_, by simp, by simp⟩
  cases hie : a.ie with
  | true => rfl
  | false => simp [Arch.raise_of_disabled hie, hie] at h

theorem Arch.leavesSoftwareState_enterExternal (a : Arch n) (dev : Word n) :
    a.LeavesSoftwareState (a.enterExternal dev) := by
  constructor <;> simp [Arch.enterExternal]

/-- The boundary and the fetch after it complete nothing. -/
theorem Arch.leavesSoftwareState_fetch {a b : Arch n} {c : Config} {ss : List Symbol}
    (h : a.passBoundary.fetch c = .ok (ss, b)) : a.LeavesSoftwareState b := by
  obtain ⟨d, p, rfl⟩ := Arch.fetch_eq_ok h
  exact ⟨rfl, rfl, id, rfl, rfl⟩

/-- An instruction keeps the parameters. -/
theorem exec_keeps_cfg {i : Instr} {c : Config} {a : Arch c.wb} {s : State}
    (h : exec i ⟨c, a⟩ = .next s) : s.cfg = c := by
  rcases exec_eq_next h with ⟨q, -, -, rfl⟩ | ⟨v, rfl, -⟩ <;> rfl

/-- A step either completes no instruction, or executes to its end the instruction it fetched and
decoded; `Completed` says what that one can have done before it is counted. -/
theorem step_completes {c : Config} {a t : Arch c.wb} (h : step ⟨c, a⟩ = .next ⟨c, t⟩) :
    a.LeavesSoftwareState t ∨
    ∃ ss b i rest v, a.passBoundary.fetch c = .ok (ss, b) ∧ decode ss = .ok (i, rest) ∧
      exec i ⟨c, b⟩ = .next ⟨c, t⟩ ∧ Completed i c b v ∧ t = v.retire := by
  rcases step_eq_next h with ⟨-, ht⟩ | ⟨-, dev, -, ht⟩ | ⟨-, -, ss, b, hf, hx⟩
  · obtain rfl := State.arch_eq ht
    exact .inl (.refl _)
  · obtain rfl := State.arch_eq ht
    exact .inl (a.leavesSoftwareState_enterExternal dev)
  · have hb := Arch.leavesSoftwareState_fetch hf
    rcases hx with ⟨i, rest, hd, he⟩ | ⟨-, ht⟩
    · rcases exec_eq_next he with ⟨q, -, -, ht⟩ | ⟨v, ht, hv⟩
      · obtain rfl := State.arch_eq ht
        exact .inl (hb.trans (b.leavesSoftwareState_raise q))
      · exact .inr ⟨ss, b, i, rest, v, hf, hd, he, hv, State.arch_eq ht⟩
    · obtain rfl := State.arch_eq ht
      exact .inl (hb.trans (b.leavesSoftwareState_raise _))

/-- What the entry sequence of a registered exception does (60_exceptions.md R275). -/
theorem Arch.entered_enter (a : Arch n) (registered : Bool) (cause : Word n) :
    a.Entered (a.enter registered cause) registered cause a.pc := by
  constructor <;> simp +contextual [Arch.enter_readReg]

/-- An exception that is masked makes no entry: the instruction is only counted. -/
theorem Arch.notEntered_retire (a : Arch n) (i : Instr) : a.NotEntered a.retire i :=
  ⟨fun _ => rfl, fun _ => rfl, fun _ => rfl, fun _ h => h⟩

/-- An instruction that completes makes no entry. -/
theorem Completed.notEntered {i : Instr} {c : Config} {a v : Arch c.wb} (h : Completed i c a v) :
    a.NotEntered v.retire i where
  continuation hi := h.continuation.resolve_right fun ⟨r, hr, _⟩ => hi r hr
  cause hi := h.cause.resolve_right fun ⟨r, hr, _⟩ => hi r hr
  regExc hi := h.regExc.resolve_right fun ⟨r, hr, _⟩ => hi r hr
  ie hi hie := by
    rcases h.ie with hk | ⟨-, hv⟩ | ⟨r, hr, -⟩
    · exact hk.trans hie
    · exact hv
    · exact absurd hr (hi r)

end Sys2Proof.Machine

/-! The statements on the architectural state and on the instruction cycle that fetches from it
(10_state.md). -/

namespace Sys2Proof.Certificates.ArchitecturalState

open Sys2Proof Sys2Proof.Machine

/-- Settles O49: what raises an exception either enters, uncounted, or is masked and counted; what
completes is counted, and makes no entry. -/
theorem retiredCountsEveryCompletion : Obligations.RetiredCountsEveryCompletion := by
  intro c a t i h
  rcases exec_eq_next h with ⟨q, -, hi, ht⟩ | ⟨v, ht, hv⟩ <;> obtain rfl := State.arch_eq ht
  · cases hie : a.ie with
    | true =>
      rw [Arch.raise_of_enabled hie]
      exact .inr (.inr ⟨rfl, rfl, _, a.entered_enter _ _⟩)
    | false =>
      rw [Arch.raise_of_disabled hie]
      exact .inr (.inl ⟨a.notEntered_retire i, fun r => hi r 4, rfl⟩)
  · rcases hv.retired with ⟨hr, hi⟩ | ⟨r, hi, hr⟩
    · exact .inr (.inl ⟨hv.notEntered, hi, congrArg (· + 1) hr⟩)
    · exact .inl ⟨hv.notEntered, r, hi, congrArg (· + 1) hr⟩

/-- Settles O51: a step that turns `IE` on completes an instruction, and of those only ERET and a
write of SR 63 touch `IE`. -/
theorem onlyEretAndSr63EnableExceptions : Obligations.OnlyEretAndSr63EnableExceptions := by
  intro c a t h ha ht
  rcases step_completes h with hk | ⟨ss, b, i, rest, v, hf, hd, he, hv, rfl⟩
  · simp [hk.ie ht] at ha
  · refine ⟨ss, b, i, rest, hf, hd, he, ?_⟩
    rcases hv.ie with hk | ⟨hi, -⟩ | ⟨r, hi, hr⟩
    · have hb : b.ie = true := hk.symm.trans ht
      simp [(Arch.leavesSoftwareState_fetch hf).ie hb] at ha
    · exact .inl hi
    · exact .inr ⟨r, hi, hr.symm.trans ht⟩

/-- Settles O52: a step that changes SR 2 or SR 11 bit 0 completes an instruction, and of those only
the write of that register touches it. -/
theorem handlerAndEnableAreWrittenBySoftwareOnly :
    Obligations.HandlerAndEnableAreWrittenBySoftwareOnly := by
  intro c a t h
  rcases step_completes h with hk | ⟨ss, b, i, rest, v, hf, hd, he, hv, rfl⟩
  · exact ⟨fun hne => absurd hk.handler hne, fun hne => absurd hk.extEn hne⟩
  · have hb := Arch.leavesSoftwareState_fetch hf
    constructor
    · intro hne
      rcases hv.handler with hk | ⟨r, rfl, hr⟩
      · exact absurd (hk.trans hb.handler) hne
      · exact ⟨ss, b, r, rest, hf, hd, he, hr⟩
    · intro hne
      rcases hv.extEn with hk | ⟨r, rfl, hr⟩
      · exact absurd (hk.trans hb.extEn) hne
      · exact ⟨ss, b, r, rest, hf, hd, he, hr⟩

/-- Settles O54: the fetch leaves both outputs alone, and what completes only appends to them. -/
theorem outputsOnlyGrow : Obligations.OutputsOnlyGrow := by
  intro c a t h
  rcases step_completes h with hk | ⟨ss, b, i, rest, v, hf, -, -, hv, rfl⟩
  · rw [hk.debugOut, hk.deviceOut]
    exact ⟨List.prefix_refl _, List.prefix_refl _⟩
  · have hb := Arch.leavesSoftwareState_fetch hf
    rw [← hb.debugOut, ← hb.deviceOut]
    exact ⟨hv.debugOut, hv.deviceOut⟩

/-- Settles O55, by the four ways a step can give a next state. -/
theorem stepKeepsTheParameters : Obligations.StepKeepsTheParameters := by
  rintro ⟨c, a⟩ t h
  rcases step_eq_next h with ⟨-, rfl⟩ | ⟨-, dev, -, rfl⟩ | ⟨-, -, ss, b, -, ⟨i, rest, -, he⟩ | ⟨-, rfl⟩⟩
  · rfl
  · rfl
  · exact exec_keeps_cfg he
  · rfl

/-- Settles O60: passing the boundary leaves the PC and memory alone, and the fetch then stops at the
first symbol that faults. -/
theorem fetchesOfNothingFault : Obligations.FetchesOfNothingFault := by
  intro c a ss j f hrun hx hcode hl hj hr hf
  have hnext : a.passBoundary.SymbolFault c (symbolAddress a.pc ss.length) j f := ⟨hj, hr, hf⟩
  have hfetch : a.passBoundary.fetch c = .error (.fault f) :=
    Arch.fetch_of_fault hcode (fun s0 later he => by rw [symbolsToFollow_eq]; exact hl s0 later he) hnext
  rw [step_of_fetch_error hrun hx hfetch, conclude_fault]

/-- Settles O7: what is fetched is the encoding, with the PC past it, and it decodes to the
instruction it encodes. -/
theorem stepRunsTheInstructionAtThePc : Obligations.StepRunsTheInstructionAtThePc := by
  intro c a i hwf hrun hx hcode
  obtain ⟨s0, later, he, hl⟩ := encode_length_announced i hwf
  have hdec : decode (encode i) = .ok (i, []) := by simpa using decode_encode i hwf []
  rw [he] at hcode hdec ⊢
  have hfetch : a.passBoundary.fetch c = .ok (s0 :: later, _) := Arch.fetch_of_holds hcode hl
  rw [step_of_fetch hrun hx hfetch, State.perform, hdec, Nat.add_comm]
  rfl

/-- Settles O10. -/
theorem haltIsFinal : Obligations.HaltIsFinal := by
  intro c a
  constructor
  · intro r hr
    refine ⟨({ a with halted := true } : Arch c.wb).retire, ?_, rfl⟩
    simp [exec, execWsr, writeSystemRegister, SysReg.ofNumber, Arch.powerWrite, hr]
  · intro hh
    simp [step, State.cycle, hh]

/-- Settles O58: each field of `Arch.resetOf` is what the rule says; the PC is register 0 of the
register file, where `RESET_PC` was put. -/
theorem resetLeavesWhatTheSpecStates : Obligations.ResetLeavesWhatTheSpecStates := by
  intro c
  refine ⟨rfl, rfl, rfl, rfl, ?_, rfl, rfl, rfl⟩
  simp [Arch.resetOf, Arch.pc, Arch.readReg]

end Sys2Proof.Certificates.ArchitecturalState

/-! SUPPORT. The digits of the value of octets, and the symbols of the octets of symbols
(20_memory.md R73, R74). -/

namespace Sys2Proof

/-- Of the `k` octets of `v`, the most significant first, octet `j` is the digit of weight
`256 ^ (k - 1 - j)`. -/
theorem getElem_bigEndianOctets (k v j : Nat) (h : j < (bigEndianOctets k v).length) :
    (bigEndianOctets k v)[j] = BitVec.ofNat 8 (v / 256 ^ (k - 1 - j)) := by
  induction k generalizing j with
  | zero => simp at h
  | succ k ih =>
    cases j with
    | zero => rfl
    | succ j =>
      rw [length_bigEndianOctets] at h
      have hw : k + 1 - 1 - (j + 1) = k - 1 - j := by omega
      rw [hw]
      exact ih j (by simpa using h)

/-- The digits of the value of octets are the octets. -/
theorem bigEndianValue_digit {bs : List Byte} {j : Nat} (h : j < bs.length) :
    bigEndianValue bs / 256 ^ (bs.length - 1 - j) % 256 = bs[j].toNat := by
  have hd := getElem_bigEndianOctets bs.length (bigEndianValue bs) j (by simpa using h)
  simp only [bigEndianOctets_value] at hd
  rw [hd, BitVec.toNat_ofNat]

theorem ByteOrder.value_big_digit {bs : List Byte} {j : Nat} (h : j < bs.length) :
    ByteOrder.value .big bs / 256 ^ (bs.length - 1 - j) % 256 = bs[j].toNat :=
  bigEndianValue_digit h

/-- In little order the octets are read backwards, so octet `j` has weight `256 ^ j`. -/
theorem ByteOrder.value_little_digit {bs : List Byte} {j : Nat} (h : j < bs.length) :
    ByteOrder.value .little bs / 256 ^ j % 256 = bs[j].toNat := by
  have hr : bs.length - 1 - j < bs.reverse.length := by rw [List.length_reverse]; omega
  have hj : bs.length - 1 - (bs.length - 1 - j) = j := by omega
  have hd := bigEndianValue_digit hr
  simp only [List.length_reverse, List.getElem_reverse, hj] at hd
  exact hd

/-- The octets of a symbol are cut off as that symbol, whatever follows them. -/
theorem symbolsOf_octets_append (o : ByteOrder) (s : Symbol) (bs : List Byte) :
    symbolsOf o (o.octets ist s.toNat ++ bs) = s :: symbolsOf o bs := by
  obtain ⟨b0, b1, hb⟩ := List.length_eq_two.1 (o.length_octets ist s.toNat)
  have hv : o.value [b0, b1] = s.toNat := by
    rw [← hb]
    exact o.value_octets_word (n := ist) s
  simp [hb, symbolsOf, hv]

end Sys2Proof

/-! SUPPORT. What a step does to memory: the canonical form, and the octets that change
(20_memory.md R70, R80). -/

namespace Sys2Proof.Machine

variable {n : Nat}

theorem Arch.inv_of_mem_eq {a t : Arch n} (hm : t.mem = a.mem) (h : a.Inv) : t.Inv := by
  rwa [Arch.Inv, hm]

/-- A store of octets keeps the memory form. -/
theorem Arch.inv_of_storeOctets {a t : Arch n} {c : Config} {addr : Word n} {k : Nat} {bs : List Byte}
    (hm : storeOctets c addr k bs a.mem = .ok t.mem) (h : a.Inv) : t.Inv := by
  obtain ⟨hwf, hbound⟩ := h
  exact ⟨storeOctets_wf hm hwf, storeOctets_bound hm hbound⟩

theorem Completed.inv {i : Instr} {c : Config} {a v : Arch c.wb} (hv : Completed i c a v) (h : a.Inv) :
    v.Inv := by
  rcases hv.mem with hm | ⟨-, addr, w, hm⟩
  · exact Arch.inv_of_mem_eq hm h
  · exact Arch.inv_of_storeOctets hm h

/-- An octet that an instruction has changed is RAM, and the instruction stores. -/
theorem Completed.of_read_ne {i : Instr} {c : Config} {a v : Arch c.wb} (hv : Completed i c a v) {x : Nat}
    (hx : v.mem.read x ≠ a.mem.read x) :
    regionKind c.memMap x = some .ram ∧
      ((∃ r b off, i = .storeOff r b off) ∨ (∃ src dst, i = .xf src dst ∧ dst.indirect = true)) := by
  rcases hv.mem with hm | ⟨hi, addr, w, hm⟩
  · exact absurd (by rw [hm]) hx
  · refine ⟨by_contra fun hram => hx ?_, hi⟩
    exact storeOctets_read_other hm x fun _ _ hr => absurd hr hram

/-- The execute phase of every instruction keeps the memory form. -/
theorem exec_keeps_inv {i : Instr} {c : Config} {a : Arch c.wb} {s : State}
    (h : exec i ⟨c, a⟩ = .next s) (ha : a.Inv) : s.Inv := by
  rcases exec_eq_next h with ⟨q, -, -, rfl⟩ | ⟨v, rfl, hv⟩
  · exact Arch.inv_of_mem_eq (a.raise_mem q) ha
  · exact Arch.inv_of_mem_eq v.retire_mem (hv.inv ha)

theorem Arch.fetch_keeps_mem {a b : Arch n} {c : Config} {ss : List Symbol}
    (h : a.fetch c = .ok (ss, b)) : b.mem = a.mem := by
  obtain ⟨d, p, rfl⟩ := Arch.fetch_eq_ok h
  rfl

@[simp] theorem Arch.enterExternal_mem (a : Arch n) (dev : Word n) : (a.enterExternal dev).mem = a.mem := by
  simp [Arch.enterExternal]

end Sys2Proof.Machine

/-! SUPPORT. How a jump by an immediate offset moves the PC (20_memory.md R76, 30_encoding.md R116). -/

namespace Sys2Proof.Machine

variable {n : Nat}

/-- A count of symbols is an even number of addressable units, also modulo 2^`W`. -/
theorem symbolOffset_even (hn : 0 < n) (k : Int) : (symbolOffset n k).toNat % 2 = 0 := by
  have hd : (2 : Int) ∣ ((2 ^ (8 * n) : Nat) : Int) := by
    exact_mod_cast dvd_pow_self 2 (by omega : 8 * n ≠ 0)
  have hmod : k * ist % ((2 ^ (8 * n) : Nat) : Int) % 2 = 0 := by
    rw [Int.emod_emod_of_dvd _ hd]
    exact Int.mul_emod_left k 2
  rw [symbolOffset, BitVec.toNat_ofInt]
  omega

/-- Moving by a count of symbols keeps an address's parity. -/
theorem toNat_add_symbolOffset_mod_two (hn : 0 < n) (v : Word n) (k : Int) :
    (v + symbolOffset n k).toNat % 2 = v.toNat % 2 := by
  have hd : 2 ∣ 2 ^ (8 * n) := dvd_pow_self 2 (by omega)
  rw [BitVec.toNat_add, Nat.mod_mod_of_dvd _ hd, Nat.add_mod, symbolOffset_even hn, Nat.add_zero,
    Nat.mod_mod]

/-- An instruction that always completes leaves its result, counted. -/
theorem complete_eq_next {c : Config} {a u t : Arch c.wb}
    (h : State.complete ⟨c, a⟩ u = .next ⟨c, t⟩) : t = u.retire := by
  rw [complete_eq] at h
  exact State.arch_eq (Host.Outcome.next.inj h).symm

/-- A counter that is not the PC leaves the PC alone. -/
theorem Arch.countDown_pc (a : Arch n) {r : Reg} (h : r ≠ 0) : (a.countDown r).pc = a.pc :=
  a.readReg_writeReg_other _ h.symm

/-- A branch with an immediate offset leaves the PC, or moves it by a count of symbols. -/
theorem branch_imm_pc {c : Config} {a t : Arch c.wb} {greater invert : Bool} {k : Int} {v : Reg}
    (h : branch greater invert (.imm k) v ⟨c, a⟩ = .next ⟨c, t⟩) :
    t.pc = a.pc ∨ t.pc = a.pc + symbolOffset _ k := by
  obtain rfl := complete_eq_next h
  dsimp only
  split
  · exact .inr (a.jumpBy_pc _)
  · exact .inl rfl

theorem execJc_pc {c : Config} {a t : Arch c.wb} {r : Reg} {k : Int}
    (h : execJc r k ⟨c, a⟩ = .next ⟨c, t⟩) : t.pc = a.pc ∨ t.pc = a.pc + symbolOffset _ k := by
  obtain rfl := complete_eq_next h
  dsimp only
  split
  · exact .inl rfl
  · exact .inr (a.jumpBy_pc _)

theorem execLoop_pc {c : Config} {a t : Arch c.wb} {r : Reg} {k : Int} (hr : r ≠ 0)
    (h : execLoop k r ⟨c, a⟩ = .next ⟨c, t⟩) : t.pc = a.pc ∨ t.pc = a.pc + symbolOffset _ k := by
  obtain rfl := complete_eq_next h
  rw [← a.countDown_pc hr]
  dsimp only
  split
  · exact .inl rfl
  · exact .inr ((a.countDown r).jumpBy_pc _)

end Sys2Proof.Machine

/-! SUPPORT. Where LOADOFF, STOREOFF and Data Transfer stop as their access does, a load of what was
stored, and the fetch at an odd address (20_memory.md R75, R76, R80, R82). -/

namespace Sys2Proof.Machine

variable {n : Nat}

/-- A LOADOFF stops as its load does. -/
theorem exec_loadOff_of_error {c : Config} {a : Arch c.wb} (x : Reg) {y : Reg} {off : Int} {e : Stop}
    (h : a.loadWord c (a.offsetAddress y off) = .error e) :
    exec (.loadOff x y off) ⟨c, a⟩ = e.outcome := by
  simp [exec, execLoadOff, h]

/-- A LOADOFF whose load goes through writes its destination. -/
theorem exec_loadOff_of_ok {c : Config} {a t : Arch c.wb} (x : Reg) {y : Reg} {off : Int} {v : Word c.wb}
    (h : a.loadWord c (a.offsetAddress y off) = .ok (v, t)) :
    exec (.loadOff x y off) ⟨c, a⟩ = .next ⟨c, (t.writeReg x v).retire⟩ := by
  simp [exec, execLoadOff, h]

/-- A STOREOFF stops as its store does. -/
theorem exec_storeOff_of_error {c : Config} {a : Arch c.wb} {x y : Reg} {off : Int} {e : Stop}
    (h : a.storeWord c (a.offsetAddress y off) (a.readReg x) = .error e) :
    exec (.storeOff x y off) ⟨c, a⟩ = e.outcome := by
  simp [exec, execStoreOff, h, Effect.ofExcept]

/-- A STOREOFF whose store goes through has stored. -/
theorem exec_storeOff_of_ok {c : Config} {a t : Arch c.wb} {x y : Reg} {off : Int}
    (h : a.storeWord c (a.offsetAddress y off) (a.readReg x) = .ok t) :
    exec (.storeOff x y off) ⟨c, a⟩ = .next ⟨c, t.retire⟩ := by
  simp [exec, execStoreOff, h, Effect.ofExcept]

/-- The address of LOADOFF and STOREOFF depends on the registers alone. -/
theorem Arch.offsetAddress_of_gpr {a t : Arch n} (h : t.gpr = a.gpr) (y : Reg) (off : Int) :
    t.offsetAddress y off = a.offsetAddress y off := by
  rw [Arch.offsetAddress, Arch.readReg_of_gpr h, Arch.offsetAddress]

/-- The address an indirect operand of Data Transfer is used at, by the rule's pseudocode
(48_immediate_and_data_transfer.md R231). -/
theorem Arch.before_address (a : Arch n) (o : XfOperand) :
    ((a.stepBefore o).readReg o.reg).toNat = a.contents.before n o o.reg := by
  rw [← Arch.contents_stepBefore]
  rfl

/-- A Data Transfer with an indirect source stops as the load at the source's address does. -/
theorem exec_xf_of_load_error {c : Config} {a : Arch c.wb} {src : XfOperand} (dst : XfOperand) {e : Stop}
    (hi : src.indirect = true)
    (he : ∀ addr : Word c.wb, addr.toNat = a.contents.before c.wb src src.reg →
      (a.stepBefore src).loadWord c addr = .error e) :
    exec (.xf src dst) ⟨c, a⟩ = e.outcome := by
  have hs : a.xfSource c src = .error e := by simp [Arch.xfSource, hi, he _ (a.before_address src)]
  simp [exec, execXf, transfer, hs, Effect.ofExcept]

/-- A Data Transfer whose source side goes through, and whose destination is indirect, stops as the
store at the destination's address does. -/
theorem exec_xf_of_store_error {c : Config} {a : Arch c.wb} {src dst : XfOperand} {from_ : Word c.wb}
    {e : Stop} (hf : from_.toNat = a.contents.before c.wb src src.reg)
    (hr : src.indirect = true → a.Readable c from_) (hi : dst.indirect = true)
    (he : ∀ (b : Arch c.wb) (addr v : Word c.wb),
      addr.toNat = a.contents.atStore c.wb src dst dst.reg → b.storeWord c addr v = .error e) :
    exec (.xf src dst) ⟨c, a⟩ = e.outcome := by
  obtain ⟨v, t, hs, ht, -⟩ := Arch.xfSource_of_readable hf hr
  have hd : t.xfDestination c dst v = .error e := by
    simp [Arch.xfDestination, hi, he _ _ v (Arch.atStore_address dst ht)]
  simp [exec, execXf, transfer, hs, hd, Effect.ofExcept]

/-- A word whose octets memory holds is loaded as it is, and no device is asked. -/
theorem Arch.loadWord_of_holds {a : Arch n} {c : Config} {addr v : Word n} (ha : addr.toNat % n = 0)
    (h : a.HoldsOctets c addr (c.byteOrder.octets n v.toNat)) : a.loadWord c addr = .ok (v, a) := by
  have hm := Arch.memRead_of_holds h
  rw [ByteOrder.length_octets, ByteOrder.value_octets_word] at hm
  simp [Arch.loadWord, wordAligned, ha, hm]

/-- Whether memory holds octets depends on memory alone. -/
theorem Arch.holdsOctets_congr {a t : Arch n} (hm : t.mem = a.mem) (c : Config) (addr : Word n)
    (bs : List Byte) : t.HoldsOctets c addr bs ↔ a.HoldsOctets c addr bs := by
  simp only [Arch.HoldsOctets, hm]

/-- A word stored where all is RAM stands there. -/
theorem Arch.StoredAt.holdsOctets {a t : Arch n} {c : Config} {addr v : Word n} (h : a.StoredAt c addr v t)
    (hram : ∀ j, j < n → regionKind c.memMap (octetAddress addr j) = some .ram) :
    t.HoldsOctets c addr (c.byteOrder.octets n v.toNat) := by
  intro j hj
  have hjn : j < n := by simpa using hj
  obtain ⟨hstored, -, -⟩ := h
  exact ⟨.inl (hram j hjn), by rw [hstored j hjn (hram j hjn), List.getElem?_eq_getElem hj]⟩

/-- A word stored where all is RAM is loaded from there, as long as memory stays as the store left
it. -/
theorem Arch.loadWord_of_storeWord {a : Arch n} {c : Config} {addr : Word n} (v : Word n)
    (ha : addr.toNat % n = 0)
    (hram : ∀ j, j < n → regionKind c.memMap (octetAddress addr j) = some .ram) :
    ∃ t, a.storeWord c addr v = .ok t ∧ t.gpr = a.gpr ∧
      ∀ u : Arch n, u.mem = t.mem → u.loadWord c addr = .ok (v, u) := by
  obtain ⟨m, hs, hstored⟩ :=
    Arch.storeWord_of_writable (a := a) ⟨ha, fun j hj => .inl (hram j hj)⟩ v
  refine ⟨_, hs, by simp, fun u hu => Arch.loadWord_of_holds ha ?_⟩
  exact (Arch.holdsOctets_congr hu c addr _).2 (hstored.holdsOctets hram)

/-- A symbol at an odd address is not fetched. -/
theorem Arch.fetch_of_odd {a : Arch n} (c : Config) (h : a.pc.toNat % 2 = 1) :
    a.fetch c = .error (.refuse (.misalignedFetch a.pc.toNat)) := by
  simp [Arch.fetch, Arch.fetchSymbol, h]

end Sys2Proof.Machine

/-! The statements on memory (20_memory.md). -/

namespace Sys2Proof.Certificates.Memory

open Sys2Proof Sys2Proof.Machine

/-- Settles O56, by the four ways a step can give a next state: what a fetch and an exception leave is
the memory there was, and an instruction at most stores octets. -/
theorem stepKeepsTheMemoryForm : Obligations.StepKeepsTheMemoryForm := by
  rintro ⟨c, a⟩ t (ha : a.Inv) h
  rcases step_eq_next h with ⟨-, rfl⟩ | ⟨-, dev, -, rfl⟩ | ⟨-, -, ss, b, hf, hx⟩
  · exact ha
  · exact Arch.inv_of_mem_eq (a.enterExternal_mem dev) ha
  · have hb : b.Inv := Arch.inv_of_mem_eq (Arch.fetch_keeps_mem hf) ha
    rcases hx with ⟨i, rest, -, he⟩ | ⟨-, rfl⟩
    · exact exec_keeps_inv he hb
    · exact Arch.inv_of_mem_eq (b.raise_mem _) hb

/-- Settles O5, by induction on the symbols: each takes two octets, which are cut off as it. -/
theorem symbolsSurviveTheirLayout : Obligations.SymbolsSurviveTheirLayout := by
  intro o ss
  induction ss with
  | nil => rfl
  | cons s ss ih => rw [octetsOf_cons, symbolsOf_octets_append, ih]

/-- Settles O6. -/
theorem octetsStandInByteOrder : Obligations.OctetsStandInByteOrder := fun bs _ h =>
  ⟨ByteOrder.value_big_digit h, ByteOrder.value_little_digit h, ByteOrder.value_lt _ bs,
    ByteOrder.value_lt _ bs, fun o => o.octets_value bs⟩

/-- Settles O27: each of the six leaves the PC or moves it by a count of symbols, which is even. -/
theorem immediateJumpsKeepThePcEven : Obligations.ImmediateJumpsKeepThePcEven := by
  intro c a t r k i hi h
  have hpc : t.pc = a.pc ∨ t.pc = a.pc + symbolOffset _ k := by
    rcases hi with rfl | rfl | rfl | rfl | rfl | ⟨rfl, hr⟩
    · exact execJc_pc h
    · exact branch_imm_pc h
    · exact branch_imm_pc h
    · exact branch_imm_pc h
    · exact branch_imm_pc h
    · exact execLoop_pc hr h
  have hwb : 0 < c.wb := Nat.lt_of_lt_of_le Nat.zero_lt_two c.word.two_le
  rcases hpc with hpc | hpc <;> rw [hpc]
  exact toNat_add_symbolOffset_mod_two hwb _ _

/-- Settles O41: the load, or the store, at such an address is refused, and the instruction stops as
it does. -/
theorem misalignedAccessesAreRefused : Obligations.MisalignedAccessesAreRefused := by
  intro c a x y off src dst from_
  refine ⟨fun hm => ⟨?_, ?_⟩, fun hi hm => ?_, fun hf hr hi hm => ?_⟩
  · exact exec_loadOff_of_error x (a.loadWord_of_misaligned c hm)
  · exact exec_storeOff_of_error (a.storeWord_of_misaligned c _ hm)
  · refine exec_xf_of_load_error (e := .refuse _) dst hi fun addr haddr => ?_
    rw [← haddr] at hm ⊢
    exact Arch.loadWord_of_misaligned _ c hm
  · refine exec_xf_of_store_error (e := .refuse _) hf hr hi fun b addr v haddr => ?_
    rw [← haddr] at hm ⊢
    exact b.storeWord_of_misaligned c v hm

/-- Settles O42: the change of the source's register leaves memory alone, so its load faults where one
by LOADOFF does. -/
theorem loadsOfNothingFault : Obligations.LoadsOfNothingFault := by
  intro c a addr j f ha hj hi hf
  have hload : ∀ b : Arch c.wb, b.mem = a.mem → b.loadWord c addr = .error (.fault f) := fun b hb =>
    Arch.loadWord_of_fault ha hj (fun i h => (Arch.octetReadable_congr hb c _).2 (hi i h))
      ((Arch.readFault_congr hb c _ f).2 hf)
  constructor
  · rintro x y off rfl
    exact exec_loadOff_of_error x (hload a rfl)
  · intro src dst hsrc haddr
    refine exec_xf_of_load_error (e := .fault f) dst hsrc fun addr' haddr' => ?_
    obtain rfl : addr' = addr := BitVec.eq_of_toNat_eq (haddr'.trans haddr.symm)
    exact hload _ (a.stepBefore_mem src)

/-- Settles O43: the octets of the stored word stand in RAM at the address, which the store leaves as
it was, and a load reads them back. -/
theorem loadAfterStoreGivesTheStoredWord : Obligations.LoadAfterStoreGivesTheStoredWord := by
  intro c a x y z off ha hram
  obtain ⟨t, hstore, hgpr, hload⟩ := Arch.loadWord_of_storeWord (a := a) (a.readReg x) ha hram
  have haddr : t.retire.offsetAddress y off = a.offsetAddress y off := Arch.offsetAddress_of_gpr hgpr y off
  have hback := hload t.retire t.retire_mem
  rw [← haddr] at hback
  exact ⟨t.retire, _, exec_storeOff_of_ok hstore, exec_loadOff_of_ok z hback, by simp⟩

/-- Settles O53. -/
theorem onlyStoresChangeMemory : Obligations.OnlyStoresChangeMemory := by
  intro c a t i x h hx
  rcases exec_eq_next h with ⟨q, -, -, ht⟩ | ⟨v, ht, hv⟩ <;> obtain rfl := State.arch_eq ht
  · exact absurd (by rw [a.raise_mem q]) hx
  · exact hv.of_read_ne hx

/-- Settles O59: where a store stops depends on the memory map alone, so Data Transfer stops where
STOREOFF does. -/
theorem storesToNothingOrRomStop : Obligations.StoresToNothingOrRomStop := by
  intro c a addr j e ha hj hi he
  have hstore : ∀ (b : Arch c.wb) (v : Word c.wb), b.storeWord c addr v = .error e := fun _ v =>
    Arch.storeWord_of_stop v ha hj hi he
  constructor
  · rintro x y off rfl
    exact exec_storeOff_of_error (hstore a _)
  · intro src dst from_ hf hr hdst haddr
    refine exec_xf_of_store_error hf hr hdst fun b addr' v haddr' => ?_
    obtain rfl : addr' = addr := BitVec.eq_of_toNat_eq (haddr'.trans haddr.symm)
    exact hstore b v

/-- Settles O9: passing the boundary leaves the PC as it is, and the fetch of the first symbol is
refused. -/
theorem oddFetchIsRefused : Obligations.OddFetchIsRefused := fun c a hrun hx hodd =>
  step_of_fetch_error hrun hx (a.passBoundary.fetch_of_odd c hodd)

/-- Settles O57: memory is empty after reset (log 5). -/
theorem resetHasTheMemoryForm : Obligations.ResetHasTheMemoryForm := by
  have hreset : ∀ c : Config, (State.resetOf c).Inv := fun c => ⟨wf_mem_resetOf c, by
    simp [State.resetOf, Arch.resetOf]⟩
  exact ⟨hreset Config.base, hreset⟩

end Sys2Proof.Certificates.Memory

/-! SUPPORT. A symbol is made of its fields, and encoding undoes decoding (30_encoding.md R102 to
R116). -/

namespace Sys2Proof

/-! ### A symbol and its fields -/

theorem bits_lt (s : Symbol) (hi lo : Nat) : bits s hi lo < 2 ^ (hi + 1 - lo) :=
  Nat.mod_lt _ (by positivity)

/-- A field is its upper part, of bits `mid + 1` and up, and its lower part. -/
theorem bits_split (s : Symbol) {hi mid lo : Nat} (hlo : lo ≤ mid) (hhi : mid < hi) :
    bits s hi lo = bits s hi (mid + 1) * 2 ^ (mid + 1 - lo) + bits s mid lo := by
  have hwidth : 2 ^ (hi + 1 - lo) = 2 ^ (mid + 1 - lo) * 2 ^ (hi + 1 - (mid + 1)) := by
    rw [← pow_add]
    congr 1
    omega
  have hshift : s.toNat / 2 ^ (mid + 1) = s.toNat / 2 ^ lo / 2 ^ (mid + 1 - lo) := by
    rw [Nat.div_div_eq_div_mul, ← pow_add]
    congr 2
    omega
  simp only [bits]
  rw [hwidth, hshift, Nat.mod_mul]
  ring

/-- A symbol is its four nibbles. -/
theorem toNat_eq_nibbles (s : Symbol) :
    s.toNat = bits s 15 12 * 4096 + bits s 11 8 * 256 + bits s 7 4 * 16 + bits s 3 0 := by
  have hs := s.isLt
  simp only [bits]
  omega

theorem bits_11_8 (s : Symbol) : bits s 11 8 = bits s 11 11 * 8 + bits s 10 8 :=
  bits_split s (mid := 10) (by decide) (by decide)

theorem bits_7_0 (s : Symbol) : bits s 7 0 = bits s 7 4 * 16 + bits s 3 0 :=
  bits_split s (mid := 3) (by decide) (by decide)

/-- A number made of the fields of a symbol makes that symbol. -/
theorem symbol_eq {s : Symbol} {v : Nat} (h : v = s.toNat) : symbol v = s := by
  rw [h, symbol, BitVec.ofNat_toNat, BitVec.setWidth_eq]

theorem singleton_symbol_eq {s : Symbol} {v : Nat} (h : v = s.toNat) : [symbol v] = [s] := by
  rw [symbol_eq h]

@[simp] theorem regField_val (s : Symbol) (lo : Nat) : (regField s lo).val = bits s (lo + 3) lo := by
  have hlt := bits_lt s (lo + 3) lo
  rw [show lo + 3 + 1 - lo = 4 by omega] at hlt
  exact Nat.mod_eq_of_lt hlt

@[simp] theorem bitOf_flagBit (s : Symbol) (k : Nat) : bitOf (flagBit s k) = bits s k k := by
  have hlt := bits_lt s k k
  rw [Nat.add_sub_cancel_left] at hlt
  rcases Nat.le_one_iff_eq_zero_or_eq_one.mp (Nat.le_of_lt_succ hlt) with h | h <;>
    simp [flagBit, bitOf, h]

theorem bits_of_flagBit_true {s : Symbol} {k : Nat} (h : flagBit s k = true) : bits s k k = 1 := by
  rw [← bitOf_flagBit, h, bitOf_true]

theorem bits_of_flagBit_false {s : Symbol} {k : Nat} (h : flagBit s k = false) : bits s k k = 0 := by
  rw [← bitOf_flagBit, h, bitOf_false]

/-- The four modes have the four numbers of a two-bit field (48_immediate_and_data_transfer.md R231). -/
theorem modeBits_decodeMode {m : Nat} (h : m < 4) : modeBits (decodeMode m) = m := by
  interval_cases m <;> rfl

/-- The byte count of a Subword is 1 to 8, and its field holds it modulo 8 (46_subword.md R210). -/
theorem decodeCount_of_lt {b : Nat} (h : b < 8) :
    1 ≤ decodeCount b ∧ decodeCount b ≤ 8 ∧ decodeCount b % 8 = b := by
  unfold decodeCount
  split <;> omega

/-- Two's complement in `k` bits: what is read fits, and is written back as the same bits
(00_scope.md R10). -/
theorem signedBits_signedField {k v : Nat} (hk : 0 < k) (hv : v < 2 ^ k) :
    signedBits k (signedField k v) = v ∧ -2 ^ (k - 1) ≤ signedField k v ∧
      signedField k v < 2 ^ (k - 1) := by
  obtain ⟨k, rfl⟩ : ∃ j, k = j + 1 := ⟨k - 1, by omega⟩
  have hpow : (2 : Int) ^ (k + 1) = 2 * 2 ^ k := by ring
  have hcast : ((2 ^ k : Nat) : Int) = 2 ^ k := by simp
  rw [pow_succ] at hv
  unfold signedField signedBits
  rw [Nat.add_sub_cancel, hpow]
  split
  · rw [Int.emod_eq_of_lt (by omega) (by omega)]
    omega
  · rw [Int.sub_emod_right, Int.emod_eq_of_lt (by omega) (by omega)]
    omega

theorem signedField4_of_lt {v : Nat} (h : v < 16) :
    signedBits 4 (signedField 4 v) = v ∧ fits4 (signedField 4 v) = true := by
  obtain ⟨hback, hlo, hhi⟩ := signedBits_signedField (k := 4) (by decide) h
  norm_num at hlo hhi
  exact ⟨hback, by simp only [fits4, Bool.and_eq_true, decide_eq_true_eq]; omega⟩

theorem signedField8_of_lt {v : Nat} (h : v < 256) :
    signedBits 8 (signedField 8 v) = v ∧ fits8 (signedField 8 v) = true := by
  obtain ⟨hback, hlo, hhi⟩ := signedBits_signedField (k := 8) (by decide) h
  norm_num at hlo hhi
  exact ⟨hback, by simp only [fits8, Bool.and_eq_true, decide_eq_true_eq]; omega⟩

/-! ### Encoding what the formats decode to -/

/-- `i` is well formed, and its encoding is `ss`. -/
def Instr.EncodesTo (i : Instr) (ss : List Symbol) : Prop := i.wf = true ∧ encode i = ss

/-- Format A (R106): the right operand and the rest of the symbol. -/
theorem encodeArithmetic_decodeOperand {s : Symbol} {m : Nat} (ht : bits s 15 12 = 2)
    (hm : bits s 10 8 = m) :
    (decodeOperand s).wf = true ∧ encodeArithmetic m (decodeOperand s) (regField s 0) = [s] := by
  have hs := toNat_eq_nibbles s
  have hop := bits_11_8 s
  unfold decodeOperand
  split
  next hf =>
    have hf := bits_of_flagBit_true hf
    refine ⟨decide_eq_true (bits_lt s 7 4), singleton_symbol_eq ?_⟩
    simp only [regField_val, Nat.zero_add]
    omega
  next hf =>
    have hf := bits_of_flagBit_false (Bool.eq_false_iff.mpr hf)
    refine ⟨rfl, singleton_symbol_eq ?_⟩
    simp only [regField_val, Nat.zero_add, Nat.reduceAdd]
    omega

theorem decodeArithmetic_encodesTo {s : Symbol} (ht : bits s 15 12 = 2) :
    (decodeArithmetic s).EncodesTo [s] := by
  have hlt : bits s 10 8 < 8 := bits_lt s 10 8
  unfold decodeArithmetic
  split
  case h_8 => exact encodeArithmetic_decodeOperand (m := 7) ht (by grind)
  all_goals exact encodeArithmetic_decodeOperand ht ‹_›

/-- Format M (R113): an operation, a four-bit number and a register. -/
theorem encodeMisc_fields_eq {s : Symbol} {m : Nat} (ht : bits s 15 12 = 14) (hf : bits s 11 11 = 0)
    (hm : bits s 10 8 = m) : encodeMisc m (bits s 7 4) (regField s 0) = [s] := by
  have hs := toNat_eq_nibbles s
  have hop := bits_11_8 s
  refine singleton_symbol_eq ?_
  simp only [regField_val, Nat.zero_add]
  omega

theorem decodeMisc_encodesTo {s : Symbol} (ht : bits s 15 12 = 14) (hf : bits s 11 11 = 0) :
    (decodeMisc s).EncodesTo [s] := by
  have hlt : bits s 10 8 < 8 := bits_lt s 10 8
  have hreg : ∀ {m}, bits s 10 8 = m → encodeMisc m (regField s 4).val (regField s 0) = [s] :=
    fun hm => by rw [regField_val]; exact encodeMisc_fields_eq ht hf hm
  unfold decodeMisc
  split
  case h_8 =>
    obtain ⟨hback, hfits⟩ := signedField4_of_lt (bits_lt s 7 4)
    refine ⟨hfits, ?_⟩
    rw [encode, hback]
    exact encodeMisc_fields_eq ht hf (by grind)
  all_goals exact ⟨rfl, hreg ‹_›⟩

/-- Format R (R114): the offset and the rest of the symbol. -/
theorem encodeBranch_decodeBranchOffset {s : Symbol} {m : Nat} (ht : bits s 15 12 = 14)
    (hf : bits s 11 11 = 1) (hm : bits s 10 9 = m) :
    (decodeBranchOffset s).wf = true ∧
      encodeBranch m (decodeBranchOffset s) (regField s 0) = [s] := by
  have hs := toNat_eq_nibbles s
  have hop := bits_11_8 s
  have hsim : bits s 10 8 = bits s 10 9 * 2 + bits s 8 8 :=
    bits_split s (by decide) (by decide)
  unfold decodeBranchOffset
  split
  next hi =>
    have hi := bits_of_flagBit_true hi
    obtain ⟨hback, hfits⟩ := signedField4_of_lt (bits_lt s 7 4)
    refine ⟨hfits, singleton_symbol_eq ?_⟩
    simp only [regField_val, Nat.zero_add, hback]
    omega
  next hi =>
    have hi := bits_of_flagBit_false (Bool.eq_false_iff.mpr hi)
    refine ⟨rfl, singleton_symbol_eq ?_⟩
    simp only [regField_val, Nat.zero_add, Nat.reduceAdd]
    omega

theorem decodeBranch_encodesTo {s : Symbol} (ht : bits s 15 12 = 14) (hf : bits s 11 11 = 1) :
    (decodeBranch s).EncodesTo [s] := by
  have hlt : bits s 10 9 < 4 := bits_lt s 10 9
  unfold decodeBranch
  split
  case h_4 => exact encodeBranch_decodeBranchOffset (m := 3) ht hf (by grind)
  all_goals exact encodeBranch_decodeBranchOffset ht hf ‹_›

/-- Formats with a register above an eight-bit field (R107, R109). -/
theorem singleton_symbol_reg_low_eq {s : Symbol} {t low : Nat} (ht : bits s 15 12 = t)
    (hl : bits s 7 0 = low) : [symbol (t * 4096 + (regField s 8).val * 256 + low)] = [s] := by
  have hs := toNat_eq_nibbles s
  have hlow := bits_7_0 s
  refine singleton_symbol_eq ?_
  simp only [regField_val, Nat.reduceAdd]
  omega

theorem cmp_fields_encodesTo {s : Symbol} (ht : bits s 15 12 = 3) :
    (Instr.cmp ⟨flagBit s 11, flagBit s 10, flagBit s 9, flagBit s 8⟩ (regField s 4)
      (regField s 0)).EncodesTo [s] := by
  have hs := toNat_eq_nibbles s
  have hiv := bits_11_8 s
  have hsg : bits s 10 8 = bits s 10 10 * 4 + bits s 9 8 :=
    bits_split s (by decide) (by decide)
  have hg : bits s 9 8 = bits s 9 9 * 2 + bits s 8 8 :=
    bits_split s (by decide) (by decide)
  refine ⟨rfl, singleton_symbol_eq ?_⟩
  simp only [regField_val, bitOf_flagBit, Nat.zero_add, Nat.reduceAdd]
  omega

theorem xf_fields_encodesTo {s : Symbol} (hlo : 4 ≤ bits s 15 12) (hhi : bits s 15 12 < 8) :
    (Instr.xf ⟨flagBit s 13, decodeMode (bits s 12 11), regField s 4⟩
      ⟨flagBit s 10, decodeMode (bits s 9 8), regField s 0⟩).EncodesTo [s] := by
  have hs := toNat_eq_nibbles s
  have htop : bits s 15 12 = bits s 15 14 * 4 + bits s 13 12 := bits_split s (by decide) (by decide)
  have hlt : bits s 13 12 < 4 := bits_lt s 13 12
  have hsi : bits s 13 12 = bits s 13 13 * 2 + bits s 12 12 := bits_split s (by decide) (by decide)
  have hsm : bits s 12 11 = bits s 12 12 * 2 + bits s 11 11 := bits_split s (by decide) (by decide)
  have hop := bits_11_8 s
  have hdi : bits s 10 8 = bits s 10 10 * 4 + bits s 9 8 := bits_split s (by decide) (by decide)
  refine ⟨rfl, singleton_symbol_eq ?_⟩
  simp only [regField_val, bitOf_flagBit, Nat.zero_add, Nat.reduceAdd,
    modeBits_decodeMode (bits_lt s 12 11), modeBits_decodeMode (bits_lt s 9 8)]
  omega

theorem subw_fields_encodesTo {s : Symbol} (ht : bits s 15 12 = 9) :
    (Instr.subw (flagBit s 11) (decodeCount (bits s 10 8)) (bits s 7 4) (regField s 0)).EncodesTo [s] := by
  have hs := toNat_eq_nibbles s
  have hsx := bits_11_8 s
  have hx : bits s 7 4 < 16 := bits_lt s 7 4
  obtain ⟨h1, h8, hmod⟩ := decodeCount_of_lt (bits_lt s 10 8)
  refine ⟨by simp [Instr.wf, h1, h8, hx], singleton_symbol_eq ?_⟩
  simp only [regField_val, bitOf_flagBit, Nat.zero_add, hmod]
  omega

theorem bit_fields_encodesTo {s : Symbol} (ht : bits s 15 12 = 1) :
    (Instr.bit (BitVec.ofNat 4 (bits s 11 8)) (regField s 4) (regField s 0)).EncodesTo [s] := by
  have hs := toNat_eq_nibbles s
  refine ⟨rfl, singleton_symbol_eq ?_⟩
  simp only [regField_val, BitVec.toNat_ofNat, Nat.mod_eq_of_lt (bits_lt s 11 8), Nat.zero_add,
    Nat.reduceAdd]
  omega

theorem si_fields_encodesTo {s : Symbol} (ht : bits s 15 12 = 12) :
    (Instr.si (bits s 11 4) (regField s 0)).EncodesTo [s] := by
  have hs := toNat_eq_nibbles s
  have hv : bits s 11 4 = bits s 11 8 * 16 + bits s 7 4 :=
    bits_split s (by decide) (by decide)
  refine ⟨decide_eq_true (bits_lt s 11 4), singleton_symbol_eq ?_⟩
  simp only [regField_val, Nat.zero_add]
  omega

theorem jc_fields_encodesTo {s : Symbol} (ht : bits s 15 12 = 8) :
    (Instr.jc (regField s 8) (signedField 8 (bits s 7 0))).EncodesTo [s] := by
  obtain ⟨hback, hfits⟩ := signedField8_of_lt (bits_lt s 7 0)
  exact ⟨hfits, singleton_symbol_reg_low_eq ht hback.symm⟩

/-- A one-symbol instruction encodes to the symbol it was decoded from. The cases are the branches of
`decodeShort` in their order, by the top nibble. -/
theorem encodesTo_of_decodeShort {s : Symbol} {i : Instr} (h : decodeShort s = .ok i) :
    i.EncodesTo [s] := by
  have hlt : bits s 15 12 < 16 := bits_lt s 15 12
  unfold decodeShort at h
  split at h
  case h_1 =>
    split at h
    next h0 => cases h; exact ⟨rfl, singleton_symbol_eq h0.symm⟩
    next =>
      split at h
      next h1 => cases h; exact ⟨rfl, singleton_symbol_eq h1.symm⟩
      next => cases h
  case h_2 ht => cases h; exact bit_fields_encodesTo ht
  case h_3 ht => cases h; exact decodeArithmetic_encodesTo ht
  case h_4 ht => cases h; exact cmp_fields_encodesTo ht
  case h_5 ht => cases h; exact jc_fields_encodesTo ht
  case h_6 ht => cases h; exact subw_fields_encodesTo ht
  case h_7 ht | h_8 ht =>
    cases h
    exact ⟨decide_eq_true (bits_lt s 7 0), singleton_symbol_reg_low_eq ht rfl⟩
  case h_9 ht => cases h; exact si_fields_encodesTo ht
  case h_10 => cases h
  case h_11 ht =>
    split at h <;> cases h
    next hf => exact decodeBranch_encodesTo ht (bits_of_flagBit_true hf)
    next hf => exact decodeMisc_encodesTo ht (bits_of_flagBit_false (Bool.eq_false_iff.mpr hf))
  case h_12 => cases h
  case h_13 => cases h; exact xf_fields_encodesTo (by grind) (by grind)

/-- Format L (R115): the two symbols. -/
theorem encodeLong_fields_eq {s0 s1 : Symbol} {f low : Nat} (ht : bits s0 15 12 = 15)
    (hl : bits s0 11 8 = 1) (he : bits s1 15 12 = 0) (hf : bits s1 11 8 = f)
    (hlow : low = bits s1 7 4 * 16 + bits s1 3 0) :
    encodeLong f (regField s0 4) (regField s0 0) low = [s0, s1] := by
  have h0 := toNat_eq_nibbles s0
  have h1 := toNat_eq_nibbles s1
  have hfirst : 0xF100 + (regField s0 4).val * 16 + (regField s0 0).val = s0.toNat := by
    simp only [regField_val, Nat.zero_add, Nat.reduceAdd]
    omega
  rw [encodeLong, symbol_eq hfirst, symbol_eq (s := s1) (by omega)]

/-- A 32-bit instruction encodes to the symbols it was decoded from. -/
theorem encodesTo_of_decodeLong {s0 s1 : Symbol} {i : Instr} (ht : bits s0 15 12 = 15)
    (hl : bits s0 11 8 = 1) (h : decodeLong s0 s1 = .ok i) : i.EncodesTo [s0, s1] := by
  have hlow := bits_7_0 s1
  obtain ⟨hback, hfits⟩ := signedField8_of_lt (bits_lt s1 7 0)
  unfold decodeLong at h
  split at h
  next => cases h
  next he =>
    have he := not_not.mp he
    split at h
    case h_1 hf | h_2 hf => cases h; exact ⟨rfl, encodeLong_fields_eq ht hl he hf (by simp)⟩
    case h_3 hf | h_4 hf =>
      cases h
      exact ⟨hfits, encodeLong_fields_eq ht hl he hf (hback.trans hlow)⟩
    case h_5 => cases h

/-! ### What the decoder does with the first symbol -/

theorem decode_of_bits_short {s : Symbol} (h : bits s 15 12 ≠ 15) (rest : List Symbol) :
    decode (s :: rest) = (decodeShort s).map (·, rest) := by simp [decode, h]

theorem decode_of_bits_long {s0 : Symbol} (ht : bits s0 15 12 = 15) (hl : bits s0 11 8 = 1) (s1 : Symbol)
    (rest : List Symbol) : decode (s0 :: s1 :: rest) = (decodeLong s0 s1).map (·, rest) := by
  simp [decode, ht, hl]

theorem decode_of_bits_longLength {s : Symbol} (ht : bits s 15 12 = 15) (hl : bits s 11 8 ≠ 1)
    (rest : List Symbol) : decode (s :: rest) = .error (.longLength (bits s 11 8)) := by
  simp [decode, ht, hl]

theorem map_pair_eq_ok {x : Except DecodeError Instr} {rest rest' : List Symbol} {i : Instr}
    (h : x.map (·, rest') = .ok (i, rest)) : x = .ok i ∧ rest' = rest := by
  cases x with
  | error e => cases h
  | ok j => cases h; exact ⟨rfl, rfl⟩

/-- What decodes is one symbol, or the two of a 32-bit format, and the rest. -/
theorem decode_eq_ok {ss rest : List Symbol} {i : Instr} (h : decode ss = .ok (i, rest)) :
    (∃ s, ss = s :: rest ∧ decodeShort s = .ok i) ∨
    (∃ s0 s1, ss = s0 :: s1 :: rest ∧ bits s0 15 12 = 15 ∧ bits s0 11 8 = 1 ∧
      decodeLong s0 s1 = .ok i) := by
  cases ss with
  | nil => cases h
  | cons s0 later =>
    by_cases ht : bits s0 15 12 = 15
    · by_cases hl : bits s0 11 8 = 1
      · cases later with
        | nil => simp [decode, ht, hl] at h
        | cons s1 later =>
          rw [decode_of_bits_long ht hl] at h
          obtain ⟨hd, rfl⟩ := map_pair_eq_ok h
          exact .inr ⟨s0, s1, rfl, ht, hl, hd⟩
      · rw [decode_of_bits_longLength ht hl] at h
        cases h
    · rw [decode_of_bits_short ht] at h
      obtain ⟨hd, rfl⟩ := map_pair_eq_ok h
      exact .inl ⟨s0, rfl, hd⟩

/-- Whatever decodes is well formed and encodes to the symbols it was decoded from. -/
theorem encode_decode {ss rest : List Symbol} {i : Instr} (h : decode ss = .ok (i, rest)) :
    i.wf = true ∧ encode i ++ rest = ss := by
  rcases decode_eq_ok h with ⟨s, rfl, hd⟩ | ⟨s0, s1, rfl, ht, hl, hd⟩
  · obtain ⟨hwf, he⟩ := encodesTo_of_decodeShort hd
    exact ⟨hwf, by rw [he]; rfl⟩
  · obtain ⟨hwf, he⟩ := encodesTo_of_decodeLong ht hl hd
    exact ⟨hwf, by rw [he]; rfl⟩

end Sys2Proof

/-! SUPPORT. The words of the opcode map, by the value of their symbols (30_encoding.md R103, R117,
R118). -/

namespace Sys2Proof

theorem bits_15_12_eq_div (s : Symbol) : bits s 15 12 = s.toNat / 4096 := by
  have hs := s.isLt
  simp only [bits]
  omega

theorem bits_11_8_eq_div (s : Symbol) : bits s 11 8 = s.toNat / 256 % 16 := rfl

/-! ### What is rejected -/

/-- First symbols 0002 to 0FFF and D000 to DFFF are assigned to nothing (R117). -/
theorem decode_unassigned {s : Symbol}
    (h : (0x0002 ≤ s.toNat ∧ s.toNat ≤ 0x0FFF) ∨ (0xD000 ≤ s.toNat ∧ s.toNat ≤ 0xDFFF))
    (rest : List Symbol) : decode (s :: rest) = .error (.unassigned s) := by
  have htop := bits_15_12_eq_div s
  have hd : decodeShort s = .error (.unassigned s) := by
    rcases h with ⟨hlo, hhi⟩ | ⟨hlo, hhi⟩
    · have ht : bits s 15 12 = 0 := by omega
      simp [decodeShort, ht, show s.toNat ≠ 0 by omega, show s.toNat ≠ 1 by omega]
    · have ht : bits s 15 12 = 13 := by omega
      simp [decodeShort, ht]
  rw [decode_of_bits_short (by omega), hd]
  rfl

/-- A long header with `L` other than 1 is reserved for extenders (R118). -/
theorem decode_longLength {s : Symbol} (h : 0xF000 ≤ s.toNat) (hl : s.toNat / 256 % 16 ≠ 1)
    (rest : List Symbol) : decode (s :: rest) = .error (.longLength (s.toNat / 256 % 16)) := by
  have hs := s.isLt
  have htop := bits_15_12_eq_div s
  exact decode_of_bits_longLength (by omega) hl rest

/-- A first symbol F100 to F1FF opens the 32-bit format (R115). -/
theorem decode_longHeader {s0 : Symbol} (hlo : 0xF100 ≤ s0.toNat) (hhi : s0.toNat ≤ 0xF1FF)
    (s1 : Symbol) (rest : List Symbol) :
    decode (s0 :: s1 :: rest) = (decodeLong s0 s1).map (·, rest) := by
  have htop := bits_15_12_eq_div s0
  have hl := bits_11_8_eq_div s0
  exact decode_of_bits_long (by omega) (by omega) s1 rest

/-- In the 32-bit format `E` other than 0 is reserved for extenders (R118). -/
theorem decodeLong_of_extension (s0 : Symbol) {s1 : Symbol} (h : 0x1000 ≤ s1.toNat) :
    decodeLong s0 s1 = .error (.longExtension (s1.toNat / 4096)) := by
  have htop := bits_15_12_eq_div s1
  rw [decodeLong, if_pos (by omega), htop]

/-- In the 32-bit format `F` of 4 to 15 is assigned to nothing (R117). -/
theorem decodeLong_of_operation (s0 : Symbol) {s1 : Symbol} (hlo : 0x0400 ≤ s1.toNat)
    (hhi : s1.toNat ≤ 0x0FFF) : decodeLong s0 s1 = .error (.longOperation (s1.toNat / 256)) := by
  have htop := bits_15_12_eq_div s1
  have hop := bits_11_8_eq_div s1
  have hf : bits s1 11 8 = s1.toNat / 256 := by omega
  rw [decodeLong, if_neg (by omega)]
  split
  case h_5 => rw [hf]
  all_goals omega

/-! ### What is accepted -/

/-- The 32-bit format with `E` = 0 and `F` at most 3 is an instruction (49_long_instructions.md R254). -/
theorem decodeLong_of_assigned (s0 : Symbol) {s1 : Symbol} (h : s1.toNat ≤ 0x03FF) :
    ∃ i, decodeLong s0 s1 = .ok i := by
  have htop := bits_15_12_eq_div s1
  have hop := bits_11_8_eq_div s1
  have hf : bits s1 11 8 < 4 := by omega
  rw [decodeLong, if_neg (by omega)]
  split
  case h_5 => grind
  all_goals exact ⟨_, rfl⟩

/-- A first symbol below F000 that is not unassigned is an instruction (R103). -/
theorem decodeShort_of_assigned {s : Symbol} (hlow : s.toNat ≤ 0x0001 ∨ 0x1000 ≤ s.toNat)
    (hd : s.toNat ≤ 0xCFFF ∨ 0xE000 ≤ s.toNat) (hhi : s.toNat ≤ 0xEFFF) :
    ∃ i, decodeShort s = .ok i := by
  have htop := bits_15_12_eq_div s
  unfold decodeShort
  split
  case h_1 =>
    split
    · exact ⟨_, rfl⟩
    · exact ⟨_, if_pos (by omega)⟩
  case h_10 | h_12 => omega
  case h_11 => split <;> exact ⟨_, rfl⟩
  all_goals exact ⟨_, rfl⟩

theorem map_pair_of_ok {x : Except DecodeError Instr} (rest : List Symbol) (h : ∃ i, x = .ok i) :
    ∃ i, x.map (·, rest) = .ok (i, rest) := by
  obtain ⟨i, rfl⟩ := h
  exact ⟨i, rfl⟩

theorem decode_shortAssigned {s : Symbol} (hlow : s.toNat ≤ 0x0001 ∨ 0x1000 ≤ s.toNat)
    (hd : s.toNat ≤ 0xCFFF ∨ 0xE000 ≤ s.toNat) (hhi : s.toNat ≤ 0xEFFF) (rest : List Symbol) :
    ∃ i, decode (s :: rest) = .ok (i, rest) := by
  have htop := bits_15_12_eq_div s
  rw [decode_of_bits_short (by omega)]
  exact map_pair_of_ok rest (decodeShort_of_assigned hlow hd hhi)

/-! ### Unimplemented words -/

/-- A word that the base hardware does not implement decodes to no instruction (R117, R118). -/
theorem decode_of_unimplemented {s0 : Symbol} {ss : List Symbol} (h : Machine.Unimplemented s0 ss) :
    ∃ e, decode (s0 :: ss) = .error e := by
  rcases h with hlow | hd | ⟨hlo, hl⟩ | ⟨hlo, hhi, s1, later, rfl, h1⟩
  · exact ⟨_, decode_unassigned (.inl hlow) ss⟩
  · exact ⟨_, decode_unassigned (.inr hd) ss⟩
  · exact ⟨_, decode_longLength hlo hl ss⟩
  · rw [decode_longHeader hlo hhi]
    rcases Nat.lt_or_ge s1.toNat 0x1000 with hop | hext
    · rw [decodeLong_of_operation s0 h1 (Nat.le_of_lt_succ hop)]
      exact ⟨_, rfl⟩
    · rw [decodeLong_of_extension s0 hext]
      exact ⟨_, rfl⟩

end Sys2Proof

namespace Sys2Proof.Machine

variable {n : Nat}

/-- `raise E(c)` is what the rule says of a raised exception (60_exceptions.md R274, R275). -/
theorem Arch.raised_raise (a : Arch n) (q : Cause) : a.Raised (a.raise q) q.code := by
  constructor
  · intro hie
    refine ⟨?_, a.raise_pins q, a.raise_draws q⟩
    rw [Arch.raise_of_enabled hie]
    exact a.entered_enter true _
  · intro hie
    rw [Arch.raise_of_disabled hie]
    exact a.frame_retire []

/-- What was fetched and decodes to no instruction raises Illegal instruction (30_encoding.md R119). -/
theorem State.perform_of_error {s : State} {ss : List Symbol} {e : DecodeError}
    (h : decode ss = .error e) :
    s.perform ss = .next { s with arch := s.arch.raise .illegalInstruction } := by
  rw [State.perform, h]
  rfl

end Sys2Proof.Machine

/-! The statements on the encoding (30_encoding.md). -/

namespace Sys2Proof.Certificates.Encoding

open Sys2Proof Sys2Proof.Machine

/-- Settles O1. -/
theorem decodingAnEncodingGivesItBack : Obligations.DecodingAnEncodingGivesItBack :=
  fun i rest hwf => decode_encode i hwf rest

/-- Settles O2. -/
theorem encodingADecodingGivesItBack : Obligations.EncodingADecodingGivesItBack :=
  fun _ _ _ h => encode_decode h

/-- Settles O3: each clause is one range of the opcode map. -/
theorem decoderAcceptsExactlyTheOpcodeMap : Obligations.DecoderAcceptsExactlyTheOpcodeMap := by
  intro s0 s1 rest
  refine ⟨fun hlo hhi => decode_unassigned (.inl ⟨hlo, hhi⟩) rest,
    fun hlo hhi => decode_unassigned (.inr ⟨hlo, hhi⟩) rest,
    fun h hl => decode_longLength h hl rest, fun hlo hhi hext => ?_, fun hlo hhi h1 h2 => ?_,
    fun hlo hhi h1 => ?_, fun hlow hd hhi => decode_shortAssigned hlow hd hhi rest⟩
  · rw [decode_longHeader hlo hhi, decodeLong_of_extension s0 hext]
    rfl
  · rw [decode_longHeader hlo hhi, decodeLong_of_operation s0 h1 h2]
    rfl
  · rw [decode_longHeader hlo hhi]
    exact map_pair_of_ok rest (decodeLong_of_assigned s0 h1)

/-- Settles O8: the word is fetched whole, with the PC past it, and decodes to no instruction. -/
theorem unimplementedWordsRaiseIllegalInstruction :
    Obligations.UnimplementedWordsRaiseIllegalInstruction := by
  intro c a s0 ss hrun hx hl hcode hun
  obtain ⟨e, hdec⟩ := decode_of_unimplemented hun
  have hfetch : a.passBoundary.fetch c =
      .ok (s0 :: ss, a.passBoundary.jump (symbolAddress a.pc (1 + ss.length))) :=
    Arch.fetch_of_holds hcode (by rw [symbolsToFollow_eq]; exact hl)
  refine ⟨_, ?_, Arch.raised_raise _ .illegalInstruction⟩
  rw [step_of_fetch hrun hx hfetch, State.perform_of_error hdec]

/-- Settles O4. -/
theorem specExampleWordsDecode : Obligations.SpecExampleWordsDecode := by
  unfold Obligations.SpecExampleWordsDecode
  decide

end Sys2Proof.Certificates.Encoding

/-! SUPPORT. What DEG and ERET come to (40_exception_instructions.md R130, R131). -/

namespace Sys2Proof.Machine

/-- DEG always raises Illegal instruction (R130). -/
theorem exec_deg (c : Config) (a : Arch c.wb) :
    exec .deg ⟨c, a⟩ = .next ⟨c, a.raise .illegalInstruction⟩ := conclude_raises ⟨c, a⟩ _

/-- ERET always completes, with Exception Return's two actions (R131). -/
theorem exec_eret (c : Config) (a : Arch c.wb) :
    exec .eret ⟨c, a⟩ = .next ⟨c, a.exceptionReturn.retire⟩ := complete_eq ⟨c, a⟩ _

/-- Exception Return is the write of `IE` and one register write, of the PC (60_exceptions.md R284). -/
theorem Arch.exceptionReturn_eq_writeReg {n : Nat} (a : Arch n) :
    a.exceptionReturn = ({ a with ie := true } : Arch n).writeReg 0 a.continuation := rfl

/-- But for `IE`, an Exception Return that retires changes the PC alone (60_exceptions.md R284). -/
theorem Arch.frame_exceptionReturn {n : Nat} (a : Arch n) :
    Arch.Frame [0] { a with ie := true } a.exceptionReturn.retire := by
  rw [a.exceptionReturn_eq_writeReg]
  exact Arch.frame_writeReg _ (List.mem_singleton_self 0) _

end Sys2Proof.Machine

/-! The statements on the exception instructions (40_exception_instructions.md). -/

namespace Sys2Proof.Certificates.ExceptionInstructions

open Sys2Proof Sys2Proof.Machine

/-- Settles O15: DEG raises Illegal instruction, and a raise either enters or, masked, retires. -/
theorem degRaisesIllegalInstruction : Obligations.DegRaisesIllegalInstruction :=
  fun c a => ⟨_, exec_deg c a, a.raised_raise .illegalInstruction⟩

/-- Settles O16: ERET completes with Exception Return, which writes the PC and `IE` alone. -/
theorem eretReturnsAndEnables : Obligations.EretReturnsAndEnables := by
  intro c a
  refine ⟨_, exec_eret c a, ?_, ?_, a.frame_exceptionReturn⟩
  · rw [Arch.retire_pc, Arch.exceptionReturn_pc]
  · rw [Arch.retire_ie, Arch.exceptionReturn_ie]

end Sys2Proof.Certificates.ExceptionInstructions

/-! SUPPORT. What BIT comes to, and the sixteen formulas read off the truth table
(41_bitwise.md R140, R141). -/

namespace Sys2Proof.Machine

/-- BIT always completes, with one register write (R140). -/
theorem exec_bit (c : Config) (a : Arch c.wb) (m : BitVec 4) (s d : Reg) :
    exec (.bit m s d) ⟨c, a⟩ =
      .next ⟨c, (a.writeReg d (tableFunction m (a.readReg d) (a.readReg s))).retire⟩ :=
  complete_eq ⟨c, a⟩ _

/-- Retiring counts in SR 4 and leaves a register write standing. -/
theorem Arch.readReg_retire_writeReg {n : Nat} (a : Arch n) (r : Reg) (v : Word n) :
    (a.writeReg r v).retire.readReg r = v := by
  rw [Arch.retire_readReg, Arch.readReg_writeReg_same]

/-- Each of the sixteen formulas works bit by bit: it is the same formula on one-bit words. -/
theorem getLsbD_namedFunction_eq_ofBool {w : Nat} (m : Nat) (d s : BitVec w) {k : Nat} (hk : k < w) :
    (namedFunction m d s).getLsbD k =
      (namedFunction m (BitVec.ofBool (d.getLsbD k)) (BitVec.ofBool (s.getLsbD k))).getLsbD 0 := by
  unfold namedFunction
  split <;> simp [hk]

/-- On one-bit words the formula number `m` has `m` itself as its truth table (R141). -/
theorem namedFunction_ofBool : ∀ (m : BitVec 4) (x y : Bool),
    (namedFunction m.toNat (BitVec.ofBool x) (BitVec.ofBool y)).getLsbD 0 =
      m.getLsbD (2 * x.toNat + y.toNat) := by
  decide

/-- The truth-table function `m` is the formula the table of the sixteen functions gives for `m`
(R141). -/
theorem tableFunction_eq_namedFunction {w : Nat} (m : BitVec 4) (d s : BitVec w) :
    tableFunction m d s = namedFunction m.toNat d s := by
  refine BitVec.eq_of_getLsbD_eq fun k hk => ?_
  rw [getLsbD_tableFunction m d s hk, getLsbD_namedFunction_eq_ofBool m.toNat d s hk,
    namedFunction_ofBool]

end Sys2Proof.Machine

/-! The statements on BIT (41_bitwise.md). -/

namespace Sys2Proof.Certificates.Bitwise

open Sys2Proof Sys2Proof.Machine

/-- Settles O17: the one register BIT writes gets the truth-table function of the old operands. -/
theorem bitLooksUpTheTruthTable : Obligations.BitLooksUpTheTruthTable := by
  intro c a m s d
  refine ⟨_, exec_bit c a m s d, fun k hk => ?_,
    a.frame_writeReg (List.mem_singleton_self d) _⟩
  rw [Arch.readReg_retire_writeReg]
  exact getLsbD_tableFunction m _ _ hk

/-- Settles O18: the truth-table function and the formula agree in every bit. -/
theorem bitComputesTheNamedFunctions : Obligations.BitComputesTheNamedFunctions := by
  intro c a m s d
  refine ⟨_, exec_bit c a m s d, ?_⟩
  rw [Arch.readReg_retire_writeReg]
  exact tableFunction_eq_namedFunction m _ _

end Sys2Proof.Certificates.Bitwise

/-! SUPPORT. What the eight arithmetic instructions come to, and the right operand as a number
(42_arithmetic.md R150 to R158). -/

namespace Sys2Proof.Machine

/-- The common part always completes: `D` gets the function of the old `D` and the right operand, and
nothing else changes (R150). Each of the eight instructions is, by definition, `arithmetic` with its
own function. -/
theorem arithmetic_completes (c : Config) (a : Arch c.wb)
    (f : {w : Nat} → BitVec w → BitVec w → BitVec w) (s : Operand) (d : Reg) :
    ∃ t, arithmetic f s d ⟨c, a⟩ = .next ⟨c, t⟩ ∧ a.Frame [d] t ∧
      t.readReg d = f (a.readReg d) (a.rightOperand s) :=
  ⟨_, complete_eq ⟨c, a⟩ _, a.frame_writeReg (List.mem_singleton_self d) _,
    a.readReg_retire_writeReg d _⟩

/-- The right operand is the number the rules speak of: every word size holds the literals 0 to 15
(R150). -/
theorem Arch.toNat_rightOperand {c : Config} (a : Arch c.wb) {s : Operand} (hs : s.wf = true) :
    (a.rightOperand s).toNat = a.operandNat s := by
  cases s with
  | reg r => rfl
  | imm v =>
    have hv : v < 16 := of_decide_eq_true hs
    have hn : 2 ≤ c.wb := c.word.two_le
    have hw : 2 ^ 4 ≤ 2 ^ (8 * c.wb) := Nat.pow_le_pow_right (by decide) (by omega)
    exact Nat.mod_eq_of_lt (by omega)

/-- Subtraction of words is that of integers, modulo 2^`W` (R152). -/
theorem natCast_toNat_sub {w : Nat} (x y : BitVec w) :
    ((x - y).toNat : Int) = ((x.toNat : Int) - y.toNat) % 2 ^ w := by
  have hy : y.toNat ≤ 2 ^ w := Nat.le_of_lt y.isLt
  calc ((x - y).toNat : Int)
      = (x.toNat + (2 ^ w - y.toNat)) % 2 ^ w := by
        rw [BitVec.toNat_sub']; push_cast [hy]; rfl
    _ = (x.toNat - y.toNat + 2 ^ w) % 2 ^ w := by congr 1; omega
    _ = (x.toNat - y.toNat) % 2 ^ w := Int.add_emod_right _ _

/-- Negation of a word is that of integers, modulo 2^`W` (R158). -/
theorem natCast_toNat_neg {w : Nat} (y : BitVec w) :
    ((-y).toNat : Int) = (0 - (y.toNat : Int)) % 2 ^ w := by
  simpa using natCast_toNat_sub 0 y

end Sys2Proof.Machine

/-! The statements on the arithmetic instructions (42_arithmetic.md). -/

namespace Sys2Proof.Certificates.Arithmetic

open Sys2Proof Sys2Proof.Machine

/-- Settles O19: the sum, the difference and the negation of words are those of numbers modulo
2^`W`. -/
theorem addSubNegWrapModuloTheWord : Obligations.AddSubNegWrapModuloTheWord := by
  intro c a s d hs
  have operand := a.toNat_rightOperand hs
  refine ⟨?add, ?sub, ?neg⟩
  case add =>
    obtain ⟨t, ht, hframe, hd⟩ := arithmetic_completes c a (fun x y => x + y) s d
    exact ⟨t, ht, hframe, by rw [hd, BitVec.toNat_add, operand]⟩
  case sub =>
    obtain ⟨t, ht, hframe, hd⟩ := arithmetic_completes c a (fun x y => x - y) s d
    exact ⟨t, ht, hframe, by rw [hd, natCast_toNat_sub, operand]⟩
  case neg =>
    obtain ⟨t, ht, hframe, hd⟩ := arithmetic_completes c a (fun _ y => -y) s d
    exact ⟨t, ht, hframe, by rw [hd, natCast_toNat_neg, operand]⟩

/-- Settles O20: the two shifts multiply and divide by the power of two of the whole amount. -/
theorem shiftsFillWithZeros : Obligations.ShiftsFillWithZeros := by
  intro c a s d hs
  have operand := a.toNat_rightOperand hs
  refine ⟨?shl, ?shr⟩
  case shl =>
    obtain ⟨t, ht, hframe, hd⟩ := arithmetic_completes c a shiftLeft s d
    exact ⟨t, ht, hframe, by rw [hd, toNat_shiftLeft, operand]⟩
  case shr =>
    obtain ⟨t, ht, hframe, hd⟩ := arithmetic_completes c a shiftRight s d
    exact ⟨t, ht, hframe, by rw [hd, toNat_shiftRight, operand]⟩

/-- Settles O21: the shift with the sign divides the signed value, rounding down. -/
theorem asrFillsWithTheSign : Obligations.AsrFillsWithTheSign := by
  intro c a s d hs
  obtain ⟨t, ht, hframe, hd⟩ := arithmetic_completes c a shiftRightSigned s d
  exact ⟨t, ht, hframe, by rw [hd, toInt_shiftRightSigned, a.toNat_rightOperand hs]⟩

/-- Settles O22: each rotate takes every bit to its place modulo `W`. -/
theorem rotatesLoseNoBit : Obligations.RotatesLoseNoBit := by
  intro c a s d hs
  have operand := a.toNat_rightOperand hs
  refine ⟨?rol, ?ror⟩
  case rol =>
    obtain ⟨t, ht, hframe, hd⟩ := arithmetic_completes c a rotateLeft s d
    exact ⟨t, ht, hframe, fun k hk => by rw [hd, ← operand, getLsbD_rotateLeft _ _ hk]⟩
  case ror =>
    obtain ⟨t, ht, hframe, hd⟩ := arithmetic_completes c a rotateRight s d
    exact ⟨t, ht, hframe, fun k hk => by rw [hd, ← operand, getLsbD_rotateRight _ _ hk]⟩

end Sys2Proof.Certificates.Arithmetic

/-! SUPPORT. What CMP comes to, and the corrected table read off the flag rule
(43_comparison.md R170, R171). -/

namespace Sys2Proof.Machine

/-- CMP always completes, with one register write (R170). -/
theorem exec_cmp (c : Config) (a : Arch c.wb) (f : CmpFlags) (s d : Reg) :
    exec (.cmp f s d) ⟨c, a⟩ =
      .next ⟨c, (a.writeReg d (truthValue _ (cmpTest f (a.readReg d) (a.readReg s)))).retire⟩ :=
  complete_eq ⟨c, a⟩ _

/-- As a number a truth value is 1 or 0: every word size holds `CMP_TRUE` (R170, decision D11). -/
theorem toNat_truthValue (c : Config) (b : Bool) :
    (truthValue (8 * c.wb) b).toNat = b.toNat := by
  have hw : 0 < 8 * c.wb := Nat.mul_pos (by decide) (Nat.zero_lt_of_lt c.word.two_le)
  cases b with
  | false => rfl
  | true => exact Nat.mod_eq_of_lt (Nat.one_lt_two_pow hw.ne')

/-- "Equal or above" is one unsigned comparison (R171, rows 3 and 11). -/
theorem eq_or_toNat_lt_iff {w : Nat} (d s : BitVec w) :
    d = s ∨ s.toNat < d.toNat ↔ s.toNat ≤ d.toNat := by
  rw [← BitVec.toNat_inj]
  omega

/-- "Equal or greater" is one signed comparison (R171, rows 7 and 15). -/
theorem eq_or_toInt_lt_iff {w : Nat} (d s : BitVec w) :
    d = s ∨ s.toInt < d.toInt ↔ s.toInt ≤ d.toInt := by
  rw [← BitVec.toInt_inj]
  omega

/-- Without `Iv` the flag rule gives the first two rows of the table: `E` and `G` choose which tests
are joined, and `Sg` the order `G` tests by (R170, R171). -/
theorem cmpTest_uninverted_iff {w : Nat} (sg g e : Bool) (d s : BitVec w) :
    cmpTest ⟨false, sg, g, e⟩ d s = true ↔
      namedRelation (relationNumber ⟨false, sg, g, e⟩) d s := by
  cases g with
  | false => cases sg <;> cases e <;> simp [cmpTest, relationNumber, namedRelation]
  | true =>
    cases sg with
    | false =>
      cases e <;>
        simp [cmpTest, greaterTest, relationNumber, namedRelation, eq_or_toNat_lt_iff]
    | true =>
      cases e <;>
        simp [cmpTest, greaterTest, relationNumber, namedRelation, eq_or_toInt_lt_iff]

/-- `Iv` negates the internal test (R170). -/
theorem cmpTest_inverted {w : Nat} (sg g e : Bool) (d s : BitVec w) :
    cmpTest ⟨true, sg, g, e⟩ d s = !cmpTest ⟨false, sg, g, e⟩ d s := by
  simp [cmpTest]

/-- The lower half of the corrected table is the negation of the upper half, row by row: this is what
the printed labels of 14 and 15 break (R171). -/
theorem namedRelation_inverted_iff {w : Nat} (sg g e : Bool) (d s : BitVec w) :
    namedRelation (relationNumber ⟨true, sg, g, e⟩) d s ↔
      ¬ namedRelation (relationNumber ⟨false, sg, g, e⟩) d s := by
  cases sg <;> cases g <;> cases e <;> simp [relationNumber, namedRelation]

/-- The final test is the comparison the corrected table names for the flags (R170, R171). -/
theorem cmpTest_iff_namedRelation {w : Nat} (f : CmpFlags) (d s : BitVec w) :
    cmpTest f d s = true ↔ namedRelation (relationNumber f) d s := by
  obtain ⟨iv, sg, g, e⟩ := f
  cases iv with
  | false => exact cmpTest_uninverted_iff sg g e d s
  | true =>
    rw [cmpTest_inverted, Bool.not_eq_true', ← Bool.not_eq_true, cmpTest_uninverted_iff,
      namedRelation_inverted_iff]

end Sys2Proof.Machine

/-! The statement on CMP (43_comparison.md). -/

namespace Sys2Proof.Certificates.Comparison

open Sys2Proof Sys2Proof.Machine

/-- Settles O23: the one register CMP writes gets the truth value of the final test, which is the
comparison the corrected table names. -/
theorem cmpWritesTheTruthOfTheRelation : Obligations.CmpWritesTheTruthOfTheRelation := by
  intro c a f s d
  refine ⟨_, exec_cmp c a f s d, a.frame_writeReg (List.mem_singleton_self d) _, ?_⟩
  rw [Arch.readReg_retire_writeReg, toNat_truthValue, ← cmpTest_iff_namedRelation]
  exact ⟨fun h => by rw [h]; rfl, fun h => by rw [Bool.eq_false_of_not_eq_true h]; rfl⟩

end Sys2Proof.Certificates.Comparison

/-! SUPPORT. Where JC and the short-range branches leave the PC (44_jumps_and_branches.md R180 to
R185). -/

namespace Sys2Proof.Machine

variable {n : Nat}

/-! ### The target -/

/-- The amount a branch adds and the number of addressable units the rules speak of are the same modulo
2^`W` (R181, 30_encoding.md R116). -/
theorem Arch.branchAmount_emod (a : Arch n) (o : BranchOffset) :
    ((a.branchAmount o).toNat : Int) % 2 ^ (8 * n) = a.branchUnits o % 2 ^ (8 * n) := by
  cases o with
  | reg r => rfl
  | imm k =>
    have hk : ((symbolOffset n k).toNat : Int) = k * ist % 2 ^ (8 * n) := by
      rw [symbolOffset, BitVec.toNat_ofInt, Int.toNat_of_nonneg (Int.emod_nonneg _ (by positivity))]
      push_cast
      rfl
    calc ((symbolOffset n k).toNat : Int) % 2 ^ (8 * n)
        = k * ist % 2 ^ (8 * n) := by rw [hk, Int.emod_emod]
      _ = 2 * k % 2 ^ (8 * n) := by rw [mul_comm]; rfl

/-- A jump by a branch's amount goes to the next-instruction address plus the offset, modulo 2^`W`
(R181). -/
theorem Arch.toNat_jumpBy_branchAmount_pc (a : Arch n) (o : BranchOffset) :
    ((a.jumpBy (a.branchAmount o)).pc.toNat : Int) =
      (a.pc.toNat + a.branchUnits o) % 2 ^ (8 * n) := by
  rw [Arch.jumpBy_pc, BitVec.toNat_add]
  push_cast
  rw [Int.add_emod, a.branchAmount_emod, ← Int.add_emod]

/-- A jump that retires changes the PC alone. -/
theorem Arch.frame_jumpBy (a : Arch n) (off : Word n) : a.Frame [0] (a.jumpBy off).retire :=
  a.frame_writeReg (List.mem_singleton_self 0) _

/-! ### The test -/

theorem zeroTest_equal {w : Nat} (x : BitVec w) : zeroTest false x = (x == 0) := rfl

theorem zeroTest_equal_eq_true_iff {w : Nat} {x : BitVec w} :
    zeroTest false x = true ↔ x.toInt = 0 := by
  rw [← BitVec.toInt_zero (w := w), BitVec.toInt_inj, zeroTest_equal]
  exact beq_iff_eq

theorem zeroTest_equal_eq_false_iff {w : Nat} {x : BitVec w} :
    zeroTest false x = false ↔ x.toInt ≠ 0 := by
  rw [← Bool.not_eq_true, zeroTest_equal_eq_true_iff]

theorem zeroTest_greater_eq_true_iff {w : Nat} {x : BitVec w} :
    zeroTest true x = true ↔ 0 < x.toInt := decide_eq_true_iff

theorem zeroTest_greater_eq_false_iff {w : Nat} {x : BitVec w} :
    zeroTest true x = false ↔ x.toInt ≤ 0 := by
  rw [← Bool.not_eq_true, zeroTest_greater_eq_true_iff, Int.not_lt]

/-! ### The instructions -/

/-- A branch whose test comes out other than its `Iv` bit jumps (R181). -/
theorem branch_of_test_eq_not {c : Config} {a : Arch c.wb} {greater invert : Bool} (o : BranchOffset)
    {v : Reg} (h : zeroTest greater (a.readReg v) = !invert) :
    branch greater invert o v ⟨c, a⟩ = .next ⟨c, (a.jumpBy (a.branchAmount o)).retire⟩ := by
  rw [branch, h, complete_eq, Bool.not_bne_self, if_pos rfl]

/-- A branch whose test comes out as its `Iv` bit leaves the PC where it is (R181). -/
theorem branch_of_test_eq {c : Config} {a : Arch c.wb} {greater invert : Bool} (o : BranchOffset)
    {v : Reg} (h : zeroTest greater (a.readReg v) = invert) :
    branch greater invert o v ⟨c, a⟩ = .next ⟨c, a.retire⟩ := by
  rw [branch, h, complete_eq, bne_self_eq_false, if_neg Bool.false_ne_true]

/-- The common part of the branches always completes, with a jump when the test comes out other than
`Iv`; each of the four is, by definition, `branch` with its own `G` and `Iv` (R181). -/
theorem branch_completes (c : Config) (a : Arch c.wb) (greater invert : Bool) (o : BranchOffset)
    (v : Reg) :
    ∃ t, branch greater invert o v ⟨c, a⟩ = .next ⟨c, t⟩ ∧ a.Frame [0] t ∧
      (zeroTest greater (a.readReg v) = (!invert) →
        (t.pc.toNat : Int) = (a.pc.toNat + a.branchUnits o) % 2 ^ (8 * c.wb)) ∧
      (zeroTest greater (a.readReg v) = invert → t.pc = a.pc) := by
  rcases Bool.eq_or_eq_not (zeroTest greater (a.readReg v)) invert with h | h
  · exact ⟨_, branch_of_test_eq o h, a.frame_retire [0],
      fun h' => absurd (h.symm.trans h') (Bool.self_ne_not invert), fun _ => a.retire_pc⟩
  · exact ⟨_, branch_of_test_eq_not o h, a.frame_jumpBy _,
      fun _ => by rw [Arch.retire_pc, a.toNat_jumpBy_branchAmount_pc],
      fun h' => absurd (h'.symm.trans h) (Bool.self_ne_not invert)⟩

/-- JC does what BNZ with an immediate does; only the range of its offset is wider (R180, R183). -/
theorem execJc_eq_execBnz (r : Reg) (off : Int) (s : State) :
    execJc r off s = execBnz (.imm off) r s := by
  rw [execJc, execBnz, branch, zeroTest_equal]
  cases s.arch.readReg r == 0 <;> rfl

end Sys2Proof.Machine

/-! The statements on the jumps and branches (44_jumps_and_branches.md). -/

namespace Sys2Proof.Certificates.JumpsAndBranches

open Sys2Proof Sys2Proof.Machine

/-- Settles O25: each of the four is the common part with its own test against zero, inverted or
not. -/
theorem branchesTestAgainstZero : Obligations.BranchesTestAgainstZero := by
  intro c a o v
  refine ⟨?bz, ?bnz, ?bgtz, ?blez⟩
  case bz =>
    obtain ⟨t, ht, hframe, moves, stays⟩ := branch_completes c a false false o v
    exact ⟨t, ht, hframe, fun h => moves (zeroTest_equal_eq_true_iff.mpr h),
      fun h => stays (zeroTest_equal_eq_false_iff.mpr h)⟩
  case bnz =>
    obtain ⟨t, ht, hframe, moves, stays⟩ := branch_completes c a false true o v
    exact ⟨t, ht, hframe, fun h => moves (zeroTest_equal_eq_false_iff.mpr h),
      fun h => stays (zeroTest_equal_eq_true_iff.mpr h)⟩
  case bgtz =>
    obtain ⟨t, ht, hframe, moves, stays⟩ := branch_completes c a true false o v
    exact ⟨t, ht, hframe, fun h => moves (zeroTest_greater_eq_true_iff.mpr h),
      fun h => stays (zeroTest_greater_eq_false_iff.mpr h)⟩
  case blez =>
    obtain ⟨t, ht, hframe, moves, stays⟩ := branch_completes c a true true o v
    exact ⟨t, ht, hframe, fun h => moves (zeroTest_greater_eq_false_iff.mpr h),
      fun h => stays (zeroTest_greater_eq_true_iff.mpr h)⟩

/-- Settles O24: JC branches as BNZ does, by its immediate count of symbols. -/
theorem jcJumpsWhenNonzero : Obligations.JcJumpsWhenNonzero := by
  intro c a r off
  obtain ⟨t, ht, hframe, moves, stays⟩ := branch_completes c a false true (.imm off) r
  rw [zeroTest_equal] at moves stays
  exact ⟨t, (execJc_eq_execBnz r off ⟨c, a⟩).trans ht, hframe,
    fun h => moves (beq_eq_false_iff_ne.mpr h), fun h => stays (beq_iff_eq.mpr h)⟩

end Sys2Proof.Certificates.JumpsAndBranches

/-! SUPPORT. What the miscellaneous two-register instructions come to, and the five that need the
multiplier (45_misc_two_register.md R190 to R198, 49_long_instructions.md R255). -/

namespace Sys2Proof.Machine

variable {n : Nat}

/-! ### The loops -/

theorem toNat_eq_zero_iff {w : Nat} (v : BitVec w) : v.toNat = 0 ↔ v = 0 := by
  rw [← BitVec.toNat_inj]
  rfl

theorem Arch.retire_contents (a : Arch n) : a.retire.contents = a.contents := rfl

/-- Subtracting one, modulo 2^`W`. -/
theorem toNat_sub_one {w : Nat} (hw : 0 < w) (v : BitVec w) :
    (v - 1).toNat = (v.toNat + (2 ^ w - 1)) % 2 ^ w := by
  have hone : (1 : BitVec w).toNat = 1 := Nat.mod_eq_of_lt (Nat.one_lt_two_pow hw.ne')
  rw [BitVec.toNat_sub, hone, Nat.add_comm]

/-- The counter step as numbers (R196, R198). -/
theorem Arch.contents_countDown (hn : 0 < n) (a : Arch n) (r : Reg) :
    (a.countDown r).contents =
      a.contents.put r (((a.readReg r).toNat + (2 ^ (8 * n) - 1)) % 2 ^ (8 * n)) := by
  rw [Arch.countDown, Arch.contents_writeReg, toNat_sub_one (Nat.mul_pos (by decide) hn)]

/-- A jump by a branch's amount as numbers: the PC alone moves, by the offset modulo 2^`W`. -/
theorem Arch.contents_jumpBy_branchAmount (a : Arch n) (o : BranchOffset) :
    (a.jumpBy (a.branchAmount o)).contents =
      a.contents.put 0 (((a.contents 0 + a.branchUnits o : Int) % 2 ^ (8 * n)).toNat) := by
  have hpc : ((a.contents 0 + a.branchUnits o : Int) % 2 ^ (8 * n)).toNat =
      (a.pc + a.branchAmount o).toNat := by
    rw [← a.jumpBy_pc]
    exact congrArg Int.toNat (a.toNat_jumpBy_branchAmount_pc o).symm
  rw [hpc]
  exact a.contents_writeReg 0 _

/-- The common part of the loops: count down, then while the counter is nonzero jump by an offset,
read after the decrement (R196, R198). -/
def Arch.loopBack (a : Arch n) (r : Reg) (o : BranchOffset) : Arch n :=
  if a.readReg r - 1 == 0 then a.countDown r
  else (a.countDown r).jumpBy ((a.countDown r).branchAmount o)

/-- LOOPI always completes, and loops by its offset register (R196). -/
theorem exec_loopI (c : Config) (a : Arch c.wb) (b r : Reg) :
    exec (.loopI b r) ⟨c, a⟩ = .next ⟨c, (a.loopBack r (.reg b)).retire⟩ := complete_eq ⟨c, a⟩ _

/-- LOOP always completes, and loops by its immediate count of symbols (R198). -/
theorem exec_loop (c : Config) (a : Arch c.wb) (off : Int) (r : Reg) :
    exec (.loop off r) ⟨c, a⟩ = .next ⟨c, (a.loopBack r (.imm off)).retire⟩ :=
  complete_eq ⟨c, a⟩ _

theorem Arch.countDown_contents_eq_zero_iff (a : Arch n) (r : Reg) :
    (a.countDown r).contents r = 0 ↔ a.readReg r - 1 = 0 := by
  rw [Arch.contents, Arch.countDown, Arch.readReg_writeReg_same, toNat_eq_zero_iff]

theorem Arch.loopBack_of_zero {a : Arch n} {r : Reg} (h : (a.countDown r).contents r = 0)
    (o : BranchOffset) : a.loopBack r o = a.countDown r :=
  if_pos (beq_iff_eq.mpr ((a.countDown_contents_eq_zero_iff r).mp h))

theorem Arch.loopBack_of_ne_zero {a : Arch n} {r : Reg} (h : (a.countDown r).contents r ≠ 0)
    (o : BranchOffset) :
    a.loopBack r o = (a.countDown r).jumpBy ((a.countDown r).branchAmount o) :=
  if_neg fun hz => h ((a.countDown_contents_eq_zero_iff r).mpr (beq_iff_eq.mp hz))

/-- A loop whose counter comes down to 0 goes on behind itself (R196, R198). -/
theorem Arch.contents_loopBack_of_zero {a : Arch n} {r : Reg} (o : BranchOffset)
    (h : (a.countDown r).contents r = 0) :
    (a.loopBack r o).contents = (a.countDown r).contents := by
  rw [Arch.loopBack_of_zero h]

/-- A loop whose counter is still nonzero moves the PC, which may be the counter itself
(R196, R198). -/
theorem Arch.contents_loopBack_of_ne_zero {a : Arch n} {r : Reg} (o : BranchOffset)
    (h : (a.countDown r).contents r ≠ 0) :
    (a.loopBack r o).contents = (a.countDown r).contents.put 0
      ((((a.countDown r).contents 0 + (a.countDown r).branchUnits o : Int) % 2 ^ (8 * n)).toNat) := by
  rw [Arch.loopBack_of_ne_zero h, Arch.contents_jumpBy_branchAmount]

/-- A loop that retires changes its counter and the PC alone. -/
theorem Arch.frame_loopBack (a : Arch n) (r : Reg) (o : BranchOffset) :
    a.Frame [0, r] (a.loopBack r o).retire := by
  by_cases h : (a.countDown r).contents r = 0
  · rw [Arch.loopBack_of_zero h]
    exact a.frame_writeReg (by simp) _
  · rw [Arch.loopBack_of_ne_zero h]
    exact a.frame_writeReg_writeReg (by simp) (by simp) _ _

/-! ### SWAP, LOADREG and STOREREG -/

/-- SWAP always completes, with two register writes (R190). -/
theorem exec_swap (c : Config) (a : Arch c.wb) (y x : Reg) :
    exec (.swap y x) ⟨c, a⟩ =
      .next ⟨c, ((a.writeReg x (a.readReg y)).writeReg y (a.readReg x)).retire⟩ :=
  complete_eq ⟨c, a⟩ _

/-- LOADREG by the number of a register reads that register (R194). -/
theorem exec_loadReg_of_number {c : Config} {a : Arch c.wb} {y k : Reg} (x : Reg)
    (hk : (a.readReg y).toNat = k.val) :
    exec (.loadReg y x) ⟨c, a⟩ = .next ⟨c, (a.writeReg x (a.readReg k)).retire⟩ := by
  simp [exec, execLoadReg, hk]

/-- STOREREG by the number of a register writes that register (R195). -/
theorem exec_storeReg_of_number {c : Config} {a : Arch c.wb} {y k : Reg} (x : Reg)
    (hk : (a.readReg y).toNat = k.val) :
    exec (.storeReg y x) ⟨c, a⟩ = .next ⟨c, (a.writeReg k (a.readReg x)).retire⟩ := by
  simp [exec, execStoreReg, hk]

/-- LOADREG by a number above 15 is refused (R194). -/
theorem exec_loadReg_of_beyond {c : Config} {a : Arch c.wb} {y : Reg} (x : Reg)
    (h : 15 < (a.readReg y).toNat) :
    exec (.loadReg y x) ⟨c, a⟩ = .refused (.registerIndex (a.readReg y).toNat) := by
  simp [exec, execLoadReg, Nat.not_lt.mpr h, Stop.outcome]

/-- STOREREG by a number above 15 is refused (R195). -/
theorem exec_storeReg_of_beyond {c : Config} {a : Arch c.wb} {y : Reg} (x : Reg)
    (h : 15 < (a.readReg y).toNat) :
    exec (.storeReg y x) ⟨c, a⟩ = .refused (.registerIndex (a.readReg y).toNat) := by
  simp [exec, execStoreReg, Nat.not_lt.mpr h, Stop.outcome]

/-! ### The multiplier -/

/-- MUL on a model with the multiplier is one register write (R191). -/
theorem exec_mul {c : Config} (hm : c.hasMul = true) (a : Arch c.wb) (y x : Reg) :
    exec (.mul y x) ⟨c, a⟩ =
      .next ⟨c, (a.writeReg x (a.readReg x * a.readReg y)).retire⟩ := by
  simp [exec, execMul, hm]

section WithoutMultiplier

variable {c : Config} (hm : c.hasMul = false) (a : Arch c.wb)
include hm

/-- MUL is not there (R197). -/
theorem exec_mul_of_no_multiplier (y x : Reg) :
    exec (.mul y x) ⟨c, a⟩ = .next ⟨c, a.raise .illegalInstruction⟩ := by
  simp [exec, execMul, hm]

/-- Neither DIV nor MOD is there: both are, by definition, `divide` with its own function (R197). -/
theorem divide_of_no_multiplier (f : Int → Int → Int) (y x : Reg) :
    divide f y x ⟨c, a⟩ = .next ⟨c, a.raise .illegalInstruction⟩ := by
  simp [divide, hm]

/-- MULTIPLY is not there (49_long_instructions.md R255). -/
theorem exec_multiply_of_no_multiplier (x y h lo : Reg) :
    exec (.multiply x y h lo) ⟨c, a⟩ = .next ⟨c, a.raise .illegalInstruction⟩ := by
  simp [exec, execMultiply, hm]

/-- DIVMOD is not there (49_long_instructions.md R255). -/
theorem exec_divMod_of_no_multiplier (x y h lo : Reg) :
    exec (.divMod x y h lo) ⟨c, a⟩ = .next ⟨c, a.raise .illegalInstruction⟩ := by
  simp [exec, execDivMod, hm]

end WithoutMultiplier

/-! ### DIV and MOD: the gates -/

section WithMultiplier

variable {c : Config} (hm : c.hasMul = true) {a : Arch c.wb} {y : Reg}
include hm

theorem divide_of_zero (hy : a.readReg y = 0) (f : Int → Int → Int) (x : Reg) :
    divide f y x ⟨c, a⟩ = .next ⟨c, a.raise .divideByZero⟩ := by
  simp [divide, hm, hy]

theorem divide_of_overflow {x : Reg} (hy : a.readReg y ≠ 0)
    (ho : divideOverflows c.mulDivSigned (a.readReg x) (a.readReg y) = true) (f : Int → Int → Int) :
    divide f y x ⟨c, a⟩ = .refused .divideOverflow := by
  have hy' : ¬a.readReg y = 0#(8 * c.wb) := hy
  simp [divide, hm, hy', ho, Stop.outcome]

/-- Past the gates the result is a function of the operands as integers (R192, R193). -/
theorem divide_of_defined {x : Reg} (hy : a.readReg y ≠ 0)
    (ho : divideOverflows c.mulDivSigned (a.readReg x) (a.readReg y) = false)
    (f : Int → Int → Int) :
    divide f y x ⟨c, a⟩ = .next ⟨c, (a.writeReg x (BitVec.ofInt _
      (f (operandInt c.mulDivSigned (a.readReg x))
        (operandInt c.mulDivSigned (a.readReg y))))).retire⟩ := by
  have hy' : ¬a.readReg y = 0#(8 * c.wb) := hy
  simp [divide, hm, hy', ho]

/-- A division by a nonzero divisor that gives a next state has passed the gates. -/
theorem readReg_of_divide_eq_next {x : Reg} {f : Int → Int → Int} {t : Arch c.wb}
    (hy : a.readReg y ≠ 0) (h : divide f y x ⟨c, a⟩ = .next ⟨c, t⟩) :
    t.readReg x = BitVec.ofInt _
      (f (operandInt c.mulDivSigned (a.readReg x)) (operandInt c.mulDivSigned (a.readReg y))) := by
  cases ho : divideOverflows c.mulDivSigned (a.readReg x) (a.readReg y) with
  | true =>
    rw [divide_of_overflow hm hy ho] at h
    cases h
  | false =>
    rw [divide_of_defined hm hy ho] at h
    obtain rfl := State.arch_eq (Host.Outcome.next.inj h)
    exact a.readReg_retire_writeReg x _

end WithMultiplier

theorem divideOverflows_of_unsigned {w : Nat} {signed : Bool} (hs : signed = false) (v u : BitVec w) :
    divideOverflows signed v u = false := by
  rw [hs]
  rfl

theorem divideOverflows_of_signed_iff {w : Nat} {signed : Bool} (hs : signed = true)
    (v u : BitVec w) :
    divideOverflows signed v u = true ↔ v.toInt = -2 ^ (w - 1) ∧ u.toInt = -1 := by
  simp [divideOverflows, hs]

/-- The common rule of DIV and MOD: the gates in their order, then a function of the operands that,
read back from the word, is `onNat` of naturals and `onInt` of integers (R192, R193). -/
theorem divide_follows_rule (c : Config) (a : Arch c.wb) (y x : Reg) {f : Int → Int → Int}
    {onNat : Nat → Nat → Nat} {onInt : Int → Int → Int}
    (hnat : ∀ v u : Word c.wb,
      (BitVec.ofInt (8 * c.wb) (f v.toNat u.toNat)).toNat = onNat v.toNat u.toNat)
    (hint : ∀ v u : Word c.wb, ¬(v.toInt = -2 ^ (8 * c.wb - 1) ∧ u.toInt = -1) →
      (BitVec.ofInt (8 * c.wb) (f v.toInt u.toInt)).toInt = onInt v.toInt u.toInt) :
    if c.hasMul = false then ∃ t, divide f y x ⟨c, a⟩ = .next ⟨c, t⟩ ∧ a.Raised t 1
    else if (a.readReg y).toNat = 0 then ∃ t, divide f y x ⟨c, a⟩ = .next ⟨c, t⟩ ∧ a.Raised t 0
    else if c.mulDivSigned = false then
      ∃ t, divide f y x ⟨c, a⟩ = .next ⟨c, t⟩ ∧ a.Frame [x] t ∧
        (t.readReg x).toNat = onNat (a.readReg x).toNat (a.readReg y).toNat
    else if (a.readReg x).toInt = -2 ^ (8 * c.wb - 1) ∧ (a.readReg y).toInt = -1 then
      divide f y x ⟨c, a⟩ = .refused .divideOverflow
    else
      ∃ t, divide f y x ⟨c, a⟩ = .next ⟨c, t⟩ ∧ a.Frame [x] t ∧
        (t.readReg x).toInt = onInt (a.readReg x).toInt (a.readReg y).toInt := by
  split
  next hm => exact ⟨_, divide_of_no_multiplier hm a f y x, a.raised_raise .illegalInstruction⟩
  next hm =>
    have hm := Bool.eq_true_of_not_eq_false hm
    simp only [toNat_eq_zero_iff]
    split
    next hy => exact ⟨_, divide_of_zero hm hy f x, a.raised_raise .divideByZero⟩
    next hy =>
      split
      next hs =>
        refine ⟨_, divide_of_defined hm hy (divideOverflows_of_unsigned hs _ _) f,
          a.frame_writeReg (List.mem_singleton_self x) _, ?_⟩
        rw [Arch.readReg_retire_writeReg, hs]
        exact hnat _ _
      next hs =>
        have hs := Bool.eq_true_of_not_eq_false hs
        have hov := divideOverflows_of_signed_iff hs (a.readReg x) (a.readReg y)
        split
        next ho => exact divide_of_overflow hm hy (hov.mpr ho) f
        next ho =>
          refine ⟨_, divide_of_defined hm hy (Bool.eq_false_of_not_eq_true (mt hov.mp ho)) f,
            a.frame_writeReg (List.mem_singleton_self x) _, ?_⟩
          rw [Arch.readReg_retire_writeReg, hs]
          exact hint _ _ ho

/-! ### DIV and MOD: the results -/

/-- An unsigned quotient fits the word (R192). -/
theorem toNat_ofInt_quotient {w : Nat} (v u : BitVec w) :
    (BitVec.ofInt w (quotient v.toNat u.toNat)).toNat = v.toNat / u.toNat := by
  rw [quotient, ← Int.ofNat_tdiv, BitVec.ofInt_natCast, BitVec.toNat_ofNat]
  exact Nat.mod_eq_of_lt (Nat.lt_of_le_of_lt (Nat.div_le_self _ _) v.isLt)

/-- An unsigned remainder fits the word (R193). -/
theorem toNat_ofInt_remainder {w : Nat} (v u : BitVec w) :
    (BitVec.ofInt w (remainder v.toNat u.toNat)).toNat = v.toNat % u.toNat := by
  rw [remainder_eq_tmod, ← Int.ofNat_tmod, BitVec.ofInt_natCast, BitVec.toNat_ofNat]
  exact Nat.mod_eq_of_lt (Nat.lt_of_le_of_lt (Nat.mod_le _ _) v.isLt)

/-- A signed quotient fits the word, but for the most negative value by -1 (R192). -/
theorem toInt_ofInt_quotient {w : Nat} (hw : 0 < w) (v u : BitVec w)
    (h : ¬(v.toInt = -2 ^ (w - 1) ∧ u.toInt = -1)) :
    (BitVec.ofInt w (quotient v.toInt u.toInt)).toInt = v.toInt.tdiv u.toInt := by
  have hdef : v ≠ BitVec.intMin w ∨ u ≠ -1#w := by
    refine not_and_or.mp fun ⟨hv, hu⟩ => h ⟨?_, ?_⟩
    · rw [hv, BitVec.toInt_intMin_of_pos hw]
    · rw [hu, BitVec.neg_one_eq_allOnes, BitVec.toInt_allOnes, if_pos hw]
  rw [← BitVec.toInt_sdiv_of_ne_or_ne v u hdef, BitVec.toInt_sdiv, BitVec.toInt_ofInt, quotient]

/-- A signed remainder always fits the word (R193). -/
theorem toInt_ofInt_remainder {w : Nat} (v u : BitVec w) :
    (BitVec.ofInt w (remainder v.toInt u.toInt)).toInt = v.toInt.tmod u.toInt := by
  rw [remainder_eq_tmod, ← BitVec.toInt_srem, BitVec.ofInt_toInt]

/-- An operand read as an integer, signed or unsigned, is the word it was read from. -/
theorem ofInt_operandInt {w : Nat} (signed : Bool) (v : BitVec w) :
    BitVec.ofInt w (operandInt signed v) = v := by
  cases signed with
  | true => exact BitVec.ofInt_toInt
  | false => rw [operandInt_unsigned, BitVec.ofInt_natCast, BitVec.ofNat_toNat, BitVec.setWidth_eq]

/-- Quotient and remainder rebuild the dividend, also modulo 2^`W` (R193 corner case (a)). -/
theorem ofInt_quotient_mul_add_ofInt_remainder {w : Nat} (signed : Bool) (v u : BitVec w) :
    BitVec.ofInt w (quotient (operandInt signed v) (operandInt signed u)) * u +
      BitVec.ofInt w (remainder (operandInt signed v) (operandInt signed u)) = v := by
  generalize hq : quotient (operandInt signed v) (operandInt signed u) = q
  have hsum : q * operandInt signed u + remainder (operandInt signed v) (operandInt signed u) =
      operandInt signed v := by
    rw [remainder, hq]
    omega
  calc BitVec.ofInt w q * u + BitVec.ofInt w (remainder (operandInt signed v) (operandInt signed u))
      = BitVec.ofInt w q * BitVec.ofInt w (operandInt signed u) +
          BitVec.ofInt w (remainder (operandInt signed v) (operandInt signed u)) := by
        rw [ofInt_operandInt signed u]
    _ = v := by rw [← BitVec.ofInt_mul, ← BitVec.ofInt_add, hsum, ofInt_operandInt]

end Sys2Proof.Machine

/-! The statements on the miscellaneous two-register instructions (45_misc_two_register.md). -/

namespace Sys2Proof.Certificates.MiscTwoRegister

open Sys2Proof Sys2Proof.Machine

/-- Settles O26: `f` is what the decrement leaves, and each loop is the common part with its own
offset. -/
theorem loopsCountDownAndBranch : Obligations.LoopsCountDownAndBranch := by
  intro c a b r off f hf
  have hwb : 0 < c.wb := Nat.zero_lt_of_lt c.word.two_le
  obtain rfl : f = (a.countDown r).contents := hf.trans (Arch.contents_countDown hwb a r).symm
  refine ⟨⟨_, exec_loopI c a b r, a.frame_loopBack r _, Arch.contents_loopBack_of_zero _, fun h => ?_⟩,
    ⟨_, exec_loop c a off r, a.frame_loopBack r _, Arch.contents_loopBack_of_zero _,
      Arch.contents_loopBack_of_ne_zero _⟩⟩
  have hunits : (a.countDown r).branchUnits (.reg b) = ((a.countDown r).contents b : Int) := rfl
  rw [Arch.retire_contents, Arch.contents_loopBack_of_ne_zero _ h, hunits]
  norm_cast

/-- Settles O29. -/
theorem mulKeepsTheLowWord : Obligations.MulKeepsTheLowWord := by
  intro c a y x
  cases hm : c.hasMul with
  | true =>
    refine ⟨_, exec_mul hm a y x, fun _ => ⟨a.frame_writeReg (List.mem_singleton_self x) _, ?_⟩,
      fun h => absurd h (by decide)⟩
    rw [Arch.readReg_retire_writeReg, BitVec.toNat_mul]
  | false =>
    exact ⟨_, exec_mul_of_no_multiplier hm a y x, fun h => absurd h (by decide),
      fun _ => a.raised_raise .illegalInstruction⟩

/-- Settles O30: past the gates of the common rule the quotient fits the word. -/
theorem divWritesTheQuotient : Obligations.DivWritesTheQuotient := by
  intro c a y x
  have hw : 0 < 8 * c.wb := Nat.mul_pos (by decide) (Nat.zero_lt_of_lt c.word.two_le)
  exact divide_follows_rule c a y x toNat_ofInt_quotient (toInt_ofInt_quotient hw)

/-- Settles O31: past the gates of the common rule the remainder fits the word. -/
theorem modWritesTheRemainder : Obligations.ModWritesTheRemainder := fun c a y x =>
  divide_follows_rule c a y x toNat_ofInt_remainder fun v u _ => toInt_ofInt_remainder v u

/-- Settles O32: both have passed the gates, and the remainder is defined from the quotient. -/
theorem quotientAndRemainderRebuildTheDividend :
    Obligations.QuotientAndRemainderRebuildTheDividend := by
  intro c a t u y x hm hy hdiv hmod
  rw [readReg_of_divide_eq_next hm hy hdiv, readReg_of_divide_eq_next hm hy hmod]
  exact ofInt_quotient_mul_add_ofInt_remainder _ _ _

/-- Settles O28: the second write lands on the first where the two registers are one, and both then
hold the old value. -/
theorem swapExchangesTwoRegisters : Obligations.SwapExchangesTwoRegisters := by
  intro c a x y
  refine ⟨_, exec_swap c a y x, a.frame_writeReg_writeReg (by simp) (by simp) _ _, ?_,
    Arch.readReg_retire_writeReg _ y _⟩
  rw [Arch.retire_readReg]
  by_cases hxy : x = y
  · rw [hxy, Arch.readReg_writeReg_same]
  · rw [Arch.readReg_writeReg_other _ _ hxy, Arch.readReg_writeReg_same]

/-- Settles O33. -/
theorem registerFileIsReachedByNumber : Obligations.RegisterFileIsReachedByNumber := by
  intro c a y x
  refine ⟨fun k hk => ⟨?load, ?store⟩,
    fun h => ⟨exec_loadReg_of_beyond x h, exec_storeReg_of_beyond x h⟩⟩
  case load =>
    exact ⟨_, exec_loadReg_of_number x hk, a.frame_writeReg (List.mem_singleton_self x) _,
      a.readReg_retire_writeReg x _⟩
  case store =>
    exact ⟨_, exec_storeReg_of_number x hk, a.frame_writeReg (List.mem_singleton_self k) _,
      a.readReg_retire_writeReg k _⟩

/-- Settles O47: each of the five raises Illegal instruction before it looks at an operand. -/
theorem withoutMultiplierTheFiveAreIllegal : Obligations.WithoutMultiplierTheFiveAreIllegal := by
  intro c a x y h lo i hm hi
  refine ⟨a.raise .illegalInstruction, ?_, a.raised_raise .illegalInstruction⟩
  rcases hi with rfl | rfl | rfl | rfl | rfl
  · exact exec_mul_of_no_multiplier hm a y x
  · exact divide_of_no_multiplier hm a quotient y x
  · exact divide_of_no_multiplier hm a remainder y x
  · exact exec_multiply_of_no_multiplier hm a x y h lo
  · exact exec_divMod_of_no_multiplier hm a x y h lo

end Sys2Proof.Certificates.MiscTwoRegister

/-! SUPPORT. What SUBW comes to, and its result by positions of the selected subword, of which those
beyond the register are 0 (46_subword.md R210). -/

namespace Sys2Proof.Machine

/-- SUBW always completes, with one register write (R210). -/
theorem exec_subw (c : Config) (a : Arch c.wb) (sx : Bool) (count index : Nat) (d : Reg) :
    exec (.subw sx count index d) ⟨c, a⟩ =
      .next ⟨c, (a.writeReg d (subword sx count index (a.readReg d))).retire⟩ :=
  complete_eq ⟨c, a⟩ _

/-- A position beyond the register contributes 0, as R210's pseudocode reads one. -/
theorem getLsbD_eq_ite_le {w : Nat} (hw : 0 < w) (v : BitVec w) (i : Nat) :
    v.getLsbD i = if i ≤ w - 1 then v.getLsbD i else false := by
  split
  next => rfl
  next h => exact BitVec.getLsbD_of_ge v i (by omega)

/-- The bits above the subword are its highest bit where that is asked for and lies in the register,
else 0 (R210). -/
theorem and_getLsbD_eq_ite {w : Nat} (hw : 0 < w) (sx : Bool) (v : BitVec w) (i : Nat) :
    (sx && v.getLsbD i) = if sx = true ∧ i ≤ w - 1 then v.getLsbD i else false := by
  cases sx with
  | false => simp
  | true => simpa using getLsbD_eq_ite_le hw v i

end Sys2Proof.Machine

/-! The statement on SUBW (46_subword.md). -/

namespace Sys2Proof.Certificates.Subword

open Sys2Proof Sys2Proof.Machine

/-- Settles O34: each bit of the result is one position of the register, or of what lies beyond it. -/
theorem subwSelectsAndExtendsBytes : Obligations.SubwSelectsAndExtendsBytes := by
  intro c a sx count index d hcount _ _
  have hw : 0 < 8 * c.wb := Nat.mul_pos (by decide) (Nat.zero_lt_of_lt c.word.two_le)
  refine ⟨_, exec_subw c a sx count index d, a.frame_writeReg (List.mem_singleton_self d) _,
    fun k hk => ?_⟩
  rw [Arch.readReg_retire_writeReg, getLsbD_subword sx count index _ hk hcount,
    ← getLsbD_eq_ite_le hw, ← and_getLsbD_eq_ite hw]

end Sys2Proof.Certificates.Subword

/-! SUPPORT. What RSR and WSR come to, by the System Register that their number names
(47_system_register_access.md R220, R221). -/

namespace Sys2Proof.Machine

/-! ### The numbers and the bits -/

/-- The numbers that R31 leaves out name no System Register (R33). -/
theorem SysReg.ofNumber_of_undefined {k : Nat} (hk : ¬ sysRegDefined k) : SysReg.ofNumber k = none := by
  unfold sysRegDefined at hk
  unfold SysReg.ofNumber
  split
  any_goals omega
  rfl

theorem bitValue_eq_toNat (b : Bool) : bitValue b = b.toNat := by cases b <;> rfl

theorem getLsbD_zero_eq_beq {w : Nat} (v : BitVec w) : v.getLsbD 0 = (v.toNat % 2 == 1) :=
  Nat.testBit_zero v.toNat

theorem getLsbD_one_eq_beq {w : Nat} (v : BitVec w) : v.getLsbD 1 = (v.toNat / 2 % 2 == 1) :=
  Nat.testBit_eq_decide_div_mod_eq

/-! ### RSR -/

/-- Each number that R220 gives a value names a System Register other than SR 5 that reads as that
value, cut to the word. -/
theorem Arch.sysRead_of_sysRegNat {n : Nat} {a : Arch n} {c : Config} {k v : Nat}
    (h : a.sysRegNat c k = some v) :
    ∃ q w, SysReg.ofNumber k = some q ∧ q ≠ .cycles ∧ a.sysRead c q = some w ∧
      w.toNat = v % 2 ^ (8 * n) := by
  have hword (w : Word n) : w.toNat = w.toNat % 2 ^ (8 * n) := (Nat.mod_eq_of_lt w.isLt).symm
  unfold Arch.sysRegNat at h
  split at h <;> cases h
  · exact ⟨.model, _, rfl, nofun, rfl, BitVec.toNat_ofNat ..⟩
  · exact ⟨.wordSize, _, rfl, nofun, rfl, BitVec.toNat_ofNat ..⟩
  · exact ⟨.handler, _, rfl, nofun, rfl, hword _⟩
  · exact ⟨.retired, _, rfl, nofun, rfl, hword _⟩
  · exact ⟨.frequency, _, rfl, nofun, rfl, BitVec.toNat_ofNat ..⟩
  · exact ⟨.extensions, _, rfl, nofun, rfl, by rw [bitValue_eq_toNat, BitVec.toNat_ofNat]⟩
  · exact ⟨.continuation, _, rfl, nofun, rfl, hword _⟩
  · exact ⟨.cause, _, rfl, nofun, rfl, hword _⟩
  · exact ⟨.status, _, rfl, nofun, rfl, by
      rw [bitValue_eq_toNat, bitValue_eq_toNat, BitVec.toNat_ofNat]⟩
  · exact ⟨.enabled, _, rfl, nofun, rfl, by rw [bitValue_eq_toNat, BitVec.toNat_ofNat]⟩

/-- RSR of a register that can be read writes what it reads as, and draws a free value for SR 5 alone. -/
theorem exec_rsr_of_sysRead {c : Config} {a : Arch c.wb} {k : Nat} {q : SysReg} {w : Word c.wb}
    (hk : SysReg.ofNumber k = some q) (hw : a.sysRead c q = some w) (r : Reg) :
    exec (.rsr r k) ⟨c, a⟩ = .next ⟨c, ((a.drawIf (q == .cycles)).writeReg r w).retire⟩ := by
  simp [exec, execRsr, readSystemRegister, hk, hw]

theorem exec_rsr_of_writeOnly {c : Config} {a : Arch c.wb} {k : Nat} {q : SysReg}
    (hk : SysReg.ofNumber k = some q) (hq : a.sysRead c q = none) (r : Reg) :
    exec (.rsr r k) ⟨c, a⟩ = .refused (.readOfWriteOnly k) := by
  simp [exec, execRsr, readSystemRegister, Stop.outcome, hk, hq]

theorem exec_rsr_of_undefined {k : Nat} (hk : ¬ sysRegDefined k) (c : Config) (a : Arch c.wb) (r : Reg) :
    exec (.rsr r k) ⟨c, a⟩ = .refused (.undefinedSystemRegister k) := by
  simp [exec, execRsr, readSystemRegister, Stop.outcome, SysReg.ofNumber_of_undefined hk]

/-! ### WSR -/

/-- WSR of a register that takes the word changes what that register's write changes, and is counted
after it. -/
theorem exec_wsr_of_done {c : Config} {a t : Arch c.wb} {r : Reg} {k : Nat}
    (h : writeSystemRegister a c (a.readReg r) k = .done t) :
    ∃ u, exec (.wsr r k) ⟨c, a⟩ = .next ⟨c, u⟩ ∧ t.Frame [] u :=
  ⟨t.retire, by simp [exec, execWsr, h], t.frame_retire []⟩

theorem exec_wsr_of_refuse {c : Config} {a : Arch c.wb} {r : Reg} {k : Nat} {q : Refusal}
    (h : writeSystemRegister a c (a.readReg r) k = .stops (.refuse q)) :
    exec (.wsr r k) ⟨c, a⟩ = .refused q := by
  simp [exec, execWsr, Stop.outcome, h]

theorem exec_wsr_of_undefined {k : Nat} (hk : ¬ sysRegDefined k) (c : Config) (a : Arch c.wb) (r : Reg) :
    exec (.wsr r k) ⟨c, a⟩ = .refused (.undefinedSystemRegister k) :=
  exec_wsr_of_refuse (by simp [writeSystemRegister, SysReg.ofNumber_of_undefined hk])

section Writes

variable {n : Nat} (a : Arch n) {v : Word n}

theorem Arch.powerWrite_of_toNat_eq_one (hv : v.toNat = 1) :
    a.powerWrite v = .done { a with halted := true } := by
  have hone : v = 1 := BitVec.eq_of_toNat_eq <| by
    rw [hv]; exact (Nat.mod_eq_of_lt (hv ▸ v.isLt)).symm
  simp [Arch.powerWrite, hone]

theorem Arch.powerWrite_of_toNat_eq_zero (hw : 0 < 8 * n) (hv : v.toNat = 0) :
    a.powerWrite v = .done a := by
  obtain rfl : v = 0 := BitVec.eq_of_toNat_eq (by simpa using hv)
  have hone : ((0 : Word n) == 1) = false := beq_false_of_ne fun h => by
    simpa [BitVec.toNat_one hw] using congrArg BitVec.toNat h
  rw [Arch.powerWrite, hone]
  simp

/-- A word above 1 sets a reserved bit of SR 3 (10_state.md R37). -/
theorem Arch.powerWrite_of_one_lt_toNat (hv : 1 < v.toNat) :
    a.powerWrite v = .stops (.refuse .powerStateReserved) := by
  have hne {k : Nat} (hk : k ≤ 1) : (v == BitVec.ofNat _ k) = false := beq_false_of_ne fun h => by
    have hle := Nat.mod_le k (2 ^ (8 * n))
    rw [h, BitVec.toNat_ofNat] at hv
    omega
  have hone : (v == 1) = false := hne (Nat.le_refl 1)
  have hzero : (v == 0) = false := hne (Nat.zero_le 1)
  rw [Arch.powerWrite, hone, hzero]
  rfl

theorem Arch.debugWrite_of_emit {c : Config} (h : c.debugPort = .emit) (v : Word n) :
    a.debugWrite c v = { a with debugOut := a.debugOut ++ [BitVec.ofNat 8 (v.toNat % 256)] } := by
  have hlow : v.setWidth 8 = BitVec.ofNat 8 (v.toNat % 256) := BitVec.eq_of_toNat_eq (by simp)
  simp only [Arch.debugWrite, h, hlow]

theorem Arch.debugWrite_of_ignore {c : Config} (h : c.debugPort = .ignore) (v : Word n) :
    a.debugWrite c v = a := by
  simp only [Arch.debugWrite, h]

theorem writeSystemRegister_status (c : Config) (v : Word n) :
    writeSystemRegister a c v 11 =
      .done { a with extEn := v.toNat % 2 == 1, regExc := v.toNat / 2 % 2 == 1 } := by
  rw [← getLsbD_zero_eq_beq, ← getLsbD_one_eq_beq]
  rfl

theorem writeSystemRegister_enabled (c : Config) (v : Word n) :
    writeSystemRegister a c v 63 = .done { a with ie := v.toNat % 2 == 1 } := by
  rw [← getLsbD_zero_eq_beq]
  rfl

end Writes

end Sys2Proof.Machine

/-! The statements on RSR and WSR (47_system_register_access.md). -/

namespace Sys2Proof.Certificates.SystemRegisterAccess

open Sys2Proof Sys2Proof.Machine

/-- Settles O36: the number names a System Register or none, and that register can be read or not;
only a read of SR 5 draws a value. -/
theorem rsrReadsEverySystemRegister : Obligations.RsrReadsEverySystemRegister := by
  intro c a r k
  refine ⟨fun v hv => ?value, ?cycles, ?writeOnly, fun hk => exec_rsr_of_undefined hk c a r⟩
  case value =>
    obtain ⟨q, w, hk, hq, hw, hval⟩ := Arch.sysRead_of_sysRegNat hv
    have hnext := exec_rsr_of_sysRead hk hw r
    rw [beq_false_of_ne hq] at hnext
    exact ⟨_, hnext, a.frame_writeReg (List.mem_singleton_self r) w, by
      rw [Arch.readReg_retire_writeReg, hval]⟩
  case cycles =>
    rintro rfl
    exact ⟨_, exec_rsr_of_sysRead (q := .cycles) rfl rfl r,
      Arch.frame_writeReg _ (List.mem_singleton_self r) _⟩
  case writeOnly =>
    rintro (rfl | rfl)
    · exact exec_rsr_of_writeOnly (q := .power) rfl rfl r
    · exact exec_rsr_of_writeOnly (q := .debugPort) rfl rfl r

/-- Settles O37: each System Register's write is a change of its own field, by the equation of that
write, and the frame is the one of the count that follows it. -/
theorem wsrWritesEverySystemRegister : Obligations.WsrWritesEverySystemRegister := by
  rintro c a r _ rfl
  have hw : 0 < 8 * c.wb := Nat.mul_pos (by decide) (Nat.zero_lt_of_lt c.word.two_le)
  refine ⟨exec_wsr_of_done rfl, ?halts, ?staysOn, ?reserved, exec_wsr_of_done rfl,
    exec_wsr_of_done rfl, exec_wsr_of_done rfl, exec_wsr_of_done rfl, ?emits, ?ignores,
    exec_wsr_of_done (writeSystemRegister_status a c _),
    exec_wsr_of_done (writeSystemRegister_enabled a c _), ?readOnly,
    fun k hk => exec_wsr_of_undefined hk c a r⟩
  case halts => exact fun hv => exec_wsr_of_done (a.powerWrite_of_toNat_eq_one hv)
  case staysOn => exact fun hv => exec_wsr_of_done (a.powerWrite_of_toNat_eq_zero hw hv)
  case reserved => exact fun hv => exec_wsr_of_refuse (a.powerWrite_of_one_lt_toNat hv)
  case emits => exact fun h => exec_wsr_of_done (congrArg Effect.done (a.debugWrite_of_emit h _))
  case ignores => exact fun h => exec_wsr_of_done (congrArg Effect.done (a.debugWrite_of_ignore h _))
  case readOnly =>
    rintro k (rfl | rfl | rfl | rfl) <;> exact exec_wsr_of_refuse rfl

end Sys2Proof.Certificates.SystemRegisterAccess

/-! SUPPORT. What SI comes to, and Data Transfer by its two sides, each as the rule's pseudocode has it
(48_immediate_and_data_transfer.md R230 to R233). -/

namespace Sys2Proof.Machine

variable {n : Nat}

/-- SI always completes, with one register write (R230). -/
theorem exec_si (c : Config) (a : Arch c.wb) (v : Nat) (d : Reg) :
    exec (.si v d) ⟨c, a⟩ = .next ⟨c, (a.writeReg d (BitVec.ofNat _ v)).retire⟩ :=
  complete_eq ⟨c, a⟩ _

/-- Every word size holds the immediates 0 to 255 (R230). -/
theorem toNat_ofNat_of_lt_256 (c : Config) {v : Nat} (hv : v < 256) :
    (BitVec.ofNat (8 * c.wb) v).toNat = v := by
  have hn : 2 ≤ c.wb := c.word.two_le
  have hw : 2 ^ 8 ≤ 2 ^ (8 * c.wb) := Nat.pow_le_pow_right (by decide) (by omega)
  exact Nat.mod_eq_of_lt (by omega)

/-! ### What a Data Transfer keeps -/

/-- A change that keeps all but some registers, and after it another, keep all but the registers of both.
Only the second is counted, and only it may store to a device. -/
theorem Arch.Keeps.trans {rs qs : List Reg} {a b t : Arch n} (h : a.Keeps rs b.retire)
    (h' : Arch.Keeps qs { b with deviceOut := t.deviceOut } t) :
    Arch.Keeps (rs ++ qs) { a with deviceOut := t.deviceOut } t where
  regs r hr := (h'.regs r fun hq => hr (List.mem_append_right _ hq)).trans
    (h.regs r fun hq => hr (List.mem_append_left _ hq))
  handler := h'.handler.trans h.handler
  retired := h'.retired.trans h.retired
  cycles := h'.cycles.trans h.cycles
  continuation := h'.continuation.trans h.continuation
  cause := h'.cause.trans h.cause
  extEn := h'.extEn.trans h.extEn
  regExc := h'.regExc.trans h.regExc
  ie := h'.ie.trans h.ie
  halted := h'.halted.trans h.halted
  debugOut := h'.debugOut.trans h.debugOut
  deviceOut := rfl
  pins := h'.pins.trans h.pins
  draws := h'.draws.trans h.draws

/-- Whether a word can be read as a value depends on memory alone. -/
theorem Arch.readsAs_congr {a b : Arch n} (hm : b.mem = a.mem) (c : Config) (addr v : Word n) :
    b.ReadsAs c addr v ↔ a.ReadsAs c addr v := by
  simp only [Arch.ReadsAs, hm]

/-- Whether a word was stored depends on memory and on the device stores alone. -/
theorem Arch.storedAt_congr {a b t u : Arch n} (hm : b.mem = a.mem) (ho : b.deviceOut = a.deviceOut)
    (hm' : u.mem = t.mem) (ho' : u.deviceOut = t.deviceOut) (c : Config) (addr v : Word n) :
    b.StoredAt c addr v u ↔ a.StoredAt c addr v t := by
  simp only [Arch.StoredAt, hm, ho, hm', ho']

/-! ### The source side -/

/-- What the source side leaves: both changes of its register and, where a device answered, a draw. -/
def Arch.afterSource (a : Arch n) (o : XfOperand) (drawn : Bool) : Arch n :=
  ((a.stepBefore o).drawIf drawn).stepAfter o

theorem Arch.drawIf_contents (a : Arch n) (drawn : Bool) : (a.drawIf drawn).contents = a.contents := by
  funext r
  simp [Arch.contents]

theorem Arch.afterSource_contents (a : Arch n) (o : XfOperand) (drawn : Bool) :
    (a.afterSource o drawn).contents = (a.contents.before n o).after n o := by
  rw [Arch.afterSource, Arch.contents_stepAfter, Arch.drawIf_contents, Arch.contents_stepBefore]

theorem Arch.afterSource_mem (a : Arch n) (o : XfOperand) (drawn : Bool) :
    (a.afterSource o drawn).mem = a.mem := by simp [Arch.afterSource]

theorem Arch.afterSource_deviceOut (a : Arch n) (o : XfOperand) (drawn : Bool) :
    (a.afterSource o drawn).deviceOut = a.deviceOut := by simp [Arch.afterSource]

/-- The source side changes its register and the draws alone. -/
theorem Arch.keeps_afterSource (a : Arch n) (o : XfOperand) (drawn : Bool) :
    Arch.Keeps [o.reg] { a with draws := a.draws + if drawn then 1 else 0 }
      (a.afterSource o drawn).retire := by
  constructor
  case regs =>
    intro r hr
    have hne : r ≠ o.reg := List.ne_of_not_mem_cons hr
    rw [Arch.retire_readReg, Arch.afterSource, Arch.stepAfter_readReg_other _ _ hne,
      Arch.drawIf_readReg, Arch.stepBefore_readReg_other _ _ hne]
    rfl
  all_goals simp [Arch.afterSource]

/-- A source side that is direct, or indirect at an address that can be read, moves the value the rule
says: the register's, after its first change, or one the word can be read as. -/
theorem Arch.xfSource_value {a : Arch n} {c : Config} {o : XfOperand} {from_ : Word n}
    (hf : from_.toNat = a.contents.before n o o.reg) (hr : o.indirect = true → a.Readable c from_) :
    ∃ v, a.xfSource c o = .ok (v, a.afterSource o (o.indirect && touchesDevice c from_ n)) ∧
      if o.indirect = true then a.ReadsAs c from_ v else v = from_ := by
  have haddr : (a.stepBefore o).readReg o.reg = from_ :=
    BitVec.eq_of_toNat_eq ((a.before_address o).trans hf.symm)
  have hmem : (a.stepBefore o).mem = a.mem := a.stepBefore_mem o
  cases hi : o.indirect with
  | true =>
    obtain ⟨v, hload, hv⟩ := Arch.loadWord_of_readable ((Arch.readable_congr hmem c from_).2 (hr hi))
    refine ⟨v, ?_, (Arch.readsAs_congr hmem c from_ v).1 hv⟩
    simp [Arch.xfSource, hi, haddr, hload, Arch.afterSource]
  | false => exact ⟨from_, by simp [Arch.xfSource, hi, haddr, Arch.afterSource, Arch.drawIf], rfl⟩

/-- Such a source side goes through: the value moved, the registers and what it keeps are those of the
rule. -/
theorem Arch.xfSource_follows_rule {a : Arch n} {c : Config} {o : XfOperand} {from_ : Word n}
    (hf : from_.toNat = a.contents.before n o o.reg) (hr : o.indirect = true → a.Readable c from_) :
    ∃ v t, a.xfSource c o = .ok (v, t) ∧
      (if o.indirect = true then a.ReadsAs c from_ v else v = from_) ∧
      t.contents = (a.contents.before n o).after n o ∧ t.mem = a.mem ∧ t.deviceOut = a.deviceOut ∧
      Arch.Keeps [o.reg]
        { a with draws := a.draws + if o.indirect && touchesDevice c from_ n then 1 else 0 }
        t.retire := by
  obtain ⟨v, hs, hv⟩ := Arch.xfSource_value hf hr
  exact ⟨v, _, hs, hv, a.afterSource_contents o _, a.afterSource_mem o _, a.afterSource_deviceOut o _,
    a.keeps_afterSource o _⟩

/-! ### The destination side -/

/-- A destination side whose store goes through leaves the store and both changes of its register. -/
theorem Arch.xfDestination_of_store {a : Arch n} {c : Config} {o : XfOperand} {to_ : Word n}
    (ht : to_.toNat = a.contents.before n o o.reg) (hi : o.indirect = true) (hw : Writable c to_)
    (v : Word n) :
    ∃ t, a.xfDestination c o v = .ok t ∧ a.StoredAt c to_ v t ∧
      t.contents = (a.contents.before n o).after n o ∧
      Arch.Keeps [o.reg] { a with deviceOut := t.deviceOut } t.retire := by
  have haddr : (a.stepBefore o).readReg o.reg = to_ :=
    BitVec.eq_of_toNat_eq ((a.before_address o).trans ht.symm)
  obtain ⟨m, hstore, hstored⟩ := Arch.storeWord_of_writable (a := a.stepBefore o) hw v
  refine ⟨(({ a.stepBefore o with mem := m } : Arch n).emitIf (touchesDevice c to_ n) to_ v).stepAfter o,
    by simp [Arch.xfDestination, hi, haddr, hstore],
    (Arch.storedAt_congr (a.stepBefore_mem o) (a.stepBefore_deviceOut o) (Arch.stepAfter_mem _ o).symm
      (Arch.stepAfter_deviceOut _ o).symm c to_ v).1 hstored, ?_, ?_⟩
  · rw [Arch.contents_stepAfter, ← Arch.contents_stepBefore]
    congr 1
    funext r
    exact congrArg BitVec.toNat (Arch.emitIf_readReg _ _ _ _ r)
  · constructor
    case regs =>
      intro r hr
      have hne : r ≠ o.reg := List.ne_of_not_mem_cons hr
      rw [Arch.retire_readReg, Arch.stepAfter_readReg_other _ _ hne, Arch.emitIf_readReg]
      exact a.stepBefore_readReg_other o hne
    all_goals simp

/-- A direct destination side leaves the value in its register, between both changes of it. -/
theorem Arch.xfDestination_of_direct (a : Arch n) (c : Config) {o : XfOperand} (hi : o.indirect = false)
    (v : Word n) :
    ∃ t, a.xfDestination c o v = .ok t ∧ a.KeepsMemory t ∧ t.deviceOut = a.deviceOut ∧
      t.contents = ((a.contents.before n o).put o.reg v.toNat).after n o ∧
      Arch.Keeps [o.reg] { a with deviceOut := t.deviceOut } t.retire := by
  refine ⟨((a.stepBefore o).writeReg o.reg v).stepAfter o, by simp [Arch.xfDestination, hi],
    fun x => by simp, by simp, ?_, ?_⟩
  · rw [Arch.contents_stepAfter, Arch.contents_writeReg, Arch.contents_stepBefore]
  · constructor
    case regs =>
      intro r hr
      have hne : r ≠ o.reg := List.ne_of_not_mem_cons hr
      rw [Arch.retire_readReg, Arch.stepAfter_readReg_other _ _ hne, Arch.readReg_writeReg_other _ _ hne]
      exact a.stepBefore_readReg_other o hne
    all_goals simp

/-- A destination side that is direct, or indirect at an address that can be stored to, goes through:
the registers, the octets stored and what it keeps are those of the rule. -/
theorem Arch.xfDestination_follows_rule {a : Arch n} {c : Config} {o : XfOperand} {to_ : Word n}
    (ht : to_.toNat = a.contents.before n o o.reg) (hw : o.indirect = true → Writable c to_)
    (v : Word n) :
    ∃ t, a.xfDestination c o v = .ok t ∧
      (if o.indirect = true then a.StoredAt c to_ v t
        else a.KeepsMemory t ∧ t.deviceOut = a.deviceOut) ∧
      t.contents = (if o.indirect then (a.contents.before n o).after n o
        else ((a.contents.before n o).put o.reg v.toNat).after n o) ∧
      Arch.Keeps [o.reg] { a with deviceOut := t.deviceOut } t.retire := by
  cases hi : o.indirect with
  | true => exact Arch.xfDestination_of_store ht hi (hw hi) v
  | false =>
    obtain ⟨t, hgo, hmem, hout, hregs, hkeeps⟩ := a.xfDestination_of_direct c hi v
    exact ⟨t, hgo, ⟨hmem, hout⟩, hregs, hkeeps⟩

/-! ### Both sides -/

/-- A Data Transfer both of whose sides go through completes. -/
theorem exec_xf_of_ok {c : Config} {a b t : Arch c.wb} {src dst : XfOperand} {v : Word c.wb}
    (hs : a.xfSource c src = .ok (v, b)) (hd : b.xfDestination c dst v = .ok t) :
    exec (.xf src dst) ⟨c, a⟩ = .next ⟨c, t.retire⟩ := by
  simp [exec, execXf, transfer, hs, hd, Effect.ofExcept]

/-- A push stores the register at the decremented pointer (R231, R232). -/
theorem exec_push_of_ok {c : Config} {a t : Arch c.wb} {p r : Reg} {ptr : Word c.wb}
    (hp : ptr = a.readReg p - BitVec.ofNat _ c.wb)
    (h : (a.writeReg p ptr).storeWord c ptr (a.readReg r) = .ok t) :
    exec (.xf ⟨false, .plain, r⟩ ⟨true, .autoDecrement, p⟩) ⟨c, a⟩ = .next ⟨c, t.retire⟩ := by
  refine exec_xf_of_ok (v := a.readReg r) (b := a) rfl ?_
  simp [Arch.xfDestination, Arch.stepBefore, Arch.stepAfter, ← hp, h]

/-- A pop loads the word at the pointer, increments the pointer and writes the register (R231, R232). -/
theorem exec_pop_of_ok {c : Config} {a t : Arch c.wb} {p q : Reg} {v : Word c.wb}
    (h : a.loadWord c (a.readReg p) = .ok (v, t)) :
    exec (.xf ⟨true, .autoIncrement, p⟩ ⟨false, .plain, q⟩) ⟨c, a⟩ =
      .next ⟨c, ((t.writeReg p (t.readReg p + BitVec.ofNat _ c.wb)).writeReg q v).retire⟩ := by
  refine exec_xf_of_ok (v := v) (b := t.writeReg p (t.readReg p + BitVec.ofNat _ c.wb)) ?_ rfl
  simp [Arch.xfSource, Arch.stepBefore, Arch.stepAfter, h]

end Sys2Proof.Machine

/-! The statements on Small Immediate and Data Transfer (48_immediate_and_data_transfer.md). -/

namespace Sys2Proof.Certificates.ImmediateAndDataTransfer

open Sys2Proof Sys2Proof.Machine

/-- Settles O38: the source side leaves the registers the destination side begins with, and memory and
the device stores as they were. -/
theorem transferFollowsTheRule : Obligations.TransferFollowsTheRule := by
  rintro c a src dst _ from_ to_ rfl hfrom hto hr hw
  obtain ⟨v, b, hs, hv, hregs, hmem, hout, hkeeps⟩ := Arch.xfSource_follows_rule hfrom hr
  rw [Contents.atStore, ← hregs] at hto
  obtain ⟨t, hd, hstored, hends, hkeeps'⟩ := Arch.xfDestination_follows_rule hto hw v
  refine ⟨t.retire, v, exec_xf_of_ok hs hd, hv, ?_, ?_, hkeeps.trans hkeeps'⟩
  · rw [Arch.retire_contents, hends, hregs, Contents.atEnd, Contents.atStore]
  · split
    next hi =>
      rw [if_pos hi] at hstored
      exact (Arch.storedAt_congr hmem hout t.retire_mem t.retire_deviceOut c to_ v).1 hstored
    next hi =>
      rw [if_neg hi] at hstored
      obtain ⟨hkept, hquiet⟩ := hstored
      exact ⟨fun x => (hkept x).trans (by rw [hmem]), hquiet.trans hout⟩

/-- Settles O44: the push leaves the pointer at the word it stored, which the pop loads from there. -/
theorem popAfterPushGivesThePushedWord : Obligations.PopAfterPushGivesThePushedWord := by
  intro c a p r q hq ha hram
  generalize hptr : a.readReg p - BitVec.ofNat (8 * c.wb) c.wb = ptr at ha hram
  obtain ⟨t, hstore, hgpr, hload⟩ :=
    Arch.loadWord_of_storeWord (a := a.writeReg p ptr) (a.readReg r) ha hram
  have hp : t.retire.readReg p = ptr := by
    rw [Arch.retire_readReg, Arch.readReg_of_gpr hgpr, Arch.readReg_writeReg_same]
  have hback := hload t.retire t.retire_mem
  rw [← hp] at hback
  refine ⟨t.retire, _, exec_push_of_ok hptr.symm hstore, exec_pop_of_ok hback,
    Arch.readReg_retire_writeReg _ q _, ?_⟩
  rw [Arch.retire_readReg, Arch.readReg_writeReg_other _ _ hq.symm, Arch.readReg_writeReg_same, hp,
    ← hptr, BitVec.sub_add_cancel]

/-- Settles O35. -/
theorem smallImmediateIsZeroExtended : Obligations.SmallImmediateIsZeroExtended := by
  intro c a v d hv
  refine ⟨_, exec_si c a v d, a.frame_writeReg (List.mem_singleton_self d) _, ?_⟩
  rw [Arch.readReg_retire_writeReg, toNat_ofNat_of_lt_256 c hv]

end Sys2Proof.Certificates.ImmediateAndDataTransfer

/-! SUPPORT. What the long instructions come to, and the integers that words and double words hold
(49_long_instructions.md R250 to R253). -/

namespace Sys2Proof.Machine

variable {n : Nat}

/-! ### LOADOFF and STOREOFF -/

/-- The address is the base plus the signed offset, modulo 2^`W` (R252, R253). -/
theorem Arch.natCast_toNat_offsetAddress (a : Arch n) (y : Reg) (off : Int) :
    ((a.offsetAddress y off).toNat : Int) = ((a.readReg y).toNat + off) % 2 ^ (8 * n) := by
  have hoff : ((BitVec.ofInt (8 * n) off).toNat : Int) = off % 2 ^ (8 * n) := by
    rw [BitVec.toNat_ofInt, Int.toNat_of_nonneg (Int.emod_nonneg _ (by positivity))]
    push_cast
    rfl
  rw [Arch.offsetAddress, BitVec.toNat_add]
  push_cast
  rw [hoff, Int.add_emod_emod]

/-- A draw is the change of the draws alone. -/
theorem Arch.drawIf_eq (a : Arch n) (drawn : Bool) :
    a.drawIf drawn = { a with draws := a.draws + if drawn then 1 else 0 } := by
  cases drawn <;> rfl

/-- A store of a word changes memory and the device stores alone. -/
theorem Arch.keeps_emitIf (a : Arch n) (m : Memory) (answered : Bool) (addr v : Word n) :
    Arch.Keeps []
      { a with deviceOut := (({ a with mem := m } : Arch n).emitIf answered addr v).deviceOut }
      (({ a with mem := m } : Arch n).emitIf answered addr v).retire := by
  constructor
  case regs => exact fun r _ => Arch.emitIf_readReg _ _ _ _ r
  all_goals simp

/-! ### The integers of a word -/

/-- The integers that a word of `w` bits holds, signed or unsigned. -/
def InWord (w : Nat) : (signed : Bool) → Int → Prop
  | true, i => -2 ^ (w - 1) ≤ i ∧ i < 2 ^ (w - 1)
  | false, i => 0 ≤ i ∧ i < 2 ^ w

/-- An operand is one of them. -/
theorem inWord_operandInt {w : Nat} (signed : Bool) (v : BitVec w) :
    InWord w signed (operandInt signed v) := by
  cases signed with
  | true => exact ⟨BitVec.le_toInt v, BitVec.toInt_lt⟩
  | false =>
    have hlt : (v.toNat : Int) < 2 ^ w := by exact_mod_cast v.isLt
    exact ⟨Int.natCast_nonneg _, hlt⟩

/-- A word made of one of them reads back as it. -/
theorem operandInt_ofInt {w : Nat} (hw : 0 < w) {signed : Bool} {i : Int} (h : InWord w signed i) :
    operandInt signed (BitVec.ofInt w i) = i := by
  cases signed with
  | true =>
    obtain ⟨hlo, hhi⟩ := h
    exact BitVec.toInt_ofInt_eq_self hw hlo hhi
  | false =>
    obtain ⟨hlo, hhi⟩ := h
    rw [operandInt_unsigned, BitVec.toNat_ofInt, Int.toNat_of_nonneg (Int.emod_nonneg _ (by positivity))]
    exact Int.emod_eq_of_lt hlo (by exact_mod_cast hhi)

/-- A double word is its high word, times 2^`W`, plus its low word, which is unsigned (R250, R251). -/
theorem operandInt_append {w : Nat} (hw : 0 < w) (signed : Bool) (h lo : BitVec w) :
    operandInt signed (h ++ lo) = operandInt signed h * 2 ^ w + lo.toNat := by
  cases signed with
  | true =>
    rw [operandInt_signed, operandInt_signed, BitVec.toInt_append, if_neg (by simpa using hw.ne'),
      mul_comm]
  | false =>
    rw [operandInt_unsigned, operandInt_unsigned, BitVec.toNat_append,
      ← Nat.shiftLeft_add_eq_or_of_lt lo.isLt, Nat.shiftLeft_eq]
    push_cast
    rfl

/-- The product of two operands fits the double word (R250). -/
theorem inWord_mul {w : Nat} (hw : 0 < w) (signed : Bool) (x y : BitVec w) :
    InWord (w + w) signed (operandInt signed x * operandInt signed y) := by
  cases signed with
  | true =>
    have hlt : (2 : Int) ^ (w * 2 - 2) < 2 ^ (w + w - 1) :=
      pow_lt_pow_right₀ (by decide) (by omega)
    have hlo : -2 ^ (w * 2 - 2) ≤ x.toInt * y.toInt := BitVec.le_toInt_mul_toInt
    have hhi : x.toInt * y.toInt ≤ 2 ^ (w * 2 - 2) := BitVec.toInt_mul_toInt_le
    rw [operandInt_signed, operandInt_signed]
    exact ⟨by omega, by omega⟩
  | false =>
    rw [operandInt_unsigned, operandInt_unsigned]
    refine ⟨by positivity, ?_⟩
    rw [pow_add]
    exact_mod_cast Nat.mul_lt_mul'' x.isLt y.isLt

/-- The two words of the double-width product make the exact product (R250). -/
theorem operandInt_product_words {w : Nat} (hw : 0 < w) (signed : Bool) (x y : BitVec w) :
    operandInt signed ((product signed x y).extractLsb' w w) * 2 ^ w +
      ((product signed x y).extractLsb' 0 w).toNat = operandInt signed x * operandInt signed y := by
  rw [← operandInt_append hw, BitVec.extractLsb'_append_extractLsb', product,
    operandInt_ofInt (by omega) (inWord_mul hw signed x y)]

/-- A remainder is smaller than the divisor, so the divisor's word holds it (R251). -/
theorem inWord_remainder {w u : Nat} {signed : Bool} {d k : Int} (hd : InWord u signed d)
    (hk : InWord w signed k) (h0 : k ≠ 0) : InWord w signed (remainder d k) := by
  rw [remainder_eq_tmod]
  cases signed with
  | true =>
    obtain ⟨hlo, hhi⟩ := hk
    have habs : (d.tmod k).natAbs < k.natAbs := by
      rw [Int.natAbs_tmod]
      exact Nat.mod_lt _ (by omega)
    exact ⟨by omega, by omega⟩
  | false =>
    obtain ⟨hlo, hhi⟩ := hk
    have hpos : 0 < k := by omega
    exact ⟨Int.tmod_nonneg _ hd.1, (Int.tmod_lt_of_pos d hpos).trans hhi⟩

/-- The gate of DIVMOD asks whether the quotient is an integer of a word (R251). -/
theorem fitsWord_quotient_iff {w u : Nat} {signed : Bool} {d m : Int} (hd : InWord u signed d)
    (hm : InWord w signed m) :
    fitsWord w signed (quotient d m) = true ↔ InWord w signed (quotient d m) := by
  cases signed with
  | true => simp only [fitsWord, InWord, if_true, Bool.and_eq_true, decide_eq_true_iff, Int.le_sub_one_iff]
  | false =>
    have hq : 0 ≤ quotient d m := Int.tdiv_nonneg hd.1 hm.1
    simp [fitsWord, InWord, hq]

theorem operandInt_of_unsigned {w : Nat} {signed : Bool} (hs : signed = false) (v : BitVec w) :
    operandInt signed v = v.toNat := by rw [hs, operandInt_unsigned]

theorem operandInt_of_signed {w : Nat} {signed : Bool} (hs : signed = true) (v : BitVec w) :
    operandInt signed v = v.toInt := by rw [hs, operandInt_signed]

theorem operandInt_eq_zero_iff {w : Nat} (signed : Bool) (v : BitVec w) :
    operandInt signed v = 0 ↔ v = 0 := by
  cases signed with
  | true => rw [operandInt_signed, ← BitVec.toInt_inj, BitVec.ofNat_eq_ofNat, BitVec.toInt_zero]
  | false => rw [operandInt_unsigned, Int.natCast_eq_zero, toNat_eq_zero_iff]

/-! ### Two results -/

/-- Retiring after two results are written leaves alone all but their registers. -/
theorem Arch.frame_writeTwo (a : Arch n) (r q : Reg) (u v : Word n) :
    a.Frame [r, q] (a.writeTwo r u q v).retire :=
  a.frame_writeReg_writeReg (by simp) (by simp) u v

theorem Arch.readReg_writeTwo_first (a : Arch n) {r q : Reg} (h : r ≠ q) (u v : Word n) :
    (a.writeTwo r u q v).readReg r = u := by
  rw [Arch.writeTwo, Arch.readReg_writeReg_other _ _ h, Arch.readReg_writeReg_same]

theorem Arch.readReg_writeTwo_second (a : Arch n) (r q : Reg) (u v : Word n) :
    (a.writeTwo r u q v).readReg q = v := Arch.readReg_writeReg_same _ q v

/-! ### The two results of DIVMOD -/

/-- The quotient of the double word by a divisor register, as an integer (R251). -/
def Arch.divModQuotient (a : Arch n) (c : Config) (x h lo : Reg) : Int :=
  quotient (operandInt c.mulDivSigned (a.dividend h lo)) (operandInt c.mulDivSigned (a.readReg x))

/-- The remainder of the double word by a divisor register, as an integer (R251). -/
def Arch.divModRemainder (a : Arch n) (c : Config) (y h lo : Reg) : Int :=
  remainder (operandInt c.mulDivSigned (a.dividend h lo)) (operandInt c.mulDivSigned (a.readReg y))

/-- The last gate of DIVMOD asks whether a word holds the quotient. -/
theorem Arch.fitsWord_divModQuotient_iff (a : Arch n) (c : Config) (x h lo : Reg) :
    fitsWord (8 * n) c.mulDivSigned (a.divModQuotient c x h lo) = true ↔
      InWord (8 * n) c.mulDivSigned (a.divModQuotient c x h lo) :=
  fitsWord_quotient_iff (inWord_operandInt _ _) (inWord_operandInt _ _)

theorem Arch.inWord_divModRemainder (a : Arch n) (c : Config) {y : Reg} (hy : a.readReg y ≠ 0)
    (h lo : Reg) : InWord (8 * n) c.mulDivSigned (a.divModRemainder c y h lo) :=
  inWord_remainder (inWord_operandInt _ _) (inWord_operandInt _ _)
    (mt (operandInt_eq_zero_iff _ _).1 hy)

/-- A quotient of unsigned operands, none of them negative, is that of naturals. -/
theorem Arch.divModQuotient_of_unsigned (a : Arch n) {c : Config} (hs : c.mulDivSigned = false)
    (x h lo : Reg) :
    a.divModQuotient c x h lo =
      operandInt c.mulDivSigned (a.dividend h lo) / operandInt c.mulDivSigned (a.readReg x) := by
  rw [Arch.divModQuotient, hs]
  exact Int.tdiv_eq_ediv_of_nonneg (Int.natCast_nonneg _)

theorem Arch.divModRemainder_of_unsigned (a : Arch n) {c : Config} (hs : c.mulDivSigned = false)
    (y h lo : Reg) :
    a.divModRemainder c y h lo =
      operandInt c.mulDivSigned (a.dividend h lo) % operandInt c.mulDivSigned (a.readReg y) := by
  rw [Arch.divModRemainder, remainder_eq_tmod, hs]
  exact Int.tmod_eq_emod_of_nonneg (Int.natCast_nonneg _)

theorem Arch.divModQuotient_eq_tdiv (a : Arch n) (c : Config) (x h lo : Reg) :
    a.divModQuotient c x h lo =
      (operandInt c.mulDivSigned (a.dividend h lo)).tdiv (operandInt c.mulDivSigned (a.readReg x)) := rfl

theorem Arch.divModRemainder_eq_tmod (a : Arch n) (c : Config) (y h lo : Reg) :
    a.divModRemainder c y h lo =
      (operandInt c.mulDivSigned (a.dividend h lo)).tmod (operandInt c.mulDivSigned (a.readReg y)) :=
  remainder_eq_tmod _ _

theorem Arch.fitsWord_divModQuotient_of_unsigned (a : Arch n) {c : Config}
    (hs : c.mulDivSigned = false) (x h lo : Reg) :
    fitsWord (8 * n) c.mulDivSigned (a.divModQuotient c x h lo) = true ↔
      operandInt c.mulDivSigned (a.dividend h lo) / operandInt c.mulDivSigned (a.readReg x) <
        2 ^ (8 * n) := by
  rw [← a.divModQuotient_of_unsigned hs, hs]
  exact decide_eq_true_iff

theorem Arch.fitsWord_divModQuotient_of_signed (a : Arch n) {c : Config}
    (hs : c.mulDivSigned = true) (x h lo : Reg) :
    fitsWord (8 * n) c.mulDivSigned (a.divModQuotient c x h lo) = true ↔
      -2 ^ (8 * n - 1) ≤
          (operandInt c.mulDivSigned (a.dividend h lo)).tdiv (operandInt c.mulDivSigned (a.readReg x)) ∧
        (operandInt c.mulDivSigned (a.dividend h lo)).tdiv (operandInt c.mulDivSigned (a.readReg x)) ≤
          2 ^ (8 * n - 1) - 1 := by
  rw [← a.divModQuotient_eq_tdiv, hs]
  simp only [fitsWord, if_true, Bool.and_eq_true, decide_eq_true_iff]

/-! ### MULTIPLY and DIVMOD: the gates -/

section WithMultiplier

variable {c : Config} (hmul : c.hasMul = true) {a : Arch c.wb}
include hmul

theorem exec_multiply_of_same (x y h : Reg) :
    exec (.multiply x y h h) ⟨c, a⟩ = .refused (.twoResultsOneRegister h) := by
  simp [exec, execMultiply, hmul, Stop.outcome]

theorem exec_multiply_of_ne {h lo : Reg} (hne : h ≠ lo) (x y : Reg) :
    exec (.multiply x y h lo) ⟨c, a⟩ = .next ⟨c, (a.writeTwo
      h ((product c.mulDivSigned (a.readReg x) (a.readReg y)).extractLsb' (8 * c.wb) (8 * c.wb))
      lo ((product c.mulDivSigned (a.readReg x) (a.readReg y)).extractLsb' 0 (8 * c.wb))).retire⟩ := by
  simp [exec, execMultiply, hmul, hne]

/-- Past the gates MULTIPLY writes the words of the exact product (R250). -/
theorem exec_multiply_writes_product {h lo : Reg} (hne : h ≠ lo) (x y : Reg) :
    ∃ t, exec (.multiply x y h lo) ⟨c, a⟩ = .next ⟨c, t⟩ ∧ a.Frame [h, lo] t ∧
      operandInt c.mulDivSigned (t.readReg h) * 2 ^ (8 * c.wb) + (t.readReg lo).toNat =
        operandInt c.mulDivSigned (a.readReg x) * operandInt c.mulDivSigned (a.readReg y) := by
  have hw : 0 < 8 * c.wb := Nat.mul_pos (by decide) (Nat.zero_lt_of_lt c.word.two_le)
  refine ⟨_, exec_multiply_of_ne hmul hne x y, a.frame_writeTwo h lo _ _, ?_⟩
  rw [Arch.retire_readReg, Arch.retire_readReg, a.readReg_writeTwo_first hne,
    Arch.readReg_writeTwo_second, operandInt_product_words hw]

theorem exec_divMod_of_same (x h lo : Reg) :
    exec (.divMod x x h lo) ⟨c, a⟩ = .refused (.twoResultsOneRegister x) := by
  simp [exec, execDivMod, hmul, Stop.outcome]

theorem exec_divMod_of_zero {x y : Reg} (hne : x ≠ y) (hz : a.readReg x = 0 ∨ a.readReg y = 0)
    (h lo : Reg) : exec (.divMod x y h lo) ⟨c, a⟩ = .next ⟨c, a.raise .divideByZero⟩ := by
  have hz' : (a.readReg x == 0 || a.readReg y == 0) = true := by simpa using hz
  simp only [exec, execDivMod, hmul, beq_false_of_ne hne, hz']
  rfl

section Divides

variable {x y : Reg} (hne : x ≠ y) (hx : a.readReg x ≠ 0) (hy : a.readReg y ≠ 0) {h lo : Reg}
include hne hx hy

/-- Past the gates, but for the last, DIVMOD divides (R251). -/
theorem exec_divMod_of_ne_zero :
    exec (.divMod x y h lo) ⟨c, a⟩ = State.conclude ⟨c, a⟩
      (if fitsWord (8 * c.wb) c.mulDivSigned (a.divModQuotient c x h lo) then
        .done (a.writeTwo
          x (BitVec.ofInt _ (a.divModQuotient c x h lo))
          y (BitVec.ofInt _ (a.divModRemainder c y h lo)))
      else .stops (.refuse .quotientOverflow)) := by
  have hz : (a.readReg x == 0 || a.readReg y == 0) = false := by
    rw [beq_false_of_ne hx, beq_false_of_ne hy, Bool.or_false]
  simp only [exec, execDivMod, hmul, beq_false_of_ne hne, hz]
  rfl

/-- A quotient that a word does not hold is refused (R251). -/
theorem exec_divMod_of_overflow
    (hq : fitsWord (8 * c.wb) c.mulDivSigned (a.divModQuotient c x h lo) = false) :
    exec (.divMod x y h lo) ⟨c, a⟩ = .refused .quotientOverflow := by
  rw [exec_divMod_of_ne_zero hmul hne hx hy, hq]
  rfl

/-- Any other quotient, by the one divisor, is written with the remainder by the other (R251). -/
theorem exec_divMod_of_fits
    (hq : fitsWord (8 * c.wb) c.mulDivSigned (a.divModQuotient c x h lo) = true) :
    ∃ t, exec (.divMod x y h lo) ⟨c, a⟩ = .next ⟨c, t⟩ ∧ a.Frame [x, y] t ∧
      operandInt c.mulDivSigned (t.readReg x) = a.divModQuotient c x h lo ∧
      operandInt c.mulDivSigned (t.readReg y) = a.divModRemainder c y h lo := by
  have hw : 0 < 8 * c.wb := Nat.mul_pos (by decide) (Nat.zero_lt_of_lt c.word.two_le)
  have hnext := exec_divMod_of_ne_zero hmul hne hx hy (h := h) (lo := lo)
  rw [if_pos hq] at hnext
  refine ⟨_, hnext, a.frame_writeTwo x y _ _, ?_, ?_⟩
  · rw [Arch.retire_readReg, a.readReg_writeTwo_first hne,
      operandInt_ofInt hw ((a.fitsWord_divModQuotient_iff c x h lo).1 hq)]
  · rw [Arch.retire_readReg, Arch.readReg_writeTwo_second,
      operandInt_ofInt hw (a.inWord_divModRemainder c hy h lo)]

end Divides

end WithMultiplier

end Sys2Proof.Machine

/-! The statements on the long instructions (49_long_instructions.md). -/

namespace Sys2Proof.Certificates.LongInstructions

open Sys2Proof Sys2Proof.Machine

/-- Settles O39: the load changes at most the draws, and one register write follows it. -/
theorem loadOffLoadsTheWord : Obligations.LoadOffLoadsTheWord := by
  intro c a x y off
  refine ⟨a.natCast_toNat_offsetAddress y off, fun hr => ?_⟩
  obtain ⟨v, hload, hv⟩ := Arch.loadWord_of_readable hr
  refine ⟨_, exec_loadOff_of_ok x hload, by rwa [Arch.readReg_retire_writeReg], ?_⟩
  rw [Arch.drawIf_eq]
  exact Arch.frame_writeReg _ (List.mem_singleton_self x) v

/-- Settles O40. -/
theorem storeOffStoresTheWord : Obligations.StoreOffStoresTheWord := by
  intro c a x y off
  refine ⟨a.natCast_toNat_offsetAddress y off, fun hw => ?_⟩
  obtain ⟨m, hstore, hstored⟩ := Arch.storeWord_of_writable hw (a.readReg x)
  exact ⟨_, exec_storeOff_of_ok hstore, hstored, a.keeps_emitIf m _ _ _⟩

/-- Settles O45: past the gates the two words make the exact product, read as `MULDIV_SIGNED` says. -/
theorem multiplyWritesTheDoubleProduct : Obligations.MultiplyWritesTheDoubleProduct := by
  intro c a x y h lo
  split
  next hmul =>
    exact ⟨_, exec_multiply_of_no_multiplier hmul a x y h lo, a.raised_raise .illegalInstruction⟩
  next hmul =>
    have hmul := Bool.eq_true_of_not_eq_false hmul
    split
    next heq => rw [heq, exec_multiply_of_same hmul]
    next hne =>
      obtain ⟨t, ht, hframe, hprod⟩ := exec_multiply_writes_product (a := a) hmul hne x y
      refine ⟨t, ht, hframe, fun hs => ?_, fun hs => ?_⟩
      · simp only [operandInt_of_unsigned hs] at hprod
        exact_mod_cast hprod
      · simpa only [operandInt_of_signed hs] using hprod

/-- Settles O46: the gates in their order; the quotient of unsigned operands, none of them negative,
is that of naturals. -/
theorem divModDividesTheDoubleWord : Obligations.DivModDividesTheDoubleWord := by
  intro c a x y h lo top m k htop hm hk
  have hw : 0 < 8 * c.wb := Nat.mul_pos (by decide) (Nat.zero_lt_of_lt c.word.two_le)
  obtain rfl : top = operandInt c.mulDivSigned (a.dividend h lo) :=
    htop.trans (operandInt_append hw _ _ _).symm
  obtain rfl : m = operandInt c.mulDivSigned (a.readReg x) := hm
  obtain rfl : k = operandInt c.mulDivSigned (a.readReg y) := hk
  split
  next hmul =>
    exact ⟨_, exec_divMod_of_no_multiplier hmul a x y h lo, a.raised_raise .illegalInstruction⟩
  next hmul =>
    have hmul := Bool.eq_true_of_not_eq_false hmul
    split
    next heq => rw [heq, exec_divMod_of_same hmul]
    next hne =>
      simp only [operandInt_eq_zero_iff]
      split
      next hz => exact ⟨_, exec_divMod_of_zero hmul hne hz h lo, a.raised_raise .divideByZero⟩
      next hz =>
        obtain ⟨hx, hy⟩ := not_or.1 hz
        have stops := exec_divMod_of_overflow (h := h) (lo := lo) hmul hne hx hy
        have divides := exec_divMod_of_fits (h := h) (lo := lo) hmul hne hx hy
        split
        next hs =>
          have hfits := a.fitsWord_divModQuotient_of_unsigned hs x h lo
          split
          next hq =>
            obtain ⟨t, ht, hframe, hquot, hrem⟩ := divides (hfits.2 hq)
            rw [a.divModQuotient_of_unsigned hs, operandInt_of_unsigned hs] at hquot
            rw [a.divModRemainder_of_unsigned hs, operandInt_of_unsigned hs] at hrem
            exact ⟨t, ht, hframe, hquot, hrem⟩
          next hq => exact stops (Bool.eq_false_of_not_eq_true (mt hfits.1 hq))
        next hs =>
          have hs := Bool.eq_true_of_not_eq_false hs
          have hfits := a.fitsWord_divModQuotient_of_signed hs x h lo
          split
          next hq =>
            obtain ⟨t, ht, hframe, hquot, hrem⟩ := divides (hfits.2 hq)
            rw [a.divModQuotient_eq_tdiv, operandInt_of_signed hs] at hquot
            rw [a.divModRemainder_eq_tmod, operandInt_of_signed hs] at hrem
            exact ⟨t, ht, hframe, hquot, hrem⟩
          next hq => exact stops (Bool.eq_false_of_not_eq_true (mt hfits.1 hq))

end Sys2Proof.Certificates.LongInstructions

/-! SUPPORT. Which external exception is taken at a boundary, and what its entry does
(60_exceptions.md R275 to R285). -/

namespace Sys2Proof.Machine

variable {n : Nat}

/-! ### The boundary -/

/-- Of several pins one is picked, and it is one of them (R282). -/
theorem pickDevice_of_ne_nil (draw : Nat) {pending : List (Word n)} (h : pending ≠ []) :
    ∃ dev, pickDevice draw pending = some dev ∧ dev ∈ pending := by
  match pending, h with
  | [d], _ => exact ⟨d, rfl, List.mem_singleton_self d⟩
  | d :: e :: rest, _ =>
    have hlt : Config.freePick draw % (d :: e :: rest).length < (d :: e :: rest).length :=
      Nat.mod_lt _ (Nat.succ_pos _)
    refine ⟨_, rfl, ?_⟩
    rw [List.getD_eq_getElem _ _ hlt]
    exact List.getElem_mem hlt

/-- With both enables set the pins decide whether an external exception is taken (R280, R281). -/
theorem Arch.externalException_of_enabled {a : Arch n} (hie : a.ie = true) (hext : a.extEn = true) :
    a.externalException = pickDevice a.draws a.pending := by
  simp [Arch.externalException, hie, hext]

/-- With an enable clear no external exception is taken (R280). -/
theorem Arch.externalException_of_masked {a : Arch n} (h : a.ie = false ∨ a.extEn = false) :
    a.externalException = none := by
  rcases h with h | h <;> simp [Arch.externalException, h]

/-- A running core enters the handler when an external exception is taken, and executes nothing
(R281). -/
theorem step_of_externalException {c : Config} {a : Arch c.wb} {dev : Word c.wb}
    (hrun : a.halted = false) (hx : a.externalException = some dev) :
    step ⟨c, a⟩ = .next ⟨c, a.enterExternal dev⟩ := by
  simp [step, State.cycle, hrun, hx]

/-- A running core that takes no external exception goes on from the state past the boundary. -/
theorem step_of_no_externalException {c : Config} {a : Arch c.wb} (hrun : a.halted = false)
    (hx : a.externalException = none) :
    step ⟨c, a⟩ = State.instruction ⟨c, a.passBoundary⟩ := by
  simp [step, State.cycle, hrun, hx]

/-! ### The entry -/

/-- External entry is the entry sequence with the device's address; passing the boundary and a choice
among pins change nothing it speaks of (R275, R281). -/
theorem Arch.entered_enterExternal (a : Arch n) (dev : Word n) :
    a.Entered (a.enterExternal dev) false dev a.pc := by
  constructor <;> simp +contextual [Arch.enterExternal, Arch.enter_readReg, Arch.pc_eq]

theorem Arch.enterExternal_pins (a : Arch n) (dev : Word n) :
    (a.enterExternal dev).pins = a.pins.tail := by simp [Arch.enterExternal]

end Sys2Proof.Machine

/-! The statements on exceptions (60_exceptions.md). -/

namespace Sys2Proof.Certificates.Exceptions

open Sys2Proof Sys2Proof.Machine

/-- Settles O12: with both enables set one of the pins is picked, and its entry is the step. -/
theorem externalExceptionIsTakenAtTheBoundary : Obligations.ExternalExceptionIsTakenAtTheBoundary := by
  intro c a hrun hie hext hpins
  obtain ⟨dev, hpick, hmem⟩ := pickDevice_of_ne_nil a.draws hpins
  have hx : a.externalException = some dev := (Arch.externalException_of_enabled hie hext).trans hpick
  exact ⟨_, dev, step_of_externalException hrun hx, hmem, a.entered_enterExternal dev,
    a.enterExternal_pins dev⟩

/-- Settles O13: no exception is taken with either input, and past the boundary both states are one. -/
theorem maskedPinsAreIgnored : Obligations.MaskedPinsAreIgnored := by
  intro c a other hrun hmask
  have hrun' : Arch.halted { a with pins := other :: a.pins.tail } = false := hrun
  have hmask' : Arch.externalException { a with pins := other :: a.pins.tail } = none :=
    Arch.externalException_of_masked hmask
  rw [step_of_no_externalException hrun (Arch.externalException_of_masked hmask),
    step_of_no_externalException hrun' hmask']
  rfl

/-- Settles O14: ERET turns `IE` on, so the pin is taken at the very next boundary, and the return
address is the PC there. -/
theorem pendingExceptionIsTakenRightAfterReturn :
    Obligations.PendingExceptionIsTakenRightAfterReturn := by
  intro c a dev later hrun hext hpins
  have hx : a.exceptionReturn.retire.externalException = some dev := by
    have hon : a.exceptionReturn.retire.ie = true := rfl
    have hext' : a.exceptionReturn.retire.extEn = true := hext
    rw [Arch.externalException_of_enabled hon hext', Arch.pending, Arch.retire_pins,
      Arch.exceptionReturn_pins, hpins]
    rfl
  have hentry := a.exceptionReturn.retire.entered_enterExternal dev
  refine ⟨_, _, exec_eret c a, step_of_externalException hrun hx, ?_, hentry.cause, hentry.regExc,
    hentry.ie, hentry.pc, hentry.retired⟩
  rw [hentry.continuation, Arch.retire_pc, Arch.exceptionReturn_pc]

/-- Settles O50: an instruction that completes turns `IE` off by a write of SR 63 alone, and one that
raises an exception has entered with its cause. -/
theorem registeredExceptionsArePrecise : Obligations.RegisteredExceptionsArePrecise := by
  intro c a t i h hi hie ht
  rcases exec_eq_next h with ⟨q, hq, -, hs⟩ | ⟨v, hs, hv⟩ <;> obtain rfl := State.arch_eq hs
  · obtain ⟨hentered, hpins, hdraws⟩ := (a.raised_raise q).1 hie
    refine ⟨?_, hpins, hdraws⟩
    rcases hq with rfl | rfl
    · exact .inl hentered
    · exact .inr hentered
  · have hon : v.retire.ie = true := hv.notEntered.ie hi hie
    exact absurd (hon.symm.trans ht) (by decide)

/-- Settles O11. -/
theorem entrySequenceWritesWhatTheRuleSays : Obligations.EntrySequenceWritesWhatTheRuleSays :=
  fun _ a registered cause => a.entered_enter registered cause

/-- Settles O48: each of the three raises Divide by zero at its gate. -/
theorem zeroDivisorsRaiseDivideByZero : Obligations.ZeroDivisorsRaiseDivideByZero := by
  intro c a x y h lo i hmul hi
  refine ⟨a.raise .divideByZero, ?_, a.raised_raise .divideByZero⟩
  rcases hi with ⟨rfl, hy⟩ | ⟨rfl, hy⟩ | ⟨rfl, hne, hz⟩
  · exact divide_of_zero hmul hy quotient x
  · exact divide_of_zero hmul hy remainder x
  · exact exec_divMod_of_zero hmul hne hz h lo

end Sys2Proof.Certificates.Exceptions
